-- ==== Sys2Proof/Word.lean ====
section
/-! DEFINITION. The word types of the core: what the spec treats as bits, each at the one width it gives. -/

namespace Sys2Proof

/-- One byte: a register of the bank, a cell of video memory, a byte of a serialized operation. -/
abbrev Byte := BitVec 8

/-- A 16-bit word: a data-port word, a video-memory address, the DMA length. -/
abbrev Word := BitVec 16

/-- A 32-bit command word (spec/30_encoding.md R86). -/
abbrev Command := BitVec 32

/-- A 9-bit raster counter, "masked to 0x1FF" (spec/10_state.md R23). -/
abbrev Counter := BitVec 9

/-- A 4-bit addressing-mode code, `CD[3:0]` (spec/30_encoding.md R88). -/
abbrev AccessMode := BitVec 4

end Sys2Proof
end

