-- ==== Sys2Proof/Config.lean ====
section
/-! DEFINITION. What the environment fixes (spec/00_scope.md R7): the video modes, the timing records, the
slot budgets, the sizes, and the values the spec leaves free. A `Config` is plain data that a `State` carries and no
step changes, so that a statement over all states holds for every configuration (log 2). -/

namespace Sys2Proof

/-- `region`, fixed at construction (spec/10_state.md R20). -/
inductive Region where
  | pal
  | ntscJ
  | ntscU
deriving DecidableEq, Repr

/-- `h_res` (spec/10_state.md R20). -/
inductive HRes where
  | h32
  | h40
deriving DecidableEq, Repr

/-- `lines` (spec/10_state.md R20). -/
inductive Lines where
  | v28
  | v30
deriving DecidableEq, Repr

/-- A VideoMode: the product of three fields, 12 values (spec/10_state.md R20). -/
structure VideoMode where
  hRes : HRes
  lines : Lines
  region : Region
deriving DecidableEq, Repr

/-- The three working modes of the DMA engine (spec/42_dma.md). -/
inductive DmaMode where
  | memToVram
  | vramFill
  | vramCopy
deriving DecidableEq, Repr

/-- A video memory a write request or a transfer can target (spec/20_memory.md R67). -/
inductive Target where
  | vram
  | cram
  | vsram
deriving DecidableEq, Repr

/-- TimingParams: eight non-negative integers, one record per VideoMode (spec/10_state.md R21). -/
structure TimingParams where
  hTotal : Nat
  hJumpTrigger : Nat
  hBlankSet : Nat
  hBlankClear : Nat
  vTotal : Nat
  vJumpTrigger : Nat
  vBlankSet : Nat
  vCounterIncrementOn : Nat
deriving DecidableEq, Repr

/-- The slots of one DMA mode, by `h_res` and `is_blanking` (spec/42_dma.md R166). -/
structure BudgetRow where
  h32Active : Nat
  h32Blanking : Nat
  h40Active : Nat
  h40Blanking : Nat
deriving DecidableEq, Repr

/-- SLOT_BUDGET: a table of 12 non-negative integers (spec/42_dma.md R166). -/
structure SlotBudget where
  memToVram : BudgetRow
  vramFill : BudgetRow
  vramCopy : BudgetRow
deriving DecidableEq, Repr

/-- NUM_REGS, the register bank's size (spec/00_scope.md R7, spec/10_state.md R26). -/
abbrev numRegs : Nat := 24

/-- VRAM_SIZE in bytes (spec/00_scope.md R7). -/
abbrev vramSize : Nat := 0x10000

/-- The configuration (spec/00_scope.md R7). `timing` is the finite map TIMING: a mode without an entry has no record. -/
structure Config where
  region : Region
  timing : List (VideoMode × TimingParams)
  slotBudget : SlotBudget
  fifoCapacity : Nat
  fifoThreshold : Nat
  cramSize : Nat
  vsramSize : Nat
  regInit : Vector Byte numRegs
deriving DecidableEq, Repr

/-- The word the external bus returns: an oracle with no law (spec/20_memory.md R68). `draw` numbers the reads, so that
two reads of one address need not agree (log 5). Free value. -/
opaque Config.busRead16 (draw : Nat) (address : BitVec 24) : Word

/-- A byte the spec leaves unspecified: the content of a video memory after a reset (spec/70_reset_and_hazards.md R275,
log 4), or the fill byte of a restored fill that carries no fill word (log 18). Free value. -/
opaque Config.freeByte (draw : Nat) (address : Nat) : Byte

end Sys2Proof
end

