-- ==== Sys2Proof/Machine/Record.lean ====
section
/-! DEFINITION. The state record of the core (spec/44_tick_and_ports.md R232): every element of the state the spec
gives the machine, as plain data. SNAPSHOT returns it, RESTORE takes it, and `State` (Machine/State.lean) holds it. -/

namespace Sys2Proof.Machine

open Sys2Proof

/-- CounterState (spec/10_state.md R23). `hLinePassed` is a signed 32-bit integer (log 13). -/
structure CounterState where
  hCounter : Counter
  vCounter : Counter
  hBlankSet : Bool
  vBlankSet : Bool
  vIntPending : Bool
  hIntPending : Bool
  hLinePassed : BitVec 32
deriving DecidableEq, Repr

/-- A pending memory-write request (spec/10_state.md R35). -/
structure FifoEntry where
  ramMode : AccessMode
  address : Word
  data : Word
deriving DecidableEq, Repr

/-- The FIFO: a circular buffer of `FIFO_CAPACITY` slots (spec/10_state.md R35). -/
structure Fifo where
  slots : List FifoEntry
  head : Nat
  count : Nat
deriving DecidableEq, Repr

/-- A live DmaTransfer (spec/10_state.md R36). Only a VramFill carries a fill word: `fillWordFits` says so, and every
operation keeps it. Source and length are not part of it: they are registers. -/
structure Transfer where
  mode : DmaMode
  destAddress : Word
  destRamType : Target
  fillData : Option Word
  fillStarted : Bool
deriving DecidableEq, Repr

/-- The four states of an interrupt channel (spec/10_state.md R38). -/
inductive Channel where
  | none
  | pending
  | asserted
  | acked
deriving DecidableEq, Repr

/-- The kinds of log record (spec/10_state.md R40, spec/30_encoding.md R99). -/
inductive LogKind where
  | fifoFull
  | dmaDeclined
  | dmaConfigError
  | ackIgnored
deriving DecidableEq, Repr

/-- A video memory. `cells` lists the bytes written since the last reset, addresses strictly rising; an address not
listed holds the free byte of draw number `draw` (log 4). -/
structure Memory where
  draw : Nat
  cells : List Host.Cell
deriving DecidableEq, Repr

/-- The record of spec/44_tick_and_ports.md R232: every state element of spec/10_state.md R45. -/
structure Record where
  curMode : VideoMode
  cs : CounterState
  regs : Vector Byte numRegs
  fifo : Fifo
  dma : Option Transfer
  dmaBusy : Bool
  prim : Channel
  cop : Channel
  frameExpired : Bool
  copTriggerLine : Counter
  vram : Memory
  cram : Memory
  vsram : Memory
  log : List LogKind
deriving DecidableEq, Repr

end Sys2Proof.Machine
end

