-- ==== Sys2Proof/Machine/Params.lean ====
section
/-! DEFINITION. The timing parameters and the configuration in use: jump targets and counter sets (spec/10_state.md
R22), well-formedness (R24), the look-ups, and the configuration `State.reset` stands in (spec/95_test_vectors.md,
"Standard configuration"). -/

namespace Sys2Proof.Machine

open Sys2Proof

/-- COUNTER_LIMIT, the counter mask 0x1FF (spec/00_scope.md R7). -/
def counterLimit : Nat := 0x1FF

/-- VINT_LEVEL, 6 (spec/00_scope.md R7). -/
def vintLevel : Byte := 6#8

/-- HINT_LEVEL, 4 (spec/00_scope.md R7; decision D8). -/
def hintLevel : Byte := 4#8

/-- The jump target `1 + 0x1FF + trigger - total` of a counter (R22). -/
def jumpTarget (trigger total : Nat) : Nat := 1 + counterLimit + trigger - total

/-- Membership in `[0, trigger - 1] ∪ [J, 0x1FF]`, the values a counter takes (R22). -/
def inCounterSet (trigger total x : Nat) : Bool :=
  decide (x < trigger) || (decide (jumpTarget trigger total ≤ x) && decide (x ≤ counterLimit))

/-- `Hset(P)` (R22). -/
def inHset (p : TimingParams) (x : Nat) : Bool := inCounterSet p.hJumpTrigger p.hTotal x

/-- `Vset(P)` (R22). -/
def inVset (p : TimingParams) (x : Nat) : Bool := inCounterSet p.vJumpTrigger p.vTotal x

/-- Conditions 1 and 2 of R24, for one counter. -/
def counterWf (trigger total : Nat) : Bool :=
  decide (1 ≤ trigger) && decide (trigger ≤ counterLimit) && decide (trigger + 1 ≤ total) && decide (total ≤ 512)

/-- Condition 3 of R24: every event value of a line is taken by the horizontal counter. -/
def eventsWf (p : TimingParams) : Bool :=
  inHset p p.hBlankSet && inHset p p.hBlankClear && inHset p p.vCounterIncrementOn &&
    inHset p (p.vCounterIncrementOn + 2) && inHset p 2 && decide (p.vCounterIncrementOn + 2 ≤ counterLimit)

/-- Condition 6 of R24: the vertical step and the HINT step lie in one run of the horizontal counter. -/
def oneRunWf (p : TimingParams) : Bool :=
  decide (p.vCounterIncrementOn + 2 < p.hJumpTrigger) ||
    decide (jumpTarget p.hJumpTrigger p.hTotal ≤ p.vCounterIncrementOn)

/-- A TimingParams record is well-formed (R24, conditions 1 to 6). -/
def paramsWf (p : TimingParams) : Bool :=
  counterWf p.hJumpTrigger p.hTotal && counterWf p.vJumpTrigger p.vTotal && eventsWf p &&
    decide (p.hBlankSet ≠ p.hBlankClear) &&
    (inVset p p.vBlankSet && decide (1 ≤ p.vBlankSet) && decide (p.vBlankSet < p.vJumpTrigger)) && oneRunWf p

/-- The record a finite map gives a mode: of a list that gives a mode two records, which is no map, the first counts. -/
def findTiming (m : VideoMode) : List (VideoMode × TimingParams) → Option TimingParams
  | [] => none
  | (k, p) :: rest => if k = m then some p else findTiming m rest

/-- `TIMING(m)`, where it is supplied and well-formed; every other mode is refused (R24). -/
def timingOf (cfg : Config) (m : VideoMode) : Option TimingParams :=
  match findTiming m cfg.timing with
  | some p => if paramsWf p then some p else none
  | none => none

/-- One entry of a mode's slot-budget row (spec/42_dma.md R166). -/
def budgetEntry (row : BudgetRow) (h : HRes) (blanking : Bool) : Nat :=
  match h, blanking with
  | .h32, false => row.h32Active
  | .h32, true => row.h32Blanking
  | .h40, false => row.h40Active
  | .h40, true => row.h40Blanking

/-- `SLOT_BUDGET(h_res, is_blanking, mode)` (spec/42_dma.md R166). -/
def slotBudget (cfg : Config) (h : HRes) (blanking : Bool) (mode : DmaMode) : Nat :=
  match mode with
  | .memToVram => budgetEntry cfg.slotBudget.memToVram h blanking
  | .vramFill => budgetEntry cfg.slotBudget.vramFill h blanking
  | .vramCopy => budgetEntry cfg.slotBudget.vramCopy h blanking

/-- The slots one unit costs: 2 in MemToVram, 1 otherwise (spec/42_dma.md R166). -/
def unitCost (mode : DmaMode) : Nat :=
  match mode with
  | .memToVram => 2
  | .vramFill => 1
  | .vramCopy => 1

/-- The units of one DO_DMA call, `floor(SLOT_BUDGET / cost)` (spec/42_dma.md R166). -/
def unitsPerCall (cfg : Config) (h : HRes) (blanking : Bool) (mode : DmaMode) : Nat :=
  slotBudget cfg h blanking mode / unitCost mode

/-- `n` is a power of two of at most 2^16, and not 1: the CRAM sizes R66 makes sense for (log 20). -/
def cramSizeWf (n : Nat) : Bool := [2, 4, 8, 16, 32, 64, 128, 256, 512, 1024, 2048, 4096, 8192, 16384, 32768, 65536].contains n

/-- The conditions the spec puts on a configuration (spec/41_fifo.md R144, spec/20_memory.md R66; log 20). -/
def configWf (cfg : Config) : Bool :=
  decide (1 ≤ cfg.fifoThreshold) && decide (cfg.fifoThreshold ≤ cfg.fifoCapacity) && cramSizeWf cfg.cramSize &&
    decide (cfg.vsramSize % 2 = 0)

/-- A record joined from a horizontal and a vertical row of spec/93_implementation_defined.md Part 3. -/
def h32Params (vTotal vJumpTrigger vBlankSet : Nat) : TimingParams :=
  { hTotal := 342, hJumpTrigger := 0x128, hBlankSet := 0x126, hBlankClear := 0x00A, vCounterIncrementOn := 0x10A,
    vTotal := vTotal, vJumpTrigger := vJumpTrigger, vBlankSet := vBlankSet }

/-- The H40 counterpart of `h32Params`. -/
def h40Params (vTotal vJumpTrigger vBlankSet : Nat) : TimingParams :=
  { hTotal := 420, hJumpTrigger := 0x16D, hBlankSet := 0x166, hBlankClear := 0x00B, vCounterIncrementOn := 0x14A,
    vTotal := vTotal, vJumpTrigger := vJumpTrigger, vBlankSet := vBlankSet }

/-- The candidate TIMING of spec/93_implementation_defined.md Part 3; NTSC V30 has no record. PRESUMED by the spec itself
(its general knowledge), except PAL V28's `v_blank_set` (log 2). -/
def candidateTiming : List (VideoMode × TimingParams) :=
  [ (⟨.h32, .v28, .pal⟩, h32Params 313 0x103 0xE0),
    (⟨.h40, .v28, .pal⟩, h40Params 313 0x103 0xE0),
    (⟨.h32, .v30, .pal⟩, h32Params 313 0x10B 0xF0),
    (⟨.h40, .v30, .pal⟩, h40Params 313 0x10B 0xF0),
    (⟨.h32, .v28, .ntscJ⟩, h32Params 262 0xEB 0xE0),
    (⟨.h40, .v28, .ntscJ⟩, h40Params 262 0xEB 0xE0),
    (⟨.h32, .v28, .ntscU⟩, h32Params 262 0xEB 0xE0),
    (⟨.h40, .v28, .ntscU⟩, h40Params 262 0xEB 0xE0) ]

/-- The candidate SLOT_BUDGET of spec/93_implementation_defined.md Part 3 (log 2). -/
def candidateBudget : SlotBudget :=
  { memToVram := { h32Active := 16, h32Blanking := 167, h40Active := 18, h40Blanking := 205 },
    vramFill := { h32Active := 16, h32Blanking := 167, h40Active := 18, h40Blanking := 205 },
    vramCopy := { h32Active := 8, h32Blanking := 83, h40Active := 9, h40Blanking := 102 } }

/-- The standard configuration of spec/95_test_vectors.md: PAL, 24 zero bytes of REG_INIT, FIFO 4 and 4, CRAM 128, VSRAM
80, and the candidate values (log 2, log 3). -/
def standardConfig : Config :=
  { region := .pal, timing := candidateTiming, slotBudget := candidateBudget, fifoCapacity := 4, fifoThreshold := 4,
    cramSize := 128, vsramSize := 80, regInit := Vector.replicate numRegs 0#8 }

end Sys2Proof.Machine
end

