-- ==== Sys2Proof/Machine/Operands.lean ====
section
/-! DEFINITION. Every operand form of the core: the register bank's fields (spec/10_state.md R26 to R33), the
command word's fields (spec/30_encoding.md R86 to R90), the addressing-mode classes (R88), the DMA mode selection (R91)
and the state of a FIFO slot (spec/10_state.md R35). -/

namespace Sys2Proof.Machine

open Sys2Proof

/-- `reg[i]` (spec/10_state.md R26). No read has a side effect. -/
def Record.reg (v : Record) (i : Fin numRegs) : Byte := v.regs[i]

/-- `reg[i] <- b` (spec/10_state.md R26). -/
def Record.setReg (v : Record) (i : Fin numRegs) (b : Byte) : Record := { v with regs := v.regs.set i b }

/-- `HIE`, register 0 bit 4 (R27). -/
def hie (v : Record) : Bool := (v.reg 0).getLsbD 4

/-- `DISP`, register 1 bit 6 (R27). -/
def disp (v : Record) : Bool := (v.reg 1).getLsbD 6

/-- `VIE`, register 1 bit 5 (R27). -/
def vie (v : Record) : Bool := (v.reg 1).getLsbD 5

/-- `M1`, register 1 bit 4 (R27). -/
def m1Enabled (v : Record) : Bool := (v.reg 1).getLsbD 4

/-- The video mode that registers 1 (`V30`, bit 3) and 12 (`H40`, bit 0) and REGION select (R20, R27). -/
def modeFromBits (region : Region) (reg1 reg12 : Byte) : VideoMode :=
  { hRes := if reg12.getLsbD 0 then .h40 else .h32,
    lines := if reg1.getLsbD 3 then .v30 else .v28,
    region := region }

/-- `mode_id(h_res = H40, lines = V30, region = REGION)` (spec/44_tick_and_ports.md R224). -/
def selectedMode (cfg : Config) (v : Record) : VideoMode := modeFromBits cfg.region (v.reg 1) (v.reg 12)

/-- The HINT reload value, `reg[10]` (R32). -/
def lineCounter (v : Record) : Byte := v.reg 10

/-- `AUTO_INC`, `reg[15]` (R31). -/
def autoInc (v : Record) : Byte := v.reg 15

/-- The DMA length `reg[20] :: reg[19]` (R28). -/
def dmaLength (v : Record) : Word := v.reg 20 ++ v.reg 19

/-- A write of `len` (R28). -/
def setDmaLength (len : Word) (v : Record) : Record :=
  (v.setReg 19 (len.extractLsb' 0 8)).setReg 20 (len.extractLsb' 8 8)

/-- `src_lo = reg[22] :: reg[21]` (R29). -/
def srcLow (v : Record) : Word := v.reg 22 ++ v.reg 21

/-- A write of the low source word; register 23 is never written by a transfer (R29). -/
def setSrcLow (s : Word) (v : Record) : Record :=
  (v.setReg 21 (s.extractLsb' 0 8)).setReg 22 (s.extractLsb' 8 8)

/-- `src_full = reg[23][6:0] :: reg[22] :: reg[21]`, 23 bits (R29). -/
def srcFull (v : Record) : BitVec 23 := (v.reg 23).extractLsb' 0 7 ++ srcLow v

/-- `src_full << 1`, the 24-bit even byte address of a bus read (spec/42_dma.md R173). -/
def busAddress (v : Record) : BitVec 24 := srcFull v ++ 0#1

/-- The DMA type code `reg[23][7:6]` (R30). -/
def dmaTypeCode (v : Record) : BitVec 2 := (v.reg 23).extractLsb' 6 2

/-- The addressing-mode codes (spec/30_encoding.md R88). -/
def codeVramWrite : AccessMode := 0b0001#4
/-- CRAM_WRITE (R88). -/
def codeCramWrite : AccessMode := 0b0011#4
/-- VSRAM_WRITE (R88). -/
def codeVsramWrite : AccessMode := 0b0101#4
/-- VRAM_READ (R88). -/
def codeVramRead : AccessMode := 0b0000#4
/-- CRAM_READ (R88). -/
def codeCramRead : AccessMode := 0b1000#4
/-- VSRAM_READ (R88). -/
def codeVsramRead : AccessMode := 0b0100#4

/-- `target(m)`, the memory a write code names; a read or invalid code names none (spec/30_encoding.md R88). -/
def writeTargetOf (m : AccessMode) : Option Target :=
  if m = codeVramWrite then some .vram
  else if m = codeCramWrite then some .cram
  else if m = codeVsramWrite then some .vsram
  else none

/-- `m` is one of the three write codes (R88). -/
def isWriteCode (m : AccessMode) : Bool := (writeTargetOf m).isSome

/-- SelectMode(code, m): `none` is the error of row 4 (spec/42_dma.md R156, spec/30_encoding.md R91). -/
def selectMode (code : BitVec 2) (m : AccessMode) : Option DmaMode :=
  if code = 0b11#2 then some .vramCopy
  else if code = 0b10#2 ∧ m = codeVramWrite then some .vramFill
  else if (code = 0b00#2 ∨ code = 0b01#2) ∧ isWriteCode m = true then some .memToVram
  else none

/-- `cmd = (w1 << 16) | w2` (spec/30_encoding.md R86). -/
def commandOf (w1 w2 : Word) : Command := w1 ++ w2

/-- `CD = cmd[7:4] :: cmd[31:30]`, 6 bits (spec/30_encoding.md R87). -/
def commandCd (cmd : Command) : BitVec 6 := cmd.extractLsb' 4 4 ++ cmd.extractLsb' 30 2

/-- The addressing mode `CD[3:0]` of a command word (spec/30_encoding.md R88). -/
def commandMode (cmd : Command) : AccessMode := (commandCd cmd).extractLsb' 0 4

/-- `CD[5]`, the DMA request (spec/30_encoding.md R90). -/
def commandRequestsDma (cmd : Command) : Bool := (commandCd cmd).getLsbD 5

/-- `dest = (cmd & 0x3) << 14 | (cmd >> 16) & 0x3FFF` (spec/30_encoding.md R89). -/
def commandDest (cmd : Command) : Word :=
  (((cmd &&& 0x3#32) <<< 14) ||| ((cmd >>> 16) &&& 0x3FFF#32)).setWidth 16

/-- The entry in slot `i`; an index with no slot reads the empty entry, which no run reaches (log 11). -/
def Fifo.slotAt (f : Fifo) (i : Nat) : FifoEntry := f.slots.getD i { ramMode := 0#4, address := 0#16, data := 0#16 }

/-- The slot of the `k`-th oldest entry: the index wraps at `FIFO_CAPACITY` (spec/41_fifo.md R140). -/
def fifoIndex (capacity : Nat) (f : Fifo) (k : Nat) : Nat := (f.head + k) % capacity

end Sys2Proof.Machine
end

