-- ==== Sys2Proof/Machine/Flags.lean ====
section
/-! DEFINITION. Every flag computation: the five steps of ADVANCE_H on CounterState (spec/40_timing_counters.md R112
to R118), the primary level (spec/43_interrupts.md R191), the stall output (spec/10_state.md R37) and the blanking input of the
DMA slot (spec/44_tick_and_ports.md R221). -/

namespace Sys2Proof.Machine

open Sys2Proof

/-- The next value of a raster counter: increment under the mask 0x1FF, then the jump (R113, R115). -/
def nextCounter (trigger total : Nat) (c : Counter) : Counter :=
  let n := c + 1#9
  if n.toNat = trigger then BitVec.ofNat 9 (jumpTarget trigger total) else n

/-- Step 1, the horizontal increment and jump (R113). -/
def stepH (p : TimingParams) (cs : CounterState) : CounterState :=
  { cs with hCounter := nextCounter p.hJumpTrigger p.hTotal cs.hCounter }

/-- Step 2, the horizontal blank flag: set, then cleared, at the two thresholds (R114). -/
def stepHBlank (p : TimingParams) (cs : CounterState) : CounterState :=
  let set := if cs.hCounter.toNat = p.hBlankSet then true else cs.hBlankSet
  { cs with hBlankSet := if cs.hCounter.toNat = p.hBlankClear then false else set }

/-- Step 3, the vertical step and the vertical blank flag (R115). -/
def stepV (p : TimingParams) (cs : CounterState) : CounterState :=
  if cs.hCounter.toNat = p.vCounterIncrementOn then
    let v := nextCounter p.vJumpTrigger p.vTotal cs.vCounter
    let set := if v.toNat = p.vBlankSet then true else cs.vBlankSet
    { cs with vCounter := v, vBlankSet := if v.toNat = counterLimit then false else set }
  else cs

/-- Step 4a, the line countdown (R116): it falls whatever its value is, so a restored -1 becomes -2 (log 13). -/
def countdown (p : TimingParams) (cs : CounterState) : BitVec 32 :=
  if cs.vCounter.toNat ≤ p.vBlankSet then cs.hLinePassed - 1#32 else cs.hLinePassed

/-- HINT fires when the countdown has reached -1 on a line past line 0 (R117). -/
def hintFires (cs : CounterState) (passed : BitVec 32) : Bool :=
  decide (0 < cs.vCounter.toNat) && decide (passed = -1#32)

/-- Step 4, the countdown, then the HINT decision, then the reload (R116, R117). -/
def stepHint (p : TimingParams) (reload : Byte) (cs : CounterState) : CounterState :=
  if cs.hCounter.toNat = p.vCounterIncrementOn + 2 then
    let passed := countdown p cs
    let fired := hintFires cs passed
    { cs with
      hIntPending := cs.hIntPending || fired
      hLinePassed :=
        if cs.vCounter = 0#9 ∨ p.vBlankSet < cs.vCounter.toNat ∨ fired = true then reload.setWidth 32 else passed }
  else cs

/-- Step 5, the VINT decision (R118). -/
def stepVint (p : TimingParams) (cs : CounterState) : CounterState :=
  if cs.hCounter = 2#9 ∧ cs.vCounter.toNat = p.vBlankSet then { cs with vIntPending := true } else cs

/-- ADVANCE_H on CounterState: the five steps in their order (R112). -/
def advanceCounters (p : TimingParams) (reload : Byte) (cs : CounterState) : CounterState :=
  stepVint p (stepHint p reload (stepV p (stepHBlank p (stepH p cs))))

/-- CounterState after a reset (R111). -/
def resetCounterState (reload : Byte) : CounterState :=
  { hCounter := 0#9, vCounter := 0#9, hBlankSet := false, vBlankSet := false, vIntPending := false,
    hIntPending := false, hLinePassed := reload.setWidth 32 }

/-- PRIMARY_LEVEL: VINT before HINT, 0 for none (spec/43_interrupts.md R191). -/
def levelNow (v : Record) : Byte :=
  if (v.cs.vIntPending && vie v) = true then vintLevel
  else if (v.cs.hIntPending && hie v) = true then hintLevel
  else 0#8

/-- A VramFill whose data-port write has not arrived (spec/42_dma.md R161, R178). -/
def fillArmed (dma : Option Transfer) : Bool :=
  match dma with
  | some t => decide (t.mode = .vramFill) && !t.fillStarted
  | none => false

/-- `cpu_stall = dma_busy and not (dma.mode == VramFill and not dma.fill_started)` (spec/10_state.md R37). -/
def cpuStall (v : Record) : Bool := v.dmaBusy && !fillArmed v.dma

/-- `is_blanking() = cs.v_blank_set or not DISP` (spec/44_tick_and_ports.md R221). -/
def isBlanking (v : Record) : Bool := v.cs.vBlankSet || !disp v

/-- The coprocessor channel's trigger: `onT = (cs.v_counter == cop_trigger_line)` (spec/43_interrupts.md R195). -/
def onTriggerLine (v : Record) : Bool := decide (v.cs.vCounter = v.copTriggerLine)

end Sys2Proof.Machine
end

