-- ==== Sys2Proof/Machine/Memory.lean ====
section
/-! DEFINITION. The video memories: reading and writing one byte, the canonical form, and the access primitives of
spec/20_memory.md (R61 to R67). -/

namespace Sys2Proof.Machine

open Sys2Proof

/-- The byte a list of cells holds at an address. -/
def findCell (a : Nat) : List Host.Cell → Option Byte
  | [] => none
  | (k, x) :: rest => if k = a then some x else findCell a rest

/-- The cells with the byte at `a` set, in rising order. -/
def insertCell (a : Nat) (b : Byte) : List Host.Cell → List Host.Cell
  | [] => [(a, b)]
  | (k, x) :: rest =>
    if a < k then (a, b) :: (k, x) :: rest
    else if a = k then (a, b) :: rest
    else (k, x) :: insertCell a b rest

/-- What an address that no cell lists reads as: the free byte of the memory's draw (log 4). -/
def Memory.unlisted (m : Memory) (a : Nat) : Byte := Config.freeByte m.draw a

/-- One byte read. -/
def Memory.read (m : Memory) (a : Nat) : Byte :=
  match findCell a m.cells with
  | some b => b
  | none => m.unlisted a

/-- One byte written. -/
def Memory.write (m : Memory) (a : Nat) (b : Byte) : Memory := { m with cells := insertCell a b m.cells }

/-- The addresses of the cells rise strictly from `lo` and stay below `size`. -/
def cellsRise (size lo : Nat) : List Host.Cell → Bool
  | [] => true
  | (a, _) :: rest => decide (lo ≤ a) && decide (a < size) && cellsRise size (a + 1) rest

/-- The canonical form of a memory of `size` bytes: strictly rising addresses inside it. An unlisted address holds a
free byte, no byte of the model, so no cell can repeat it (log 4). -/
def Memory.wf (size : Nat) (m : Memory) : Bool := cellsRise size 0 m.cells

/-- A memory whose content is the free draw number `draw`. -/
def Memory.fresh (draw : Nat) : Memory := { draw := draw, cells := [] }

/-- `VramRead(a)`; the address is 16 bits, so the mask is in its type (R61). -/
def vramRead (a : Word) (v : Record) : Byte := v.vram.read a.toNat

/-- `VramWrite(a, b)` (R61). -/
def vramWrite (a : Word) (b : Byte) (v : Record) : Record := { v with vram := v.vram.write a.toNat b }

/-- `VramWriteWord(a, w)`: the low byte at `a ^ 1`, then the high byte at `a` (R62). -/
def vramWriteWord (a w : Word) (v : Record) : Record :=
  vramWrite a (w.extractLsb' 8 8) (vramWrite (a ^^^ 1#16) (w.extractLsb' 0 8) v)

/-- A word laid down high byte first at an even offset (R66). -/
def writePair (off : Nat) (w : Word) (m : Memory) : Memory :=
  (m.write off (w.extractLsb' 8 8)).write (off + 1) (w.extractLsb' 0 8)

/-- `a & (CRAM_SIZE - 1) & ~1` (R66). -/
def cramOffset (cfg : Config) (a : Word) : Nat := (a &&& BitVec.ofNat 16 (cfg.cramSize - 1) &&& ~~~1#16).toNat

/-- `CramWriteWord(a, w)` (R66). -/
def cramWriteWord (cfg : Config) (a w : Word) (v : Record) : Record :=
  { v with cram := writePair (cramOffset cfg a) w v.cram }

/-- `a & 0x7E` (R66). -/
def vsramOffset (a : Word) : Nat := (a &&& 0x7E#16).toNat

/-- `VsramWriteWord(a, w)`: dropped at or beyond VSRAM_SIZE (R66). -/
def vsramWriteWord (cfg : Config) (a w : Word) (v : Record) : Record :=
  if cfg.vsramSize ≤ vsramOffset a then v else { v with vsram := writePair (vsramOffset a) w v.vsram }

/-- `WriteTarget(t, a, w)` (R67). -/
def writeTarget (cfg : Config) (t : Target) (a w : Word) (v : Record) : Record :=
  match t with
  | .vram => vramWriteWord a w v
  | .cram => cramWriteWord cfg a w v
  | .vsram => vsramWriteWord cfg a w v

end Sys2Proof.Machine
end

