-- ==== Sys2Proof/Machine/ResetRecord.lean ====
section
/-! DEFINITION. The reset value of every state element (spec/10_state.md R45, spec/70_reset_and_hazards.md R275). -/

namespace Sys2Proof.Machine

open Sys2Proof

/-- A FIFO slot that nothing has written. Its content is unspecified and unread; DESIGN CHOICE: zeros (log 10). -/
def emptyEntry : FifoEntry := { ramMode := 0#4, address := 0#16, data := 0#16 }

/-- The mode that REG_INIT and REGION select (R275). -/
def resetMode (cfg : Config) : VideoMode := modeFromBits cfg.region cfg.regInit[1] cfg.regInit[12]

/-- The record after a system reset, with `p` the timing record of the mode reset selects. The three memories' content
is the free draws `draw`, `draw + 1` and `draw + 2` (R45, R275; log 4). -/
def resetRecord (cfg : Config) (p : TimingParams) (draw : Nat) : Record :=
  { curMode := resetMode cfg
    cs := resetCounterState cfg.regInit[10]
    regs := cfg.regInit
    fifo := { slots := List.replicate cfg.fifoCapacity emptyEntry, head := 0, count := 0 }
    dma := none
    dmaBusy := false
    prim := .none
    cop := .none
    frameExpired := false
    copTriggerLine := BitVec.ofNat 9 p.vBlankSet
    vram := Memory.fresh draw
    cram := Memory.fresh (draw + 1)
    vsram := Memory.fresh (draw + 2)
    log := [] }

end Sys2Proof.Machine
end

