-- ==== Sys2Proof/Syntax.lean ====
section
/-! DEFINITION. The operations of the core's interface, one constructor per row of spec/opcode_table.json. -/

namespace Sys2Proof

open Machine

/-- The operations (spec/30_encoding.md R93), the pseudo-operation TICKS (R98), the two forms of a command word
(R87, R90) and the rows of the DMA mode selection (R91). -/
inductive Instr where
  /-- SET_MODE (R110). -/
  | setMode (mode : VideoMode)
  /-- RESET_COUNTERS (R111). -/
  | resetCounters
  /-- ADVANCE_H (R112). -/
  | advanceH
  /-- READ_COUNTERS (R119). -/
  | readCounters
  /-- FIFO_PUSH (R140). -/
  | fifoPush (ramMode : AccessMode) (addr data : Word)
  /-- FIFO_POP (R141). -/
  | fifoPop
  /-- FIFO_IS_EMPTY (R142). -/
  | fifoIsEmpty
  /-- FIFO_IS_FULL (R143). -/
  | fifoIsFull
  /-- FIFO_DRAIN_ONE (R145). -/
  | fifoDrainOne
  /-- DMA_SETUP (R155). -/
  | dmaSetup (vramMode : AccessMode) (cmd : Command) (m1 : Bool)
  /-- DMA_FILL_START (R160). -/
  | dmaFillStart (data : Word)
  /-- DO_DMA (R162). -/
  | doDma (mode : VideoMode) (isBlanking : Bool)
  /-- DECREASE_LENGTH (R168). -/
  | decreaseLength (len : Word)
  /-- POLL_PRIMARY (R190). -/
  | pollPrimary (accept stopped : Bool)
  /-- ACK_PRIMARY (R192). -/
  | ackPrimary (level : Byte)
  /-- POLL_COPROCESSOR (R195). -/
  | pollCoprocessor (accept stopped copIntEnable : Bool)
  /-- NEW_FRAME (R197). -/
  | newFrame
  /-- PRIMARY_LEVEL (R191). -/
  | primaryLevel
  /-- TICK (R220). -/
  | tick (accept0 stopped0 accept1 stopped1 copIntEnable : Bool)
  /-- REG_WRITE (R224). -/
  | regWrite (index value : Byte)
  /-- REG_READ (R223). -/
  | regRead (index : Byte)
  /-- CONTROL_WRITE_PAIR (R225). -/
  | controlWritePair (w1 w2 : Word)
  /-- DATA_WRITE (R226). -/
  | dataWrite (ramMode : AccessMode) (addr data : Word)
  /-- SNAPSHOT (R232). -/
  | snapshot
  /-- RESTORE (R233). -/
  | restore (record : Record)
  /-- RESET_SYSTEM (R275). -/
  | resetSystem
  /-- TICKS: `n` copies of TICK (R98). -/
  | ticks (n : Nat) (accept0 stopped0 accept1 stopped1 copIntEnable : Bool)
  /-- CMD_DMA_REQUEST: a command word with `CD[5] = 1` (R87, R90): `CD[4:0]`, `A[15:0]` and the ignored bits 15:8, 3:2. -/
  | cmdDmaRequest (cd : BitVec 5) (a : Word) (ignoredHi : Byte) (ignoredLo : BitVec 2)
  /-- CMD_ADDRESS_ONLY: a command word with `CD[5] = 0` (R87, R90). -/
  | cmdAddressOnly (cd : BitVec 5) (a : Word) (ignoredHi : Byte) (ignoredLo : BitVec 2)
  /-- DMA_COPY: type code `0b11`, any addressing mode (R91 row 1). -/
  | dmaCopy (m : AccessMode)
  /-- DMA_FILL: type code `0b10` with VRAM_WRITE (R91 row 2). -/
  | dmaFill
  /-- DMA_MEM2VRAM_VRAM: type code `0b0x` with VRAM_WRITE (R91 row 3); `codeLow` is the free bit. -/
  | dmaMem2VramVram (codeLow : Bool)
  /-- DMA_MEM2VRAM_CRAM: type code `0b0x` with CRAM_WRITE (R91 row 3). -/
  | dmaMem2VramCram (codeLow : Bool)
  /-- DMA_MEM2VRAM_VSRAM: type code `0b0x` with VSRAM_WRITE (R91 row 3). -/
  | dmaMem2VramVsram (codeLow : Bool)
  /-- DMA_CONFIG_ERROR: a type code and addressing mode that no earlier row takes (R91 row 4). -/
  | dmaConfigError (code : BitVec 2) (m : AccessMode)
deriving DecidableEq, Repr

end Sys2Proof
end

