-- ==== Sys2Proof/Machine/State.lean ====
section
/-! DEFINITION. The state of the model: the spec's record, the configuration, what the last operation returned, the
calls made to the CPUs, the counter of free draws and the callers' requests. Also the reasons a step can stop. -/

namespace Sys2Proof.Machine

open Sys2Proof

/-- The model's faults (spec/60_exceptions.md R247): each is a broken duty of the caller, found before any state is
written. All are safe: the source gives the call no behaviour. -/
inductive Fault where
  /-- `F_STALLED_ACCESS`: REG_WRITE, CONTROL_WRITE_PAIR, DATA_WRITE (and a command form) while `cpu_stall` (R230). Safe. -/
  | stalledAccess
  /-- `F_SETUP_WHILE_BUSY`: a DMA setup, or a configuration-error row, while a transfer exists (R155, R159). Safe. -/
  | setupWhileBusy
  /-- `F_BAD_REG_INDEX`: REG_READ, REG_WRITE with an index of 24 or more (R223, R224). Safe. -/
  | badRegIndex
  /-- `F_BAD_RAM_MODE`: FIFO_PUSH, DATA_WRITE with a non-write code (R140); a drain of such an entry, which no run
  reaches (log 11). Safe. -/
  | badRamMode
  /-- `F_BAD_RESTORE`: RESTORE of a record that breaks an invariant (R233; log 12, log 24). Safe. -/
  | badRestore
  /-- `F_NO_FILL_TRANSFER`: DMA_FILL_START with no VramFill waiting for data (R160). Safe. -/
  | noFillTransfer
deriving DecidableEq, Repr

/-- The model's refusals (spec/60_exceptions.md R248). All are safe: the model gives the call no meaning. -/
inductive Refusal where
  /-- `X_MODE_UNSUPPORTED`: SET_MODE, a mode-selecting REG_WRITE or RESET_SYSTEM to a mode with no well-formed record
  (R110, R224, R275), or an operation that needs the record of a current mode that has none (log 9). Safe. -/
  | modeUnsupported
  /-- `X_BAD_SELECTOR`: a byte program's decoder (R96). Safe. -/
  | badSelector
  /-- `X_BAD_OPERAND`: a byte program's decoder, or a direct call that is not well-formed (R96). Safe. -/
  | badOperand
  /-- SNAPSHOT or RESTORE in a byte program, raised by the decoder (R94; log 15). Safe. -/
  | notSerialized
  /-- A byte program that ends inside an operation, raised by the decoder (log 16). Safe. -/
  | truncated
  /-- An instruction without a meaning, by its mnemonic: raised by no arm of `exec`. Safe. -/
  | notModelled (mnemonic : String)
deriving DecidableEq, Repr

/-- What an operation returns to its caller (spec/30_encoding.md R93, R99; log 6). -/
inductive Result where
  /-- The operation has no result. -/
  | noResult
  /-- `h`, of ADVANCE_H: 16 bits, at most 0x1FF. -/
  | counter (h : Word)
  /-- The CounterState record, of READ_COUNTERS. -/
  | counters (cs : CounterState)
  /-- `Ok`. -/
  | ok
  /-- `Full`. -/
  | full
  /-- `None`: nothing popped, or no transfer started. -/
  | absent
  /-- `Some(entry)`, of FIFO_POP. -/
  | entry (e : FifoEntry)
  /-- A Boolean. -/
  | bool (b : Bool)
  /-- `Some(mode)`, of a DMA setup. -/
  | dmaMode (m : DmaMode)
  /-- `len'`, of DECREASE_LENGTH. -/
  | length (len : Word)
  /-- The level of PRIMARY_LEVEL. -/
  | level (l : Byte)
  /-- The value of REG_READ. -/
  | register (b : Byte)
  /-- The state record, of SNAPSHOT. -/
  | record (r : Record)
deriving DecidableEq, Repr

/-- A call the core makes to a CPU (spec/00_scope.md R11). The CPU's answer is an operand of the poll (log 7). -/
inductive CpuCall where
  /-- `CPU0.raise_interrupt(level)`. -/
  | raiseInterrupt (level : Byte)
  /-- `CPU1.interrupt(assert)`. -/
  | interrupt (assert : Bool)
deriving DecidableEq, Repr

/-- A request of a caller (log 1): the rest of a byte program, or a direct call of the interface. -/
inductive Request where
  | bytes (program : List Byte)
  | call (i : Instr)
deriving DecidableEq, Repr

/-- The state of the model. `vdp` is the spec's own state (spec/44_tick_and_ports.md R232). `cfg` is the configuration,
which no step changes (log 2). The rest are the model's own: `result` (log 6), `cpuCalls`, oldest first (log 7), `draws`
(log 8) and `inbox`, the next request first (log 1). -/
structure State where
  cfg : Config
  vdp : Record
  result : Result
  cpuCalls : List CpuCall
  draws : Nat
  inbox : List Request
deriving DecidableEq, Repr

/-- The machine right after construction, which is a system reset (spec/70_reset_and_hazards.md R275, R276), under the
standard configuration (log 2), with no request placed (log 1). -/
def State.reset : State :=
  { cfg := standardConfig
    vdp := resetRecord standardConfig (h32Params 313 0x103 0xE0) 0
    result := .noResult
    cpuCalls := []
    draws := 3
    inbox := [] }

end Sys2Proof.Machine
end

