-- ==== Sys2Proof/Machine/Ops.lean ====
section
/-! DEFINITION. The named operations over the state that every family is written in: the updates of a State and of
its Record, sequencing of outcomes, the log, the calls to the CPUs, and the codes of every outcome (spec/30_encoding.md
R99). The core raises no exception (spec/60_exceptions.md R245) and enters no handler: trap entry and return are the
CPUs' (R254, R255), so there is no exception entry to share here. -/

namespace Sys2Proof.Machine

open Sys2Proof

/-- The outcome of an operation. -/
abbrev Out := Host.Outcome State Fault Refusal

/-- Go on from a next state; a fault or a refusal ends the operation. -/
def andThen (o : Out) (f : State → Out) : Out :=
  match o with
  | .next s => f s
  | .fault r => .fault r
  | .refused r => .refused r

/-- Replace the record. -/
def State.setVdp (s : State) (v : Record) : State := { s with vdp := v }

/-- Return a result to the caller (log 6). -/
def State.setResult (s : State) (r : Result) : State := { s with result := r }

/-- Record a call made to a CPU (log 7). -/
def State.addCall (s : State) (c : CpuCall) : State := { s with cpuCalls := s.cpuCalls ++ [c] }

/-- Set the counter of free draws (log 8). -/
def State.setDraws (s : State) (n : Nat) : State := { s with draws := n }

/-- Replace the requests (log 1). -/
def State.setInbox (s : State) (q : List Request) : State := { s with inbox := q }

/-- Replace CounterState. -/
def Record.setCs (v : Record) (cs : CounterState) : Record := { v with cs := cs }

/-- Replace the FIFO. -/
def Record.setFifo (v : Record) (f : Fifo) : Record := { v with fifo := f }

/-- Replace the transfer and the DMA-busy flag. -/
def Record.setDma (v : Record) (t : Option Transfer) (busy : Bool) : Record := { v with dma := t, dmaBusy := busy }

/-- Set the primary channel's state. -/
def Record.setPrim (v : Record) (c : Channel) : Record := { v with prim := c }

/-- Set the coprocessor channel's state. -/
def Record.setCop (v : Record) (c : Channel) : Record := { v with cop := c }

/-- `log(kind)`: append a record to the log (spec/00_scope.md R11). -/
def Record.addLog (v : Record) (k : LogKind) : Record := { v with log := v.log ++ [k] }

/-- `P = TIMING(cur_mode)` (spec/10_state.md R21). -/
def paramsOf (s : State) : Option TimingParams := timingOf s.cfg s.vdp.curMode

/-- Run an operation that reads P. A current mode without a well-formed record is refused (spec/10_state.md R24); no run
reaches one (log 9). -/
def withParams (s : State) (f : TimingParams → Out) : Out :=
  match paramsOf s with
  | some p => f p
  | none => .refused .modeUnsupported

/-- The code of a log record (R99). -/
def logCode (k : LogKind) : Nat :=
  match k with
  | .fifoFull => 0x10
  | .dmaDeclined => 0x11
  | .dmaConfigError => 0x12
  | .ackIgnored => 0x13

/-- The code of a fault (R99). -/
def faultCode (f : Fault) : Nat :=
  match f with
  | .stalledAccess => 0x20
  | .setupWhileBusy => 0x21
  | .badRegIndex => 0x22
  | .badRamMode => 0x23
  | .badRestore => 0x24
  | .noFillTransfer => 0x25

/-- The code of a refusal, for the three that R99 gives one. -/
def refusalCode (r : Refusal) : Option Nat :=
  match r with
  | .modeUnsupported => some 0x30
  | .badSelector => some 0x31
  | .badOperand => some 0x32
  | .notSerialized | .truncated => none
  | _ => none

/-- The code of a result, for the three that R99 gives one. -/
def resultCode (r : Result) : Option Nat :=
  match r with
  | .ok => some 0
  | .full => some 1
  | .absent => some 2
  | _ => none

end Sys2Proof.Machine
end

