-- ==== Sys2Proof/Machine/Arbiter.lean ====
section
/-! DEFINITION. The interrupt arbiter: POLL_PRIMARY, ACK_PRIMARY, POLL_COPROCESSOR, NEW_FRAME, PRIMARY_LEVEL
(spec/43_interrupts.md). -/

namespace Sys2Proof.Machine

open Sys2Proof

/-- Set the primary channel. -/
def setPrim (c : Channel) (s : State) : State := s.setVdp (s.vdp.setPrim c)

/-- Set the coprocessor channel. -/
def setCop (c : Channel) (s : State) : State := s.setVdp (s.vdp.setCop c)

/-- One poll of the primary channel: at most one transition (R190, R194). `acc` is what `raise_interrupt(L)` answers. -/
def pollPrimary (acc stp : Bool) (s : State) : State :=
  let level := levelNow s.vdp
  match s.vdp.prim with
  | .none => if level = 0#8 then s else setPrim .pending s
  | .pending =>
    if level = 0#8 then setPrim .none s
    else if stp then s
    else if acc then setPrim .asserted (s.addCall (.raiseInterrupt level))
    else s.addCall (.raiseInterrupt level)
  | .asserted => s
  | .acked => setPrim .none s

/-- The record after the coprocessor's trigger: PENDING, and fired this frame (R195). -/
def copFire (v : Record) : Record := { v.setCop .pending with frameExpired := true }

/-- One poll of the coprocessor channel: at most one transition (R195, R196). `acc` is what `interrupt(true)` answers. -/
def pollCoprocessor (acc stp en : Bool) (s : State) : State :=
  match s.vdp.cop with
  | .none => if onTriggerLine s.vdp && !s.vdp.frameExpired && en then s.setVdp (copFire s.vdp) else s
  | .pending =>
    if onTriggerLine s.vdp = false then setCop .none s
    else if stp then s
    else if acc then setCop .asserted (s.addCall (.interrupt true))
    else s.addCall (.interrupt true)
  | .asserted => if onTriggerLine s.vdp then s else setCop .acked (s.addCall (.interrupt false))
  | .acked => setCop .none s

/-- The record after an ack whose level names a flag: an ASSERTED channel goes to ACKED (R192). -/
def ackChannel (v : Record) : Record := if v.prim = .asserted then v.setPrim .acked else v

/-- `ack(level)` on the record (R192). -/
def ackPrimary (l : Byte) (v : Record) : Record :=
  if l = vintLevel then ackChannel (v.setCs { v.cs with vIntPending := false })
  else if l = hintLevel then ackChannel (v.setCs { v.cs with hIntPending := false })
  else v.addLog .ackIgnored

/-- `new_frame()` on the record (R197). -/
def newFrame (p : TimingParams) (v : Record) : Record :=
  { v with frameExpired := false, copTriggerLine := BitVec.ofNat 9 p.vBlankSet }

/-- POLL_PRIMARY (R190). -/
def execPollPrimary (acc stp : Bool) (s : State) : Out := .next ((pollPrimary acc stp s).setResult .noResult)

/-- ACK_PRIMARY (R192). -/
def execAckPrimary (l : Byte) (s : State) : Out := .next ((s.setVdp (ackPrimary l s.vdp)).setResult .noResult)

/-- POLL_COPROCESSOR (R195). -/
def execPollCoprocessor (acc stp en : Bool) (s : State) : Out :=
  .next ((pollCoprocessor acc stp en s).setResult .noResult)

/-- NEW_FRAME (R197). -/
def execNewFrame (s : State) : Out :=
  withParams s fun p => .next ((s.setVdp (newFrame p s.vdp)).setResult .noResult)

/-- PRIMARY_LEVEL (R191). -/
def execPrimaryLevel (s : State) : Out := .next (s.setResult (.level (levelNow s.vdp)))

end Sys2Proof.Machine
end

