-- ==== Sys2Proof/Machine/Dma.lean ====
section
/-! DEFINITION. The DMA engine: DMA_SETUP, DMA_FILL_START, DO_DMA, DECREASE_LENGTH and the unit primitives
(spec/42_dma.md). -/

namespace Sys2Proof.Machine

open Sys2Proof

/-- `DECREASE_LENGTH(len) = max(0, (len - 1) & (VRAM_SIZE - 1))`: 16-bit wrap, the clamp never applies (R168). -/
def decreaseLength (len : Word) : Word := len - 1#16

/-- The transfer a successful setup creates (R157): a fill or a copy always writes VRAM. -/
def newTransfer (mode : DmaMode) (m : AccessMode) (cmd : Command) : Transfer :=
  { mode := mode
    destAddress := commandDest cmd
    destRamType := match mode with
      | .memToVram => (writeTargetOf m).getD .vram
      | .vramFill => .vram
      | .vramCopy => .vram
    fillData := none
    fillStarted := false }

/-- `DmaStart(mode, m, cmd)` (R157). -/
def dmaStart (mode : DmaMode) (m : AccessMode) (cmd : Command) (s : State) : State :=
  (s.setVdp (s.vdp.setDma (some (newTransfer mode m cmd)) true)).setResult (.dmaMode mode)

/-- `DmaError()`: logged, the pending mode cleared (R158). -/
def dmaError (s : State) : State :=
  (s.setVdp ((s.vdp.addLog .dmaConfigError).setDma none false)).setResult .absent

/-- `setup(vram_mode, command_word, m1_enabled)`: busy, then declined, then the mode selection (R155,
spec/60_exceptions.md R249). -/
def dmaSetup (m : AccessMode) (cmd : Command) (m1 : Bool) (s : State) : Out :=
  if s.vdp.dma.isSome then .fault .setupWhileBusy
  else if m1 = false then .next ((s.setVdp (s.vdp.addLog .dmaDeclined)).setResult .absent)
  else
    match selectMode (dmaTypeCode s.vdp) m with
    | some mode => .next (dmaStart mode m cmd s)
    | none => .next (dmaError s)

/-- The data-port write that starts a fill: one byte at `dest ^ 1`, then the fill word is held (R160). -/
def dmaFillStart (d : Word) (s : State) : Out :=
  match s.vdp.dma with
  | some t =>
    if fillArmed (some t) then
      let v := vramWrite (t.destAddress ^^^ 1#16) (d.extractLsb' 8 8) s.vdp
      .next (s.setVdp (v.setDma (some { t with fillData := some d, fillStarted := true }) v.dmaBusy))
    else .fault .noFillTransfer
  | none => .fault .noFillTransfer

/-- The byte every fill unit writes, `fill_data[7:0]` (R171). A started fill that carries no fill word, which only a
restored record can hold, writes a free byte (log 18). -/
def fillByte (t : Transfer) (s : State) : Byte :=
  match t.fillData with
  | some d => d.extractLsb' 0 8
  | none => Config.freeByte s.draws t.destAddress.toNat

/-- `FillUnit()` (R171); the counter of free draws moves on where the byte was one (log 18). -/
def fillUnit (t : Transfer) (s : State) : State :=
  (s.setVdp (vramWrite t.destAddress (fillByte t s) s.vdp)).setDraws
    (if t.fillData.isSome then s.draws else s.draws + 1)

/-- `CopyUnit()`: one byte from `reg[22] :: reg[21]` to the destination (R172). -/
def copyUnit (t : Transfer) (s : State) : State :=
  s.setVdp (vramWrite t.destAddress (vramRead (srcLow s.vdp) s.vdp) s.vdp)

/-- `MemUnit()`: one word from the external bus to the destination (R173); the word is a free value (log 5). -/
def memUnit (t : Transfer) (s : State) : State :=
  (s.setVdp (writeTarget s.cfg t.destRamType t.destAddress (Config.busRead16 s.draws (busAddress s.vdp)) s.vdp)).setDraws
    (s.draws + 1)

/-- The data movement of a unit (R164). -/
def dmaMove (t : Transfer) (s : State) : State :=
  match t.mode with
  | .vramFill => fillUnit t s
  | .vramCopy => copyUnit t s
  | .memToVram => memUnit t s

/-- `AdvanceDest()`: the destination plus `AUTO_INC`, 16 bits (R170). -/
def advanceDest (v : Record) (t : Transfer) : Transfer :=
  { t with destAddress := t.destAddress + (autoInc v).setWidth 16 }

/-- `AdvanceSource()`: the low word plus 1, 16 bits, register 23 untouched (R169). -/
def advanceSource (v : Record) : Record := setSrcLow (srcLow v + 1#16) v

/-- One unit without its completion test: the data movement, the destination advance, the source advance, the length
decrement and its write-back (R164). -/
def dmaUnit (t : Transfer) (s : State) : State :=
  let s1 := dmaMove t s
  let v := advanceSource (s1.vdp.setDma (some (advanceDest s1.vdp t)) s1.vdp.dmaBusy)
  s1.setVdp (setDmaLength (decreaseLength (dmaLength v)) v)

/-- `Complete()` (R163). -/
def dmaComplete (s : State) : State := s.setVdp (s.vdp.setDma none false)

/-- At most `n` units of the transfer the state holds; the length reaching 0 completes it (R162, R164). -/
def dmaRun (n : Nat) (s : State) : State :=
  match n with
  | 0 => s.setResult (.bool false)
  | k + 1 =>
    match s.vdp.dma with
    | none => s.setResult (.bool true)
    | some t =>
      let s1 := dmaUnit t s
      if dmaLength s1.vdp = 0#16 then (dmaComplete s1).setResult (.bool true) else dmaRun k s1

/-- `doDma(video_mode, is_blanking)`: one scanline's worth of units (R162). With no transfer it returns true (decision
D38); an armed fill runs no unit (R161). -/
def doDma (h : HRes) (blanking : Bool) (s : State) : State :=
  match s.vdp.dma with
  | none => s.setResult (.bool true)
  | some t =>
    if fillArmed (some t) then s.setResult (.bool false)
    else dmaRun (unitsPerCall s.cfg h blanking t.mode) s

/-- DMA_SETUP (R155). -/
def execDmaSetup (m : AccessMode) (cmd : Command) (m1 : Bool) (s : State) : Out := dmaSetup m cmd m1 s

/-- DMA_FILL_START (R160). -/
def execDmaFillStart (d : Word) (s : State) : Out := andThen (dmaFillStart d s) fun t => .next (t.setResult .noResult)

/-- DO_DMA: only the `h_res` of the mode is read (R162). -/
def execDoDma (m : VideoMode) (blanking : Bool) (s : State) : Out := .next (doDma m.hRes blanking s)

/-- DECREASE_LENGTH (R168). -/
def execDecreaseLength (len : Word) (s : State) : Out := .next (s.setResult (.length (decreaseLength len)))

end Sys2Proof.Machine
end

