-- ==== Sys2Proof/Machine/FifoQueue.lean ====
section
/-! DEFINITION. The FIFO queue: FIFO_PUSH, FIFO_POP, FIFO_IS_EMPTY, FIFO_IS_FULL, FIFO_DRAIN_ONE (spec/41_fifo.md). -/

namespace Sys2Proof.Machine

open Sys2Proof

/-- `fifo.count >= FIFO_FULL_THRESHOLD` (R143). -/
def fifoFull (cfg : Config) (f : Fifo) : Bool := decide (cfg.fifoThreshold ≤ f.count)

/-- The queue with an entry put behind the newest (R140). -/
def fifoAppend (cfg : Config) (e : FifoEntry) (f : Fifo) : Fifo :=
  { f with slots := f.slots.set (fifoIndex cfg.fifoCapacity f f.count) e, count := f.count + 1 }

/-- The queue without its oldest entry (R141). -/
def fifoDrop (cfg : Config) (f : Fifo) : Fifo :=
  { f with head := (f.head + 1) % cfg.fifoCapacity, count := f.count - 1 }

/-- `push(mode, addr_reg, data)` (R140). The mode check comes before the full test (spec/60_exceptions.md R249). -/
def fifoPush (m : AccessMode) (a d : Word) (s : State) : Out :=
  if isWriteCode m = false then .fault .badRamMode
  else if fifoFull s.cfg s.vdp.fifo then .next ((s.setVdp (s.vdp.addLog .fifoFull)).setResult .full)
  else
    let e : FifoEntry := { ramMode := m, address := a, data := d }
    .next ((s.setVdp (s.vdp.setFifo (fifoAppend s.cfg e s.vdp.fifo))).setResult .ok)

/-- `FIFO_DRAIN_ONE`: the gate (R146), then the oldest entry to its video memory (R145). -/
def fifoDrainOne (s : State) : Out :=
  if s.vdp.dma.isSome then .next (s.setResult (.bool false))
  else if s.vdp.fifo.count = 0 then .next (s.setResult (.bool false))
  else
    let e := s.vdp.fifo.slotAt s.vdp.fifo.head
    match writeTargetOf e.ramMode with
    | some t =>
      let popped := s.vdp.setFifo (fifoDrop s.cfg s.vdp.fifo)
      .next ((s.setVdp (writeTarget s.cfg t e.address e.data popped)).setResult (.bool true))
    | none => .fault .badRamMode

/-- FIFO_PUSH (R140). -/
def execFifoPush (m : AccessMode) (a d : Word) (s : State) : Out := fifoPush m a d s

/-- FIFO_POP (R141). -/
def execFifoPop (s : State) : Out :=
  if s.vdp.fifo.count = 0 then .next (s.setResult .absent)
  else
    let e := s.vdp.fifo.slotAt s.vdp.fifo.head
    .next ((s.setVdp (s.vdp.setFifo (fifoDrop s.cfg s.vdp.fifo))).setResult (.entry e))

/-- FIFO_IS_EMPTY (R142). -/
def execFifoIsEmpty (s : State) : Out := .next (s.setResult (.bool (decide (s.vdp.fifo.count = 0))))

/-- FIFO_IS_FULL (R143). -/
def execFifoIsFull (s : State) : Out := .next (s.setResult (.bool (fifoFull s.cfg s.vdp.fifo)))

/-- FIFO_DRAIN_ONE (R145). -/
def execFifoDrainOne (s : State) : Out := fifoDrainOne s

end Sys2Proof.Machine
end

