-- ==== Sys2Proof/WellFormed.lean ====
section
/-! DEFINITION. Which terms of `Instr` spell an operation. The types of the operands carry every other condition of
spec/30_encoding.md R92 and R95; one is left: a DMA_CONFIG_ERROR row is a pair that no earlier selection row takes (R91). -/

namespace Sys2Proof

open Machine

/-- `i` spells an operation or a row of the table. -/
def Instr.wf (i : Instr) : Bool :=
  match i with
  | .setMode _ | .resetCounters | .advanceH | .readCounters => true
  | .fifoPush _ _ _ | .fifoPop | .fifoIsEmpty | .fifoIsFull | .fifoDrainOne => true
  | .dmaSetup _ _ _ | .dmaFillStart _ | .doDma _ _ | .decreaseLength _ => true
  | .pollPrimary _ _ | .ackPrimary _ | .pollCoprocessor _ _ _ | .newFrame | .primaryLevel => true
  | .tick _ _ _ _ _ | .regWrite _ _ | .regRead _ | .controlWritePair _ _ | .dataWrite _ _ _ => true
  | .snapshot | .restore _ | .resetSystem | .ticks _ _ _ _ _ _ => true
  | .cmdDmaRequest _ _ _ _ | .cmdAddressOnly _ _ _ _ => true
  | .dmaCopy _ | .dmaFill | .dmaMem2VramVram _ | .dmaMem2VramCram _ | .dmaMem2VramVsram _ => true
  | .dmaConfigError code m => (selectMode code m).isNone

end Sys2Proof
end

