-- ==== Sys2Proof/Decode.lean ====
section
/-! DEFINITION. The three encodings of spec/30_encoding.md: a serialized operation (R93 to R96), a 32-bit command word
(R87 to R90) and a DMA selection word `code :: m` (R91). Each decoder is total and rejects by name; the encoders, written
from the same tables, stand after them. -/

namespace Sys2Proof

open Machine

/-- Why a byte sequence spells no operation. -/
inductive DecodeError where
  /-- The first byte is no selector of R93: `X_BAD_SELECTOR` (R96). -/
  | badSelector
  /-- An operand byte spells no value: `X_BAD_OPERAND` (R96). -/
  | badOperand
  /-- SNAPSHOT or RESTORE, which carry a record that is not serialized, in a byte program (R94). -/
  | notSerialized
  /-- The bytes end inside the operation (log 16). -/
  | truncated
deriving DecidableEq, Repr

/-- A value read from the front of the bytes, and the bytes after it. -/
abbrev Taken (α : Type) := Except DecodeError (α × List Byte)

/-- Read one value, then go on with the bytes after it; an error ends the decoding. -/
def andTake {α β : Type} (t : Taken α) (f : α → List Byte → Taken β) : Taken β :=
  match t with
  | .ok (x, r) => f x r
  | .error e => .error e

/-- One operand byte. -/
def takeByte (bs : List Byte) : Taken Byte :=
  match bs with
  | b :: r => .ok (b, r)
  | [] => .error .truncated

/-- A 16-bit operand, big-endian (R93). -/
def takeWord (bs : List Byte) : Taken Word :=
  match bs with
  | hi :: lo :: r => .ok (hi ++ lo, r)
  | _ => .error .truncated

/-- A 32-bit operand, big-endian (R93). -/
def takeCommand (bs : List Byte) : Taken Command :=
  match bs with
  | b3 :: b2 :: b1 :: b0 :: r => .ok (b3 ++ b2 ++ b1 ++ b0, r)
  | _ => .error .truncated

/-- A Boolean operand: 0x00 or 0x01 (R95, R96). -/
def takeBool (bs : List Byte) : Taken Bool :=
  match bs with
  | b :: r => if b = 0x00#8 then .ok (false, r) else if b = 0x01#8 then .ok (true, r) else .error .badOperand
  | [] => .error .truncated

/-- An addressing-mode operand: bits 7:4 zero (R95, R96). -/
def takeAccess (bs : List Byte) : Taken AccessMode :=
  match bs with
  | b :: r => if b.extractLsb' 4 4 = 0#4 then .ok (b.extractLsb' 0 4, r) else .error .badOperand
  | [] => .error .truncated

/-- The region of `mode_id` bits 3:2; 3 spells none (R92). -/
def regionOfCode (c : BitVec 2) : Option Region :=
  if c = 0#2 then some .pal else if c = 1#2 then some .ntscJ else if c = 2#2 then some .ntscU else none

/-- The VideoMode a `mode_id` byte spells (R92). -/
def modeOfId (b : Byte) : Option VideoMode :=
  if b.extractLsb' 4 4 = 0#4 then
    match regionOfCode (b.extractLsb' 2 2) with
    | some r =>
      some { hRes := if b.getLsbD 0 then .h40 else .h32, lines := if b.getLsbD 1 then .v30 else .v28, region := r }
    | none => none
  else none

/-- A `mode_id` operand (R92, R96). -/
def takeVideoMode (bs : List Byte) : Taken VideoMode :=
  match bs with
  | b :: r =>
    match modeOfId b with
    | some m => .ok (m, r)
    | none => .error .badOperand
  | [] => .error .truncated

/-- The operands of the operation a selector names (R93). -/
def decodeOperands (sel : Byte) (r : List Byte) : Taken Instr :=
  match sel with
  | 0x01#8 => andTake (takeVideoMode r) fun m r => .ok (.setMode m, r)
  | 0x02#8 => .ok (.resetCounters, r)
  | 0x03#8 => .ok (.advanceH, r)
  | 0x04#8 => .ok (.readCounters, r)
  | 0x10#8 =>
    andTake (takeAccess r) fun m r =>
    andTake (takeWord r) fun a r =>
    andTake (takeWord r) fun d r =>
    .ok (.fifoPush m a d, r)
  | 0x11#8 => .ok (.fifoPop, r)
  | 0x12#8 => .ok (.fifoIsEmpty, r)
  | 0x13#8 => .ok (.fifoIsFull, r)
  | 0x14#8 => .ok (.fifoDrainOne, r)
  | 0x20#8 =>
    andTake (takeAccess r) fun m r =>
    andTake (takeCommand r) fun c r =>
    andTake (takeBool r) fun e r =>
    .ok (.dmaSetup m c e, r)
  | 0x21#8 => andTake (takeWord r) fun d r => .ok (.dmaFillStart d, r)
  | 0x22#8 =>
    andTake (takeVideoMode r) fun m r =>
    andTake (takeBool r) fun b r =>
    .ok (.doDma m b, r)
  | 0x23#8 => andTake (takeWord r) fun n r => .ok (.decreaseLength n, r)
  | 0x30#8 =>
    andTake (takeBool r) fun a r =>
    andTake (takeBool r) fun s r =>
    .ok (.pollPrimary a s, r)
  | 0x31#8 => andTake (takeByte r) fun l r => .ok (.ackPrimary l, r)
  | 0x32#8 =>
    andTake (takeBool r) fun a r =>
    andTake (takeBool r) fun s r =>
    andTake (takeBool r) fun e r =>
    .ok (.pollCoprocessor a s e, r)
  | 0x33#8 => .ok (.newFrame, r)
  | 0x34#8 => .ok (.primaryLevel, r)
  | 0x40#8 =>
    andTake (takeBool r) fun a0 r =>
    andTake (takeBool r) fun s0 r =>
    andTake (takeBool r) fun a1 r =>
    andTake (takeBool r) fun s1 r =>
    andTake (takeBool r) fun e r =>
    .ok (.tick a0 s0 a1 s1 e, r)
  | 0x41#8 =>
    andTake (takeByte r) fun i r =>
    andTake (takeByte r) fun v r =>
    .ok (.regWrite i v, r)
  | 0x42#8 => andTake (takeByte r) fun i r => .ok (.regRead i, r)
  | 0x43#8 =>
    andTake (takeWord r) fun w1 r =>
    andTake (takeWord r) fun w2 r =>
    .ok (.controlWritePair w1 w2, r)
  | 0x44#8 =>
    andTake (takeAccess r) fun m r =>
    andTake (takeWord r) fun a r =>
    andTake (takeWord r) fun d r =>
    .ok (.dataWrite m a d, r)
  | 0x45#8 => .error .notSerialized
  | 0x46#8 => .error .notSerialized
  | 0x47#8 => .ok (.resetSystem, r)
  | _ => .error .badSelector

/-- The first operation of a byte program, and the bytes after it (R93, R94): the selector is read before the operands
(spec/60_exceptions.md R249). -/
def decode (bs : List Byte) : Taken Instr :=
  match bs with
  | sel :: r => decodeOperands sel r
  | [] => .error .truncated

/-- The form of a 32-bit command word, told by `CD[5]` (R87, R90; spec/44_tick_and_ports.md R225). -/
def decodeCommand (cmd : Command) : Instr :=
  let cd := (commandCd cmd).extractLsb' 0 5
  let a : Word := cmd.extractLsb' 0 2 ++ cmd.extractLsb' 16 14
  let hi : Byte := cmd.extractLsb' 8 8
  let lo := cmd.extractLsb' 2 2
  if commandRequestsDma cmd then .cmdDmaRequest cd a hi lo else .cmdAddressOnly cd a hi lo

/-- The row of the DMA selection a word `code :: m` matches, the rows tried in their order (R91). -/
def decodeSelect (w : BitVec 6) : Instr :=
  let code : BitVec 2 := w.extractLsb' 4 2
  let m : AccessMode := w.extractLsb' 0 4
  if code = 0b11#2 then .dmaCopy m
  else if code = 0b10#2 ∧ m = codeVramWrite then .dmaFill
  else if code.getLsbD 1 = false ∧ m = codeVramWrite then .dmaMem2VramVram (code.getLsbD 0)
  else if code.getLsbD 1 = false ∧ m = codeCramWrite then .dmaMem2VramCram (code.getLsbD 0)
  else if code.getLsbD 1 = false ∧ m = codeVsramWrite then .dmaMem2VramVsram (code.getLsbD 0)
  else .dmaConfigError code m

/-- The longest serialized operation: DMA_SETUP, 7 bytes (R93). -/
def maxOperationBytes : Nat := 7

/-- The length of a serialized operation, fixed by its selector: 1 byte plus the operand widths (R94). -/
def operationLength (sel : Byte) : Option Nat :=
  match sel with
  | 0x02#8 | 0x03#8 | 0x04#8 | 0x11#8 | 0x12#8 | 0x13#8 | 0x14#8 | 0x33#8 | 0x34#8 | 0x47#8 => some 1
  | 0x01#8 | 0x31#8 | 0x42#8 => some 2
  | 0x21#8 | 0x22#8 | 0x23#8 | 0x30#8 | 0x41#8 => some 3
  | 0x32#8 => some 4
  | 0x43#8 => some 5
  | 0x10#8 | 0x40#8 | 0x44#8 => some 6
  | 0x20#8 => some 7
  | _ => none

/-- The 7 bytes of an instruction whose bits are `w`: byte `k` is bits `8k+7 .. 8k`, and bits at or above `nbits` are 0. -/
def tableBytes (nbits w : Nat) : List Byte :=
  (List.range maxOperationBytes).map fun k => BitVec.ofNat 8 ((w % 2 ^ nbits) >>> (8 * k))

/-- What a word of the table that is no byte program spells (log 17): a 32-bit command word, an 8-bit selection word
`code :: m`, or the SNAPSHOT row, whose direct call has no operand (log 15). RESTORE needs a record no word holds. -/
def tableCall (e : DecodeError) (nbits w : Nat) : Option Instr :=
  match e with
  | .badSelector =>
    if nbits = 32 then some (decodeCommand (BitVec.ofNat 32 w))
    else if nbits = 8 ∧ w % 256 < 64 then some (decodeSelect (BitVec.ofNat 6 w))
    else none
  | .notSerialized => if nbits = 8 ∧ w % 256 = 0x45 then some .snapshot else none
  | .badOperand => none
  | .truncated => none

/-- The instruction the decoder reads from a word of spec/opcode_table.json. The table's rows are of three formats whose
words overlap: a word is read as a serialized operation, and one that is none as `tableCall` says (log 17). -/
def decodeTableWord (nbits w : Nat) : Option Instr :=
  match decode (tableBytes nbits w) with
  | .ok (i, _) => some i
  | .error e => tableCall e nbits w

/-- A 16-bit operand's bytes, big-endian (R93). -/
def wordBytes (w : Word) : List Byte := [w.extractLsb' 8 8, w.extractLsb' 0 8]

/-- A 32-bit operand's bytes, big-endian (R93). -/
def commandBytes (c : Command) : List Byte :=
  [c.extractLsb' 24 8, c.extractLsb' 16 8, c.extractLsb' 8 8, c.extractLsb' 0 8]

/-- A Boolean operand's byte (R95). -/
def boolByte (b : Bool) : Byte := if b then 0x01#8 else 0x00#8

/-- An addressing-mode operand's byte (R95). -/
def accessByte (m : AccessMode) : Byte := 0#4 ++ m

/-- `mode_id` bits 3:2 (R92). -/
def regionCode (r : Region) : BitVec 2 :=
  match r with
  | .pal => 0#2
  | .ntscJ => 1#2
  | .ntscU => 2#2

/-- `mode_id` (R92). -/
def modeId (m : VideoMode) : Byte :=
  0#4 ++ regionCode m.region ++ (if m.lines = .v30 then 1#1 else 0#1) ++ (if m.hRes = .h40 then 1#1 else 0#1)

/-- The serialized form of an operation (R93). SNAPSHOT and RESTORE have none (R94), and the rows that are no selector
have none of their own. -/
def encode (i : Instr) : Option (List Byte) :=
  match i with
  | .setMode m => some [0x01#8, modeId m]
  | .resetCounters => some [0x02#8]
  | .advanceH => some [0x03#8]
  | .readCounters => some [0x04#8]
  | .fifoPush m a d => some (0x10#8 :: accessByte m :: (wordBytes a ++ wordBytes d))
  | .fifoPop => some [0x11#8]
  | .fifoIsEmpty => some [0x12#8]
  | .fifoIsFull => some [0x13#8]
  | .fifoDrainOne => some [0x14#8]
  | .dmaSetup m c e => some (0x20#8 :: accessByte m :: (commandBytes c ++ [boolByte e]))
  | .dmaFillStart d => some (0x21#8 :: wordBytes d)
  | .doDma m b => some [0x22#8, modeId m, boolByte b]
  | .decreaseLength n => some (0x23#8 :: wordBytes n)
  | .pollPrimary a s => some [0x30#8, boolByte a, boolByte s]
  | .ackPrimary l => some [0x31#8, l]
  | .pollCoprocessor a s e => some [0x32#8, boolByte a, boolByte s, boolByte e]
  | .newFrame => some [0x33#8]
  | .primaryLevel => some [0x34#8]
  | .tick a0 s0 a1 s1 e => some [0x40#8, boolByte a0, boolByte s0, boolByte a1, boolByte s1, boolByte e]
  | .regWrite k v => some [0x41#8, k, v]
  | .regRead k => some [0x42#8, k]
  | .controlWritePair w1 w2 => some (0x43#8 :: (wordBytes w1 ++ wordBytes w2))
  | .dataWrite m a d => some (0x44#8 :: accessByte m :: (wordBytes a ++ wordBytes d))
  | .resetSystem => some [0x47#8]
  | .snapshot | .restore _ | .ticks _ _ _ _ _ _ | .cmdDmaRequest _ _ _ _ | .cmdAddressOnly _ _ _ _ => none
  | .dmaCopy _ | .dmaFill | .dmaMem2VramVram _ | .dmaMem2VramCram _ | .dmaMem2VramVsram _ => none
  | .dmaConfigError _ _ => none

/-- The bytes of the pseudo-operation TICKS: `n` copies of the TICK row (R98). -/
def encodeTicks (n : Nat) (a0 s0 a1 s1 e : Bool) : List Byte :=
  (List.replicate n [0x40#8, boolByte a0, boolByte s0, boolByte a1, boolByte s1, boolByte e]).flatten

/-- A command word from its fields (R87): `CD[1:0] :: A[13:0] :: ignored :: CD[5:2] :: ignored :: A[15:14]`. -/
def commandWord (cd : BitVec 6) (a : Word) (ignoredHi : Byte) (ignoredLo : BitVec 2) : Command :=
  cd.extractLsb' 0 2 ++ a.extractLsb' 0 14 ++ ignoredHi ++ cd.extractLsb' 2 4 ++ ignoredLo ++ a.extractLsb' 14 2

/-- The command word of a command form (R87, R90). -/
def encodeCommand (i : Instr) : Option Command :=
  match i with
  | .cmdDmaRequest cd a hi lo => some (commandWord (1#1 ++ cd) a hi lo)
  | .cmdAddressOnly cd a hi lo => some (commandWord (0#1 ++ cd) a hi lo)
  | _ => none

/-- The selection word `code :: m` of a selection row (R91). -/
def encodeSelect (i : Instr) : Option (BitVec 6) :=
  match i with
  | .dmaCopy m => some (0b11#2 ++ m)
  | .dmaFill => some (0b10#2 ++ codeVramWrite)
  | .dmaMem2VramVram c => some (0#1 ++ BitVec.ofBool c ++ codeVramWrite)
  | .dmaMem2VramCram c => some (0#1 ++ BitVec.ofBool c ++ codeCramWrite)
  | .dmaMem2VramVsram c => some (0#1 ++ BitVec.ofBool c ++ codeVsramWrite)
  | .dmaConfigError code m => some (code ++ m)
  | _ => none

end Sys2Proof
end

