-- ==== Sys2Proof/Machine/Timing.lean ====
section
/-! DEFINITION. The timing-counter engine: SET_MODE, RESET_COUNTERS, ADVANCE_H, READ_COUNTERS
(spec/40_timing_counters.md). -/

namespace Sys2Proof.Machine

open Sys2Proof

/-- RESET_COUNTERS: every field of CounterState (R111). -/
def resetCounters (v : Record) : Record := v.setCs (resetCounterState (lineCounter v))

/-- `set_mode(m)`: select the mode and reset the counters, whatever the current mode is (R110, decision D6). -/
def setMode (m : VideoMode) (s : State) : Out :=
  match timingOf s.cfg m with
  | some _ => .next (s.setVdp (resetCounters { s.vdp with curMode := m }))
  | none => .refused .modeUnsupported

/-- `advance_h()` on the record (R112). -/
def advance (p : TimingParams) (v : Record) : Record := v.setCs (advanceCounters p (lineCounter v) v.cs)

/-- SET_MODE (R110). -/
def execSetMode (m : VideoMode) (s : State) : Out := andThen (setMode m s) fun t => .next (t.setResult .noResult)

/-- RESET_COUNTERS (R111). -/
def execResetCounters (s : State) : Out := .next ((s.setVdp (resetCounters s.vdp)).setResult .noResult)

/-- ADVANCE_H: returns the new `h_counter` (R112). -/
def execAdvanceH (s : State) : Out :=
  withParams s fun p =>
    let v := advance p s.vdp
    .next ((s.setVdp v).setResult (.counter (v.cs.hCounter.setWidth 16)))

/-- READ_COUNTERS (R119). -/
def execReadCounters (s : State) : Out := .next (s.setResult (.counters s.vdp.cs))

end Sys2Proof.Machine
end

