-- ==== Sys2Proof/Machine/Ports.lean ====
section
/-! DEFINITION. The register bank and the ports: REG_READ, REG_WRITE, CONTROL_WRITE_PAIR, DATA_WRITE
(spec/44_tick_and_ports.md), and the two forms of a command word as rows of their own. -/

namespace Sys2Proof.Machine

open Sys2Proof

/-- Run a primary-CPU bus call: while `cpu_stall` holds it is a fault (R230). -/
def busCall (s : State) (k : Out) : Out := if cpuStall s.vdp then .fault .stalledAccess else k

/-- A register write after the checks: a write to register 1 or 12 sets the mode the registers select where it is not the
current mode (R224). DESIGN CHOICE (log 26): the test is R224's `m != cur_mode` alone, whether or not the write changes
`H40` or `V30`. Where a SET_MODE or a RESTORE has left another mode than the registers select, a write that keeps the two
bits so sets the mode, although R224's corner case and the reason of decision D6 have it reset nothing, and a write that
changes them to the current mode resets nothing, although spec/70_reset_and_hazards.md R283 has it reset the counters. -/
def regWriteAt (i : Fin numRegs) (b : Byte) (s : State) : Out :=
  let t := s.setVdp (s.vdp.setReg i b)
  let m := selectedMode t.cfg t.vdp
  if (i = 1 ∨ i = 12) ∧ m ≠ t.vdp.curMode then setMode m t else .next t

/-- A command word at the control port: `CD[5]` asks for a DMA setup with the live `M1`; otherwise only the address
register, outside the core, is set (R225). The setup's result is not returned. -/
def controlCommand (cmd : Command) (s : State) : Out :=
  if commandRequestsDma cmd then
    andThen (dmaSetup (commandMode cmd) cmd (m1Enabled s.vdp) s) fun t => .next (t.setResult .noResult)
  else .next (s.setResult .noResult)

/-- REG_READ (R223). -/
def execRegRead (i : Byte) (s : State) : Out :=
  if h : i.toNat < numRegs then .next (s.setResult (.register (s.vdp.reg ⟨i.toNat, h⟩)))
  else .fault .badRegIndex

/-- REG_WRITE: the stall, then the index, then the mode (R224, spec/60_exceptions.md R249). -/
def execRegWrite (i b : Byte) (s : State) : Out :=
  busCall s
    (if h : i.toNat < numRegs then
      andThen (regWriteAt ⟨i.toNat, h⟩ b s) fun t => .next (t.setResult .noResult)
    else .fault .badRegIndex)

/-- CONTROL_WRITE_PAIR (R225). -/
def execControlWritePair (w1 w2 : Word) (s : State) : Out := busCall s (controlCommand (commandOf w1 w2) s)

/-- DATA_WRITE: with a transfer it is the write that starts a fill, and `ram_mode` and `addr` are not read; otherwise it
is queued (R226). -/
def execDataWrite (m : AccessMode) (a d : Word) (s : State) : Out :=
  busCall s
    (if s.vdp.dma.isSome then andThen (dmaFillStart d s) fun t => .next (t.setResult .ok) else fifoPush m a d s)

/-- CMD_DMA_REQUEST: the control-port pair of a command word with `CD[5] = 1` (R225, spec/30_encoding.md R90). -/
def execCmdDmaRequest (cd : BitVec 5) (a : Word) (hi : Byte) (lo : BitVec 2) (s : State) : Out :=
  busCall s (controlCommand (commandWord (1#1 ++ cd) a hi lo) s)

/-- CMD_ADDRESS_ONLY: the control-port pair of a command word with `CD[5] = 0` (R225, spec/30_encoding.md R90). -/
def execCmdAddressOnly (cd : BitVec 5) (a : Word) (hi : Byte) (lo : BitVec 2) (s : State) : Out :=
  busCall s (controlCommand (commandWord (0#1 ++ cd) a hi lo) s)

end Sys2Proof.Machine
end

