-- ==== Sys2Proof/Machine/Select.lean ====
section
/-! DEFINITION. The rows of the DMA mode selection (spec/30_encoding.md R91, spec/42_dma.md R156, R158). A row is the
answer of SelectMode for the type codes and addressing modes it takes: a pure function whose result is returned, and in row 4
the configuration error (log 17). -/

namespace Sys2Proof.Machine

open Sys2Proof

/-- Return the mode a type code and an addressing mode select; a pure function (R156). -/
def selected (code : BitVec 2) (m : AccessMode) (s : State) : State :=
  match selectMode code m with
  | some mode => s.setResult (.dmaMode mode)
  | none => s.setResult .absent

/-- DMA_COPY (R156). -/
def execDmaCopy (m : AccessMode) (s : State) : Out := .next (selected 0b11#2 m s)

/-- DMA_FILL (R156). -/
def execDmaFill (s : State) : Out := .next (selected 0b10#2 codeVramWrite s)

/-- DMA_MEM2VRAM_VRAM (R156). -/
def execDmaMem2VramVram (codeLow : Bool) (s : State) : Out :=
  .next (selected (0#1 ++ BitVec.ofBool codeLow) codeVramWrite s)

/-- DMA_MEM2VRAM_CRAM (R156). -/
def execDmaMem2VramCram (codeLow : Bool) (s : State) : Out :=
  .next (selected (0#1 ++ BitVec.ofBool codeLow) codeCramWrite s)

/-- DMA_MEM2VRAM_VSRAM (R156). -/
def execDmaMem2VramVsram (codeLow : Bool) (s : State) : Out :=
  .next (selected (0#1 ++ BitVec.ofBool codeLow) codeVsramWrite s)

/-- DMA_CONFIG_ERROR: `DmaError()` (R158), behind the duty that no transfer exists (R155, R159). A pair that an earlier
row takes is no instance of this row. -/
def execDmaConfigError (code : BitVec 2) (m : AccessMode) (s : State) : Out :=
  if (selectMode code m).isSome then .refused .badOperand
  else if s.vdp.dma.isSome then .fault .setupWhileBusy
  else .next (dmaError s)

end Sys2Proof.Machine
end

