-- ==== Sys2Proof/Machine/System.lean ====
section
/-! DEFINITION. SNAPSHOT and RESTORE (spec/44_tick_and_ports.md R232, R233) and RESET_SYSTEM
(spec/70_reset_and_hazards.md R275). -/

namespace Sys2Proof.Machine

open Sys2Proof

/-- The clause of `Valid(r)` on the mode and the counters: the mode has a well-formed record and each counter is in its
set (R233). -/
def countersValid (cfg : Config) (r : Record) : Bool :=
  match timingOf cfg r.curMode with
  | some p => inHset p r.cs.hCounter.toNat && inVset p r.cs.vCounter.toNat
  | none => false

/-- The clause of `Valid(r)` on the countdown: `-1 <= h_line_passed <= 255` (R233; log 13 on the value -1). -/
def countdownValid (r : Record) : Bool :=
  decide (-1 ≤ r.cs.hLinePassed.toInt) && decide (r.cs.hLinePassed.toInt ≤ 255)

/-- Every entry within the count has a write code (R233). -/
def entriesValid (cfg : Config) (f : Fifo) : Bool :=
  (List.range f.count).all fun k => isWriteCode (f.slotAt (fifoIndex cfg.fifoCapacity f k)).ramMode

/-- The clauses of `Valid(r)` on the FIFO (R233), and that it has `FIFO_CAPACITY` slots (log 12). -/
def fifoValid (cfg : Config) (f : Fifo) : Bool :=
  decide (f.slots.length = cfg.fifoCapacity) && decide (f.head < cfg.fifoCapacity) &&
    decide (f.count ≤ cfg.fifoThreshold) && entriesValid cfg f

/-- A fill word is present only in a VramFill (spec/10_state.md R36): what R36 says of every transfer, and so of a record
of the form RESTORE takes (log 24). -/
def fillWordFits (t : Transfer) : Bool := t.fillData.isNone || decide (t.mode = .vramFill)

/-- The clauses of `Valid(r)` on one transfer (R233), and that its fill word fits its mode (log 24). -/
def transferValid (t : Transfer) : Bool :=
  (!t.fillStarted || decide (t.mode = .vramFill)) && (decide (t.destRamType = .vram) || decide (t.mode = .memToVram)) &&
    fillWordFits t

/-- The clauses of `Valid(r)` on the DMA state (R233). -/
def dmaValid (r : Record) : Bool :=
  decide (r.dmaBusy = r.dma.isSome) && (match r.dma with | some t => transferValid t | none => true)

/-- The memories are memories of this machine: canonical, and inside their sizes (log 12). -/
def memoriesValid (cfg : Config) (r : Record) : Bool :=
  r.vram.wf vramSize && r.cram.wf cfg.cramSize && r.vsram.wf cfg.vsramSize

/-- `Valid(r)` without its clause on the countdown. -/
def recordValid (cfg : Config) (r : Record) : Bool :=
  countersValid cfg r && fifoValid cfg r.fifo && dmaValid r && memoriesValid cfg r

/-- `Valid(r)` (R233). `r.cop_trigger_line <= 0x1FF` is in its type. -/
def restoreValid (cfg : Config) (r : Record) : Bool := recordValid cfg r && countdownValid r

/-- A number above every draw the record's memories stand for (log 8). -/
def drawsAfter (draws : Nat) (r : Record) : Nat :=
  max draws (max (r.vram.draw + 1) (max (r.cram.draw + 1) (r.vsram.draw + 1)))

/-- SNAPSHOT (R232). -/
def execSnapshot (s : State) : Out := .next (s.setResult (.record s.vdp))

/-- RESTORE (R233). -/
def execRestore (r : Record) (s : State) : Out :=
  if restoreValid s.cfg r then
    .next (((s.setVdp r).setDraws (drawsAfter s.draws r)).setResult .noResult)
  else .fault .badRestore

/-- RESET_SYSTEM (spec/70_reset_and_hazards.md R275): three free draws for the memories (log 4). -/
def execResetSystem (s : State) : Out :=
  match timingOf s.cfg (resetMode s.cfg) with
  | some p => .next (((s.setVdp (resetRecord s.cfg p s.draws)).setDraws (s.draws + 3)).setResult .noResult)
  | none => .refused .modeUnsupported

end Sys2Proof.Machine
end

