-- ==== Sys2Proof/Machine/Tick.lean ====
section
/-! DEFINITION. The tick (spec/44_tick_and_ports.md R220) and the pseudo-operation TICKS (spec/30_encoding.md R98). -/

namespace Sys2Proof.Machine

open Sys2Proof

/-- The interrupt polls of a tick, primary first (R220). -/
def tickPolls (a0 s0 a1 s1 e : Bool) (s : State) : State := pollCoprocessor a1 s1 e (pollPrimary a0 s0 s)

/-- The VDP slot up to the drain: ADVANCE_H, and NEW_FRAME where `v` became 0 (R220, decision D15). -/
def tickAdvance (p : TimingParams) (v : Record) : Record :=
  let w := advance p v
  if w.cs.vCounter = 0#9 ∧ v.cs.vCounter ≠ 0#9 then newFrame p w else w

/-- The DMA slot: DO_DMA on the line-boundary tick where a transfer exists (R220, R221). -/
def tickDma (p : TimingParams) (s : State) : State :=
  if s.vdp.cs.hCounter.toNat = p.vCounterIncrementOn ∧ s.vdp.dma.isSome = true then
    doDma s.vdp.curMode.hRes (isBlanking s.vdp) s
  else s

/-- One tick: polls, VDP slot, drain, DMA slot (R220). -/
def tickOnce (a0 s0 a1 s1 e : Bool) (s : State) : Out :=
  withParams s fun p =>
    let polled := tickPolls a0 s0 a1 s1 e s
    andThen (fifoDrainOne (polled.setVdp (tickAdvance p polled.vdp))) fun t =>
      .next ((tickDma p t).setResult .noResult)

/-- `n` ticks with the same operands (spec/30_encoding.md R98). -/
def tickTimes (n : Nat) (a0 s0 a1 s1 e : Bool) (s : State) : Out :=
  match n with
  | 0 => .next s
  | k + 1 => andThen (tickOnce a0 s0 a1 s1 e s) (tickTimes k a0 s0 a1 s1 e)

/-- TICK (R220). -/
def execTick (a0 s0 a1 s1 e : Bool) (s : State) : Out := tickOnce a0 s0 a1 s1 e s

/-- TICKS: `n` copies of TICK (spec/30_encoding.md R98). -/
def execTicks (n : Nat) (a0 s0 a1 s1 e : Bool) (s : State) : Out := tickTimes n a0 s0 a1 s1 e s

end Sys2Proof.Machine
end

