-- ==== Sys2Proof/Machine/Dispatch.lean ====
section
/-! DEFINITION. One arm per operation: each arm is one call of that operation's meaning. -/

namespace Sys2Proof.Machine

open Sys2Proof

def exec (i : Instr) (s : State) : Host.Outcome State Fault Refusal :=
  match i with
  | .setMode m => Sys2Proof.Machine.execSetMode m s
  | .resetCounters => Sys2Proof.Machine.execResetCounters s
  | .advanceH => Sys2Proof.Machine.execAdvanceH s
  | .readCounters => Sys2Proof.Machine.execReadCounters s
  | .fifoPush m a d => Sys2Proof.Machine.execFifoPush m a d s
  | .fifoPop => Sys2Proof.Machine.execFifoPop s
  | .fifoIsEmpty => Sys2Proof.Machine.execFifoIsEmpty s
  | .fifoIsFull => Sys2Proof.Machine.execFifoIsFull s
  | .fifoDrainOne => Sys2Proof.Machine.execFifoDrainOne s
  | .dmaSetup m cmd e => Sys2Proof.Machine.execDmaSetup m cmd e s
  | .dmaFillStart d => Sys2Proof.Machine.execDmaFillStart d s
  | .doDma m b => Sys2Proof.Machine.execDoDma m b s
  | .decreaseLength n => Sys2Proof.Machine.execDecreaseLength n s
  | .pollPrimary a p => Sys2Proof.Machine.execPollPrimary a p s
  | .ackPrimary l => Sys2Proof.Machine.execAckPrimary l s
  | .pollCoprocessor a p e => Sys2Proof.Machine.execPollCoprocessor a p e s
  | .newFrame => Sys2Proof.Machine.execNewFrame s
  | .primaryLevel => Sys2Proof.Machine.execPrimaryLevel s
  | .tick a0 s0 a1 s1 e => Sys2Proof.Machine.execTick a0 s0 a1 s1 e s
  | .regWrite k b => Sys2Proof.Machine.execRegWrite k b s
  | .regRead k => Sys2Proof.Machine.execRegRead k s
  | .controlWritePair w1 w2 => Sys2Proof.Machine.execControlWritePair w1 w2 s
  | .dataWrite m a d => Sys2Proof.Machine.execDataWrite m a d s
  | .snapshot => Sys2Proof.Machine.execSnapshot s
  | .restore r => Sys2Proof.Machine.execRestore r s
  | .resetSystem => Sys2Proof.Machine.execResetSystem s
  | .ticks n a0 s0 a1 s1 e => Sys2Proof.Machine.execTicks n a0 s0 a1 s1 e s
  | .cmdDmaRequest cd a hi lo => Sys2Proof.Machine.execCmdDmaRequest cd a hi lo s
  | .cmdAddressOnly cd a hi lo => Sys2Proof.Machine.execCmdAddressOnly cd a hi lo s
  | .dmaCopy m => Sys2Proof.Machine.execDmaCopy m s
  | .dmaFill => Sys2Proof.Machine.execDmaFill s
  | .dmaMem2VramVram c => Sys2Proof.Machine.execDmaMem2VramVram c s
  | .dmaMem2VramCram c => Sys2Proof.Machine.execDmaMem2VramCram c s
  | .dmaMem2VramVsram c => Sys2Proof.Machine.execDmaMem2VramVsram c s
  | .dmaConfigError code m => Sys2Proof.Machine.execDmaConfigError code m s

end Sys2Proof.Machine
end

