-- ==== Sys2Proof/Machine/Fetch.lean ====
section
/-! DEFINITION. Taking the next request (log 1): where the step finds its next operation, and how an operation of the
opcode table is placed there. -/

namespace Sys2Proof.Machine

open Sys2Proof

/-- What stands next in the inbox. -/
inductive Fetched where
  /-- No request: the core waits. -/
  | idle
  /-- The bytes spell no operation, or the call is not well-formed. -/
  | refuse (r : Refusal)
  /-- An operation, and the requests after it. -/
  | run (i : Instr) (rest : List Request)
deriving DecidableEq, Repr

/-- The refusal of a byte sequence (spec/30_encoding.md R94, R96). -/
def refusalOf (e : DecodeError) : Refusal :=
  match e with
  | .badSelector => .badSelector
  | .badOperand => .badOperand
  | .notSerialized => .notSerialized
  | .truncated => .truncated

/-- The next operation: the front of a byte program, or a direct call; an exhausted program is passed over. -/
def nextRequest (q : List Request) : Fetched :=
  match q with
  | [] => .idle
  | .bytes [] :: rest => nextRequest rest
  | .bytes (b :: bs) :: rest =>
    match decode (b :: bs) with
    | .ok (i, left) => .run i (.bytes left :: rest)
    | .error e => .refuse (refusalOf e)
  | .call i :: rest => if i.wf then .run i rest else .refuse .badOperand

/-- The request that places a word of the opcode table: its bytes as a program, or the call it spells (log 17). DESIGN
CHOICE (log 25): the program is always 7 bytes, the length of the longest operation, so the zero bytes after a shorter
operation stay as the rest of the program, and the step after that operation refuses them (0 is no selector). -/
def tableRequest (nbits w : Nat) : Request :=
  match decode (tableBytes nbits w) with
  | .ok _ => .bytes (tableBytes nbits w)
  | .error e =>
    match tableCall e nbits w with
    | some i => .call i
    | none => .bytes (tableBytes nbits w)

/-- The state with a request placed before all others. -/
def placeRequest (r : Request) (s : State) : State := s.setInbox (r :: s.inbox)

end Sys2Proof.Machine
end

