-- ==== Sys2Proof/Machine/Step.lean ====
section
/-! DEFINITION. One step: the next request of a caller is run (log 1). -/

namespace Sys2Proof.Machine

open Sys2Proof

/-- One step. With no request the core waits and nothing changes: it executes no instruction stream of its own and
every operation but TICK takes no time (spec/00_scope.md R2, spec/70_reset_and_hazards.md R288). -/
def step (s : State) : Host.Outcome State Fault Refusal :=
  match nextRequest s.inbox with
  | .idle => .next s
  | .refuse r => .refused r
  | .run i rest => exec i (s.setInbox rest)

/-- `s` with an operation of the opcode table placed as the caller's next request. -/
def State.withFetchWord (s : State) (nbits w : Nat) : State := placeRequest (tableRequest nbits w) s

end Sys2Proof.Machine
end

