-- ==== Sys2Proof/Safety.lean ====
section
/-! DEFINITION. The terms that claims about runs are stated in: the invariant of the state, an operation repeated, and
the queue a FIFO buffer stands for. -/

namespace Sys2Proof.Machine

open Sys2Proof

/-- What every step keeps: a configuration the spec allows (spec/41_fifo.md R144, spec/20_memory.md R66), and a record
that meets every clause of `Valid` but the one on the countdown (spec/44_tick_and_ports.md R233; log 13): the mode has a
well-formed timing record and the counters are in its sets (spec/10_state.md R25), the FIFO is within its threshold and holds
write requests only (R35), `dma_busy` tells whether a transfer exists and only a fill carries a
fill word (R36; log 24), and the memories are canonical. -/
def StateInv (s : State) : Prop := configWf s.cfg = true ∧ recordValid s.cfg s.vdp = true

/-- The countdown is in `[0, 255]`, the values it holds between operations (spec/10_state.md R23; log 13). -/
def CountdownInRange (s : State) : Prop := 0 ≤ s.vdp.cs.hLinePassed.toInt ∧ s.vdp.cs.hLinePassed.toInt ≤ 255

/-- An operation called `n` times. -/
def repeatOp (n : Nat) (i : Instr) (s : State) : Out :=
  match n with
  | 0 => .next s
  | k + 1 => andThen (exec i s) (repeatOp k i)

/-- The entries a FIFO holds, oldest first. -/
def queuedEntries (cfg : Config) (f : Fifo) : List FifoEntry :=
  (List.range f.count).map fun k => f.slotAt (fifoIndex cfg.fifoCapacity f k)

/-- The number of units a length asks for: 0 stands for 0x10000 (spec/42_dma.md R174). -/
def unitsAsked (len : Word) : Nat := if len = 0#16 then 0x10000 else len.toNat

/-- The operation may change the video memories: the drain, the fill start, the DMA step, and what contains them. -/
def mayWriteVideoMemory (i : Instr) : Bool :=
  match i with
  | .fifoDrainOne | .dmaFillStart _ | .doDma _ _ | .tick _ _ _ _ _ | .dataWrite _ _ _ | .restore _ => true
  | .resetSystem | .ticks _ _ _ _ _ _ => true
  | .setMode _ | .resetCounters | .advanceH | .readCounters | .fifoPush _ _ _ | .fifoPop | .fifoIsEmpty => false
  | .fifoIsFull | .dmaSetup _ _ _ | .decreaseLength _ | .pollPrimary _ _ | .ackPrimary _ => false
  | .pollCoprocessor _ _ _ | .newFrame | .primaryLevel | .regWrite _ _ | .regRead _ | .controlWritePair _ _ => false
  | .snapshot | .cmdDmaRequest _ _ _ _ | .cmdAddressOnly _ _ _ _ | .dmaCopy _ | .dmaFill => false
  | .dmaMem2VramVram _ | .dmaMem2VramCram _ | .dmaMem2VramVsram _ | .dmaConfigError _ _ => false

/-- The operation runs DMA units: DO_DMA and the ticks (spec/42_dma.md R162, spec/44_tick_and_ports.md R220). -/
def mayRunUnits (i : Instr) : Bool :=
  match i with
  | .doDma _ _ | .tick _ _ _ _ _ | .ticks _ _ _ _ _ _ => true
  | .setMode _ | .resetCounters | .advanceH | .readCounters | .fifoPush _ _ _ | .fifoPop | .fifoIsEmpty => false
  | .fifoIsFull | .fifoDrainOne | .dmaSetup _ _ _ | .dmaFillStart _ | .decreaseLength _ | .pollPrimary _ _ => false
  | .ackPrimary _ | .pollCoprocessor _ _ _ | .newFrame | .primaryLevel | .regWrite _ _ | .regRead _ => false
  | .controlWritePair _ _ | .dataWrite _ _ _ | .snapshot | .restore _ | .resetSystem => false
  | .cmdDmaRequest _ _ _ _ | .cmdAddressOnly _ _ _ _ | .dmaCopy _ | .dmaFill | .dmaMem2VramVram _ => false
  | .dmaMem2VramCram _ | .dmaMem2VramVsram _ | .dmaConfigError _ _ => false

/-- The operation replaces the whole record: RESTORE and RESET_SYSTEM. -/
def replacesRecord (i : Instr) : Bool :=
  match i with
  | .restore _ | .resetSystem => true
  | .setMode _ | .resetCounters | .advanceH | .readCounters | .fifoPush _ _ _ | .fifoPop | .fifoIsEmpty => false
  | .fifoIsFull | .fifoDrainOne | .dmaSetup _ _ _ | .dmaFillStart _ | .doDma _ _ | .decreaseLength _ => false
  | .pollPrimary _ _ | .ackPrimary _ | .pollCoprocessor _ _ _ | .newFrame | .primaryLevel | .tick _ _ _ _ _ => false
  | .regWrite _ _ | .regRead _ | .controlWritePair _ _ | .dataWrite _ _ _ | .snapshot | .ticks _ _ _ _ _ _ => false
  | .cmdDmaRequest _ _ _ _ | .cmdAddressOnly _ _ _ _ | .dmaCopy _ | .dmaFill | .dmaMem2VramVram _ => false
  | .dmaMem2VramCram _ | .dmaMem2VramVsram _ | .dmaConfigError _ _ => false

/-- The operation may move the raster counters: those spec/60_exceptions.md R257 names, the ticks
(spec/44_tick_and_ports.md R220) and REG_WRITE, which may set the mode (R224). -/
def mayMoveCounters (i : Instr) : Bool :=
  match i with
  | .setMode _ | .resetCounters | .advanceH | .tick _ _ _ _ _ | .regWrite _ _ | .restore _ | .resetSystem => true
  | .ticks _ _ _ _ _ _ => true
  | .readCounters | .fifoPush _ _ _ | .fifoPop | .fifoIsEmpty | .fifoIsFull | .fifoDrainOne => false
  | .dmaSetup _ _ _ | .dmaFillStart _ | .doDma _ _ | .decreaseLength _ | .pollPrimary _ _ | .ackPrimary _ => false
  | .pollCoprocessor _ _ _ | .newFrame | .primaryLevel | .regRead _ | .controlWritePair _ _ => false
  | .dataWrite _ _ _ | .snapshot | .cmdDmaRequest _ _ _ _ | .cmdAddressOnly _ _ _ _ | .dmaCopy _ | .dmaFill => false
  | .dmaMem2VramVram _ | .dmaMem2VramCram _ | .dmaMem2VramVsram _ | .dmaConfigError _ _ => false

end Sys2Proof.Machine
end

