-- ==== Sys2Proof/Certificates/Slice0/Obligations.lean ====
section
/-! DEFINITION. The statements for the provers: what the spec's rules say the core does. Every statement is about all
states, so about every configuration (log 2), unless its docstring says otherwise. -/

open Sys2Proof Sys2Proof.Machine

/-! ## Encodings -/

/-- Derived from spec/30_encoding.md R93, R95: the decoder gives back every operation its serialized form was made of,
with
every operand, and stops right after it. -/
def Obligations.EncodedOperationsDecodeToThemselves : Prop :=
  ∀ (i : Instr) (bs rest : List Byte), encode i = some bs → decode (bs ++ rest) = .ok (i, rest)

/-- Derived from R93, R94: the bytes the decoder reads are exactly the serialized form of the operation it gives. -/
def Obligations.DecodedBytesAreTheOperationsForm : Prop :=
  ∀ (i : Instr) (bs rest : List Byte), decode bs = .ok (i, rest) → ∃ e, encode i = some e ∧ bs = e ++ rest

/-- Derived from R87, R90, R91: the fields of a command word are all its 32 bits, and `CD[5]` tells its form; a
selection
word `code :: m` is taken by one row, and the row's bits are the word. -/
def Obligations.CommandAndSelectionWordsRoundTrip : Prop :=
  (∀ cmd : Command, encodeCommand (decodeCommand cmd) = some cmd ∧ commandRequestsDma cmd = cmd.getLsbD 7) ∧
    (∀ (i : Instr) (cmd : Command), encodeCommand i = some cmd → decodeCommand cmd = i) ∧
    (∀ w : BitVec 6, encodeSelect (decodeSelect w) = some w ∧ (decodeSelect w).wf = true) ∧
    ∀ (i : Instr) (w : BitVec 6), i.wf = true → encodeSelect i = some w → decodeSelect w = i

/-- Derived from R87, R90, R91, R93, R95: words written out from the tables decode to what they stand for: one or more
for
each group of selectors (the counters, the FIFO, the DMA engine, the arbiter, the tick and the ports, the system
reset), a
command word of each form, and a selection word that selects a mode and one that selects none. -/
def Obligations.SampleWordsDecode : Prop :=
  decode [0x01, 0x0B] = .ok (.setMode ⟨.h40, .v30, .ntscU⟩, []) ∧
    decode [0x10, 0x01, 0x80, 0x00, 0x12, 0x34] = .ok (.fifoPush 0b0001 0x8000 0x1234, []) ∧
    decode [0x44, 0x05, 0x12, 0x34, 0xAB, 0xCD] = .ok (.dataWrite 0b0101 0x1234 0xABCD, []) ∧
    decode [0x20, 0x03, 0xC0, 0x00, 0x00, 0x80, 0x01] = .ok (.dmaSetup 0b0011 0xC0000080 true, []) ∧
    decode [0x32, 0x00, 0x01, 0x00] = .ok (.pollCoprocessor false true false, []) ∧
    decode [0x40, 0x01, 0x00, 0x00, 0x01, 0x01] = .ok (.tick true false false true true, []) ∧
    decode [0x47] = .ok (.resetSystem, []) ∧
    decodeCommand 0x40000082 = .cmdDmaRequest 0b00001 0x8000 0 0 ∧
    decodeCommand 0x40000002 = .cmdAddressOnly 0b00001 0x8000 0 0 ∧
    decodeSelect 0b100001 = .dmaFill ∧ decodeSelect 0b100011 = .dmaConfigError 0b10 0b0011

/-- Derived from R94, R96, R92, R88, and log 15 for the name of the second refusal: in a byte program an unlisted
selector, a `mode_id` that spells no mode (12 or more), an addressing-mode byte with a bit of 7:4 set (16 or more), a
Boolean byte above 1, each in every operand that has that form, and the two operations whose record is not serialized
are
refused by name. The operand bytes before the one in question may be any bytes: one that is bad itself is refused the
same way. -/
def Obligations.BytesThatSpellNoOperationAreRefused : Prop :=
  ∀ (s : State) (b : Byte) (r : List Byte) (q : List Request),
    (b ∉ [0x01#8, 0x02#8, 0x03#8, 0x04#8, 0x10#8, 0x11#8, 0x12#8, 0x13#8, 0x14#8, 0x20#8, 0x21#8, 0x22#8, 0x23#8, 0x30#8,
        0x31#8, 0x32#8, 0x33#8, 0x34#8, 0x40#8, 0x41#8, 0x42#8, 0x43#8, 0x44#8, 0x45#8, 0x46#8, 0x47#8] →
      step { s with inbox := .bytes (b :: r) :: q } = .refused .badSelector) ∧
    (b = 0x45#8 ∨ b = 0x46#8 → step { s with inbox := .bytes (b :: r) :: q } = .refused .notSerialized) ∧
    let badOperand := fun bs : List Byte => step { s with inbox := .bytes (bs ++ r) :: q } = .refused .badOperand
    (12 ≤ b.toNat → badOperand [0x01, b] ∧ badOperand [0x22, b]) ∧
    (16 ≤ b.toNat → badOperand [0x10, b] ∧ badOperand [0x20, b] ∧ badOperand [0x44, b]) ∧
    (1 < b.toNat → ∀ o1 o2 o3 o4 o5 : Byte,
      (badOperand [0x30, b] ∧ badOperand [0x30, o1, b]) ∧
      (badOperand [0x32, b] ∧ badOperand [0x32, o1, b] ∧ badOperand [0x32, o1, o2, b]) ∧
      badOperand [0x20, o1, o2, o3, o4, o5, b] ∧ badOperand [0x22, o1, b] ∧
      badOperand [0x40, b] ∧ badOperand [0x40, o1, b] ∧ badOperand [0x40, o1, o2, b] ∧
      badOperand [0x40, o1, o2, o3, b] ∧ badOperand [0x40, o1, o2, o3, o4, b])

/-- Derived from R93, R94 and the model's inbox (log 1): where the next request decodes to an operation, or is the
direct
call of one, the step is that operation on the state whose inbox holds what follows; with no request nothing changes. -/
def Obligations.StepRunsTheDecodedOperation : Prop :=
  ∀ (s : State) (i : Instr) (q : List Request), i.wf = true →
    (∀ bs rest, decode bs = .ok (i, rest) →
      step { s with inbox := .bytes bs :: q } = exec i { s with inbox := .bytes rest :: q }) ∧
    step { s with inbox := .call i :: q } = exec i { s with inbox := q } ∧
    step { s with inbox := [] } = .next { s with inbox := [] }

/-! ## Timing counters -/

/-- Derived from R110, R22, R24 and the spec's decisions D3, D6: SET_MODE selects the mode and resets CounterState,
whatever the current mode is, and touches nothing else; a mode with no record is refused. A mode has a record exactly
where TIMING supplies one that meets the six conditions of R24, in their order. -/
def Obligations.SetModeSelectsTheModeAndResetsTheCounters : Prop :=
  ∀ (m : VideoMode) (s : State),
    (∀ p, timingOf s.cfg m = some p →
      exec (.setMode m) s = .next { s with
        vdp := { s.vdp with
          curMode := m
          cs := ⟨0, 0, false, false, false, false, (s.vdp.reg 10).setWidth 32⟩ }
        result := .noResult }) ∧
    (timingOf s.cfg m = none → exec (.setMode m) s = .refused .modeUnsupported) ∧
    ∀ p : TimingParams,
      let jh := 1 + 0x1FF + p.hJumpTrigger - p.hTotal
      let jv := 1 + 0x1FF + p.vJumpTrigger - p.vTotal
      let inH := fun x : Nat => x < p.hJumpTrigger ∨ (jh ≤ x ∧ x ≤ 0x1FF)
      let inV := fun x : Nat => x < p.vJumpTrigger ∨ (jv ≤ x ∧ x ≤ 0x1FF)
      timingOf s.cfg m = some p ↔ s.cfg.timing.lookup m = some p ∧
        (1 ≤ p.hJumpTrigger ∧ p.hJumpTrigger ≤ 0x1FF ∧ p.hJumpTrigger + 1 ≤ p.hTotal ∧ p.hTotal ≤ 512) ∧
        (1 ≤ p.vJumpTrigger ∧ p.vJumpTrigger ≤ 0x1FF ∧ p.vJumpTrigger + 1 ≤ p.vTotal ∧ p.vTotal ≤ 512) ∧
        (inH p.hBlankSet ∧ inH p.hBlankClear ∧ inH p.vCounterIncrementOn ∧ inH (p.vCounterIncrementOn + 2) ∧ inH 2 ∧
          p.vCounterIncrementOn + 2 ≤ 0x1FF) ∧
        p.hBlankSet ≠ p.hBlankClear ∧
        (inV p.vBlankSet ∧ 1 ≤ p.vBlankSet ∧ p.vBlankSet < p.vJumpTrigger) ∧
        ((∀ k, k ≤ 2 → p.vCounterIncrementOn + k < p.hJumpTrigger) ∨ ∀ k, k ≤ 2 → jh ≤ p.vCounterIncrementOn + k)

/-- Derived from R111 and the spec's decision D5: RESET_COUNTERS writes every field of CounterState and nothing else
of the record. -/
def Obligations.ResetCountersClearsCounterState : Prop :=
  ∀ s : State, exec .resetCounters s = .next { s with
    vdp := { s.vdp with cs := ⟨0, 0, false, false, false, false, (s.vdp.reg 10).setWidth 32⟩ }
    result := .noResult }

/-- Derived from R112: ADVANCE_H completes, writes CounterState only, and returns the new `h_counter`. -/
def Obligations.AdvanceHWritesCounterStateOnly : Prop :=
  ∀ (s : State) (p : TimingParams), paramsOf s = some p → ∃ cs : CounterState,
    exec .advanceH s = .next { s with
      vdp := { s.vdp with cs := cs }
      result := .counter (cs.hCounter.setWidth 16) }

/-- Derived from R113, R24: the horizontal counter is incremented under the mask 0x1FF; on the jump trigger it takes
the jump target, which
lies in `[h_jump_trigger, 0x1FF]`. R113 adds that the trigger is never held; that is so where the target differs from
it,
for `h_total < 512`, and the last clause says it there. -/
def Obligations.HorizontalCounterStepsAndJumps : Prop :=
  ∀ (s : State) (p : TimingParams), paramsOf s = some p → ∃ t, exec .advanceH s = .next t ∧
    t.vdp.cs.hCounter.toNat =
      (if (s.vdp.cs.hCounter.toNat + 1) % 512 = p.hJumpTrigger then 1 + 0x1FF + p.hJumpTrigger - p.hTotal
       else (s.vdp.cs.hCounter.toNat + 1) % 512) ∧
    p.hJumpTrigger ≤ 1 + 0x1FF + p.hJumpTrigger - p.hTotal ∧ 1 + 0x1FF + p.hJumpTrigger - p.hTotal ≤ 0x1FF ∧
    (p.hTotal < 512 → t.vdp.cs.hCounter.toNat ≠ p.hJumpTrigger)

/-- R114: the horizontal blank flag changes only where the new `h` is one of the two thresholds. -/
def Obligations.HorizontalBlankFlagFollowsItsThresholds : Prop :=
  ∀ (s : State) (p : TimingParams), paramsOf s = some p → ∃ t, exec .advanceH s = .next t ∧
    t.vdp.cs.hBlankSet =
      (if t.vdp.cs.hCounter.toNat = p.hBlankClear then false
       else if t.vdp.cs.hCounter.toNat = p.hBlankSet then true
       else s.vdp.cs.hBlankSet)

/-- R115: the vertical step and the vertical blank flag, only where the new `h` is `v_counter_increment_on`. -/
def Obligations.VerticalCounterStepsAndSetsItsBlankFlag : Prop :=
  ∀ (s : State) (p : TimingParams), paramsOf s = some p → ∃ t, exec .advanceH s = .next t ∧
    (t.vdp.cs.hCounter.toNat ≠ p.vCounterIncrementOn →
      t.vdp.cs.vCounter = s.vdp.cs.vCounter ∧ t.vdp.cs.vBlankSet = s.vdp.cs.vBlankSet) ∧
    (t.vdp.cs.hCounter.toNat = p.vCounterIncrementOn →
      t.vdp.cs.vCounter.toNat =
        (if (s.vdp.cs.vCounter.toNat + 1) % 512 = p.vJumpTrigger then 1 + 0x1FF + p.vJumpTrigger - p.vTotal
         else (s.vdp.cs.vCounter.toNat + 1) % 512) ∧
      t.vdp.cs.vBlankSet =
        (if t.vdp.cs.vCounter.toNat = 0x1FF then false
         else if t.vdp.cs.vCounter.toNat = p.vBlankSet then true
         else s.vdp.cs.vBlankSet))

/-- R116, R117: at `h = v_counter_increment_on + 2` the countdown falls on the lines up to `v_blank_set`, then HINT
fires
where it is -1 on a line past 0, then it is reloaded; elsewhere neither changes. -/
def Obligations.LineCountdownFiresHintAndReloads : Prop :=
  ∀ (s : State) (p : TimingParams), paramsOf s = some p → ∃ t, exec .advanceH s = .next t ∧
    (t.vdp.cs.hCounter.toNat ≠ p.vCounterIncrementOn + 2 →
      t.vdp.cs.hLinePassed = s.vdp.cs.hLinePassed ∧ t.vdp.cs.hIntPending = s.vdp.cs.hIntPending) ∧
    (t.vdp.cs.hCounter.toNat = p.vCounterIncrementOn + 2 →
      ∃ passed : BitVec 32,
        passed = (if t.vdp.cs.vCounter.toNat ≤ p.vBlankSet then s.vdp.cs.hLinePassed - 1 else s.vdp.cs.hLinePassed) ∧
        (0 < t.vdp.cs.vCounter.toNat ∧ passed = -1 →
          t.vdp.cs.hIntPending = true ∧ t.vdp.cs.hLinePassed = (s.vdp.reg 10).setWidth 32) ∧
        (¬(0 < t.vdp.cs.vCounter.toNat ∧ passed = -1) →
          t.vdp.cs.hIntPending = s.vdp.cs.hIntPending ∧
          t.vdp.cs.hLinePassed =
            (if t.vdp.cs.vCounter = 0 ∨ p.vBlankSet < t.vdp.cs.vCounter.toNat then (s.vdp.reg 10).setWidth 32
             else passed)))

/-- R118: VINT is set where the new `(h, v)` is `(2, v_blank_set)`, whatever the HINT state and the enables are, and is
otherwise left alone. -/
def Obligations.VintIsSetAtTheVblankLine : Prop :=
  ∀ (s : State) (p : TimingParams), paramsOf s = some p → ∃ t, exec .advanceH s = .next t ∧
    t.vdp.cs.vIntPending =
      (s.vdp.cs.vIntPending || decide (t.vdp.cs.hCounter = 2 ∧ t.vdp.cs.vCounter.toNat = p.vBlankSet))

/-- Derived from R25: no operation but a replacement of the record makes `v_int_pending` true except at
`(h, v) = (2, v_blank_set)`. A run of several ticks is left out: it may pass that point. -/
def Obligations.VintRisesOnlyAtTheVblankLine : Prop :=
  ∀ (i : Instr) (s t : State), exec i s = .next t → replacesRecord i = false →
    (∀ n a b c d e, i ≠ .ticks n a b c d e) → s.vdp.cs.vIntPending = false → t.vdp.cs.vIntPending = true →
    t.vdp.cs.hCounter = 2 ∧ ∃ p, paramsOf t = some p ∧ t.vdp.cs.vCounter.toNat = p.vBlankSet

/-- Derived from R120: from `(0, 0)` the counters come back to `(0, 0)` after exactly `h_total * v_total` calls of
ADVANCE_H, and not before, for every well-formed timing record. -/
def Obligations.CountersReturnAfterExactlyOneFrame : Prop :=
  ∀ (s : State) (p : TimingParams), paramsOf s = some p → s.vdp.cs.hCounter = 0 → s.vdp.cs.vCounter = 0 →
    (∃ t, repeatOp (p.hTotal * p.vTotal) .advanceH s = .next t ∧ t.vdp.cs.hCounter = 0 ∧ t.vdp.cs.vCounter = 0) ∧
    ∀ (n : Nat) (t : State), 0 < n → n < p.hTotal * p.vTotal → repeatOp n .advanceH s = .next t →
      ¬(t.vdp.cs.hCounter = 0 ∧ t.vdp.cs.vCounter = 0)

/-! ## FIFO -/

/-- Derived from R140 and the spec's decisions D22, D27: the mode check, then the full test against the threshold,
then the entry behind the newest. -/
def Obligations.FifoPushQueuesOrReportsFull : Prop :=
  ∀ (m : AccessMode) (a d : Word) (s : State),
    (m ∉ [0b0001#4, 0b0011#4, 0b0101#4] → exec (.fifoPush m a d) s = .fault .badRamMode) ∧
    (m ∈ [0b0001#4, 0b0011#4, 0b0101#4] → s.cfg.fifoThreshold ≤ s.vdp.fifo.count →
      exec (.fifoPush m a d) s = .next { s with
        vdp := { s.vdp with log := s.vdp.log ++ [.fifoFull] }
        result := .full }) ∧
    (m ∈ [0b0001#4, 0b0011#4, 0b0101#4] → s.vdp.fifo.count < s.cfg.fifoThreshold →
      exec (.fifoPush m a d) s = .next { s with
        vdp := { s.vdp with
          fifo := { s.vdp.fifo with
            slots := s.vdp.fifo.slots.set ((s.vdp.fifo.head + s.vdp.fifo.count) % s.cfg.fifoCapacity) ⟨m, a, d⟩
            count := s.vdp.fifo.count + 1 } }
        result := .ok })

/-- R141: the oldest entry leaves and the head wraps at FIFO_CAPACITY; an empty queue answers `None`. -/
def Obligations.FifoPopTakesTheHeadEntry : Prop :=
  ∀ s : State,
    (s.vdp.fifo.count = 0 → exec .fifoPop s = .next { s with result := .absent }) ∧
    ∀ e : FifoEntry, s.vdp.fifo.count ≠ 0 → s.vdp.fifo.slots[s.vdp.fifo.head]? = some e →
      exec .fifoPop s = .next { s with
        vdp := { s.vdp with
          fifo := { s.vdp.fifo with
            head := (s.vdp.fifo.head + 1) % s.cfg.fifoCapacity
            count := s.vdp.fifo.count - 1 } }
        result := .entry e }

/-- Derived from R35, R148: under the FIFO's invariants the circular buffer is an ordered queue: a push adds its entry
behind the queued entries and a pop takes the first of them, and each keeps the invariants. -/
def Obligations.FifoBufferIsAnOrderedQueue : Prop :=
  ∀ (s : State), configWf s.cfg = true → fifoValid s.cfg s.vdp.fifo = true →
    (∀ (m : AccessMode) (a d : Word), isWriteCode m = true → s.vdp.fifo.count < s.cfg.fifoThreshold →
      ∃ t, exec (.fifoPush m a d) s = .next t ∧
        queuedEntries t.cfg t.vdp.fifo = queuedEntries s.cfg s.vdp.fifo ++ [⟨m, a, d⟩] ∧
        fifoValid t.cfg t.vdp.fifo = true) ∧
    (0 < s.vdp.fifo.count →
      ∃ t e, exec .fifoPop s = .next t ∧ t.result = .entry e ∧
        queuedEntries s.cfg s.vdp.fifo = e :: queuedEntries t.cfg t.vdp.fifo ∧ fifoValid t.cfg t.vdp.fifo = true)

/-- Derived from R145, R146 and the spec's decision D28: nothing is drained while a transfer exists or from an empty
queue; otherwise the head entry leaves and its
word is written to the memory its mode names. -/
def Obligations.DrainWritesTheHeadEntryUnlessGated : Prop :=
  ∀ s : State,
    (s.vdp.dma ≠ none ∨ s.vdp.fifo.count = 0 → exec .fifoDrainOne s = .next { s with result := .bool false }) ∧
    ∀ (e : FifoEntry) (g : Target), s.vdp.dma = none → s.vdp.fifo.count ≠ 0 →
      s.vdp.fifo.slots[s.vdp.fifo.head]? = some e → writeTargetOf e.ramMode = some g →
      exec .fifoDrainOne s = .next { s with
        vdp := writeTarget s.cfg g e.address e.data { s.vdp with
          fifo := { s.vdp.fifo with
            head := (s.vdp.fifo.head + 1) % s.cfg.fifoCapacity
            count := s.vdp.fifo.count - 1 } }
        result := .bool true }

/-- Derived from R62, R63, R145 and the spec's decisions D19, D28: a drained VRAM entry puts its high byte at `a` and
its low byte at `a ^ 1`; every other
byte of VRAM, and all of CRAM and VSRAM, reads as before. -/
def Obligations.DrainedVramWordPutsItsHighByteAtTheAddress : Prop :=
  ∀ (s : State) (a d : Word), s.vdp.dma = none → s.vdp.fifo.count ≠ 0 →
    s.vdp.fifo.slots[s.vdp.fifo.head]? = some ⟨0b0001#4, a, d⟩ →
    ∃ t, exec .fifoDrainOne s = .next t ∧
      t.vdp.vram.read a.toNat = d.extractLsb' 8 8 ∧ t.vdp.vram.read (a ^^^ 1#16).toNat = d.extractLsb' 0 8 ∧
      (∀ k, k ≠ a.toNat → k ≠ (a ^^^ 1#16).toNat → t.vdp.vram.read k = s.vdp.vram.read k) ∧
      (∀ k, t.vdp.cram.read k = s.vdp.cram.read k) ∧ ∀ k, t.vdp.vsram.read k = s.vdp.vsram.read k

/-- Derived from R66, R145 and the spec's decisions D24, D28: a drained CRAM or VSRAM entry puts its high byte at the
reduced even offset and its low byte
next to it; a VSRAM word at or beyond VSRAM_SIZE is dropped; every other byte reads as before. -/
def Obligations.DrainedColourAndScrollWordsLandAtTheirOffset : Prop :=
  ∀ (s : State) (m : AccessMode) (a d : Word), s.vdp.dma = none → s.vdp.fifo.count ≠ 0 →
    s.vdp.fifo.slots[s.vdp.fifo.head]? = some ⟨m, a, d⟩ →
    (m = 0b0011#4 → ∃ t, exec .fifoDrainOne s = .next t ∧
      (let off := (a &&& BitVec.ofNat 16 (s.cfg.cramSize - 1) &&& 0xFFFE#16).toNat
       t.vdp.cram.read off = d.extractLsb' 8 8 ∧ t.vdp.cram.read (off + 1) = d.extractLsb' 0 8 ∧
         ∀ k, k ≠ off → k ≠ off + 1 → t.vdp.cram.read k = s.vdp.cram.read k) ∧
      (∀ k, t.vdp.vram.read k = s.vdp.vram.read k) ∧ ∀ k, t.vdp.vsram.read k = s.vdp.vsram.read k) ∧
    (m = 0b0101#4 → ∃ t, exec .fifoDrainOne s = .next t ∧
      (let off := (a &&& 0x7E#16).toNat
       (off < s.cfg.vsramSize →
          t.vdp.vsram.read off = d.extractLsb' 8 8 ∧ t.vdp.vsram.read (off + 1) = d.extractLsb' 0 8 ∧
          ∀ k, k ≠ off → k ≠ off + 1 → t.vdp.vsram.read k = s.vdp.vsram.read k) ∧
        (s.cfg.vsramSize ≤ off → ∀ k, t.vdp.vsram.read k = s.vdp.vsram.read k)) ∧
      (∀ k, t.vdp.vram.read k = s.vdp.vram.read k) ∧ ∀ k, t.vdp.cram.read k = s.vdp.cram.read k)

/-! ## DMA -/

/-- R168: the length falls by 1 under the 16-bit mask, 0 giving 0xFFFF; nothing else changes. -/
def Obligations.DecreaseLengthWrapsAtZero : Prop :=
  ∀ (len : Word) (s : State), exec (.decreaseLength len) s =
    .next { s with result := .length (if len = 0 then 0xFFFF else BitVec.ofNat 16 (len.toNat - 1)) }

/-- R156: the mode selection, row by row. -/
def Obligations.ModeSelectionFollowsTheTable : Prop :=
  ∀ m : AccessMode, selectMode 0b11 m = some .vramCopy ∧
    selectMode 0b10 m = (if m = 0b0001 then some .vramFill else none) ∧
    selectMode 0b00 m = (if m = 0b0001 ∨ m = 0b0011 ∨ m = 0b0101 then some .memToVram else none) ∧
    selectMode 0b01 m = selectMode 0b00 m

/-- Derived from R156, R158, R159; that a row of the selection is an operation of its own is the model's choice (log
17).
A row that selects a mode returns it and changes nothing else; the configuration-error row logs and clears the pending
mode, and faults while a transfer exists. -/
def Obligations.SelectionRowsReturnTheirMode : Prop :=
  (∀ (s : State) (m : AccessMode) (c : Bool),
    exec (.dmaCopy m) s = .next { s with result := .dmaMode .vramCopy } ∧
    exec .dmaFill s = .next { s with result := .dmaMode .vramFill } ∧
    exec (.dmaMem2VramVram c) s = .next { s with result := .dmaMode .memToVram } ∧
    exec (.dmaMem2VramCram c) s = .next { s with result := .dmaMode .memToVram } ∧
    exec (.dmaMem2VramVsram c) s = .next { s with result := .dmaMode .memToVram }) ∧
  ∀ (code : BitVec 2) (m : AccessMode) (s : State), selectMode code m = none →
    (s.vdp.dma = none → exec (.dmaConfigError code m) s = .next { s with
      vdp := { s.vdp with log := s.vdp.log ++ [.dmaConfigError], dma := none, dmaBusy := false }
      result := .absent }) ∧
    (s.vdp.dma ≠ none → exec (.dmaConfigError code m) s = .fault .setupWhileBusy)

/-- Derived from R155, R157, R158 and the spec's decisions D22, D36, D37: busy faults; `m1` false is logged and
declines; an error is logged and clears the pending mode;
otherwise the selected mode's transfer starts at the destination of the command word (R89). -/
def Obligations.DmaSetupDeclinesErrsOrStarts : Prop :=
  ∀ (m : AccessMode) (cmd : Command) (m1 : Bool) (s : State),
    (s.vdp.dma ≠ none → exec (.dmaSetup m cmd m1) s = .fault .setupWhileBusy) ∧
    (s.vdp.dma = none → m1 = false → exec (.dmaSetup m cmd m1) s = .next { s with
      vdp := { s.vdp with log := s.vdp.log ++ [.dmaDeclined] }
      result := .absent }) ∧
    (s.vdp.dma = none → m1 = true → selectMode ((s.vdp.reg 23).extractLsb' 6 2) m = none →
      exec (.dmaSetup m cmd m1) s = .next { s with
        vdp := { s.vdp with log := s.vdp.log ++ [.dmaConfigError], dma := none, dmaBusy := false }
        result := .absent }) ∧
    ∀ mode, s.vdp.dma = none → m1 = true → selectMode ((s.vdp.reg 23).extractLsb' 6 2) m = some mode →
      exec (.dmaSetup m cmd m1) s = .next { s with
        vdp := { s.vdp with
          dma := some
            { mode := mode
              destAddress := cmd.extractLsb' 0 2 ++ cmd.extractLsb' 16 14
              destRamType :=
                if mode = .memToVram ∧ m = 0b0011 then .cram else if mode = .memToVram ∧ m = 0b0101 then .vsram else .vram
              fillData := none
              fillStarted := false }
          dmaBusy := true }
        result := .dmaMode mode }

/-- Derived from R160 and the spec's decisions D20, D22: the write that starts a fill stores the high byte at `dest ^
1`, holds the fill word, and changes nothing else;
it faults where no fill waits. -/
def Obligations.FillStartWritesOneByteAndHoldsTheWord : Prop :=
  ∀ (d : Word) (s : State),
    (∀ tr, s.vdp.dma = some tr → tr.mode = .vramFill → tr.fillStarted = false → ∃ vram,
      exec (.dmaFillStart d) s = .next { s with
        vdp := { s.vdp with vram := vram, dma := some { tr with fillData := some d, fillStarted := true } }
        result := .noResult } ∧
      ∀ k, vram.read k =
        if k = (tr.destAddress ^^^ 1#16).toNat then d.extractLsb' 8 8 else s.vdp.vram.read k) ∧
    (s.vdp.dma = none → exec (.dmaFillStart d) s = .fault .noFillTransfer) ∧
    ∀ tr, s.vdp.dma = some tr → (tr.mode ≠ .vramFill ∨ tr.fillStarted = true) →
      exec (.dmaFillStart d) s = .fault .noFillTransfer

/-- Derived from R161, R162 and the spec's decisions D21, D38: with no transfer DO_DMA answers true, with an armed
fill it
answers false, and neither changes anything; an armed fill does not stall the primary CPU. -/
def Obligations.DoDmaWithoutWorkChangesNothing : Prop :=
  ∀ (m : VideoMode) (b : Bool) (s : State),
    (s.vdp.dma = none → exec (.doDma m b) s = .next { s with result := .bool true }) ∧
    ∀ tr, s.vdp.dma = some tr → tr.mode = .vramFill → tr.fillStarted = false →
      exec (.doDma m b) s = .next { s with result := .bool false } ∧ cpuStall s.vdp = false

/-- Derived from R162 to R166, R168 to R170, R174 and the spec's decisions D18, D24, D26: a running transfer performs
`k` units, the smaller of
`floor(SLOT_BUDGET / cost)` and the units its length asks for (0 asks for 0x10000). The length falls by `k`, the low
source
word rises by `k`, the destination by `k` times AUTO_INC; the transfer ends exactly where its length is used up. Nothing
outside the memories, registers 19 to 22, the transfer and the result changes. -/
def Obligations.DoDmaRunsUnitsUntilTheLengthIsUsedUp : Prop :=
  ∀ (m : VideoMode) (b : Bool) (s : State) (tr : Transfer), s.vdp.dma = some tr →
    (tr.mode = .vramFill → tr.fillStarted = true) →
    let units := slotBudget s.cfg m.hRes b tr.mode / (if tr.mode = .memToVram then 2 else 1)
    let asked := unitsAsked (s.vdp.reg 20 ++ s.vdp.reg 19)
    let k := min units asked
    ∃ t, exec (.doDma m b) s = .next t ∧
      t.vdp.reg 20 ++ t.vdp.reg 19 = BitVec.ofNat 16 (asked - k) ∧
      t.vdp.reg 22 ++ t.vdp.reg 21 = (s.vdp.reg 22 ++ s.vdp.reg 21) + BitVec.ofNat 16 k ∧
      (asked ≤ units → t.vdp.dma = none ∧ t.vdp.dmaBusy = false ∧ t.result = .bool true) ∧
      (units < asked →
        t.vdp.dma = some { tr with destAddress := tr.destAddress + BitVec.ofNat 16 (k * (s.vdp.reg 15).toNat) } ∧
        t.vdp.dmaBusy = s.vdp.dmaBusy ∧ t.result = .bool false) ∧
      (∀ r : Fin numRegs, r ∉ [19, 20, 21, 22] → t.vdp.reg r = s.vdp.reg r) ∧
      t.vdp.cs = s.vdp.cs ∧ t.vdp.curMode = s.vdp.curMode ∧ t.vdp.fifo = s.vdp.fifo ∧ t.vdp.prim = s.vdp.prim ∧
      t.vdp.cop = s.vdp.cop ∧ t.vdp.frameExpired = s.vdp.frameExpired ∧
      t.vdp.copTriggerLine = s.vdp.copTriggerLine ∧ t.vdp.log = s.vdp.log ∧ t.cpuCalls = s.cpuCalls

/-- Derived from R162, R164, R170 to R173: unit `j` of a call writes at the destination plus `j` times AUTO_INC, and the
call writes nothing else: one VRAM byte of a fill or a copy, one word of the target memory of a MemToVram. A fill's byte
is the low byte of its fill word. -/
def Obligations.DmaUnitsWriteTheirDestinationsOnly : Prop :=
  ∀ (m : VideoMode) (b : Bool) (s : State) (tr : Transfer), s.vdp.dma = some tr →
    (tr.mode = .vramFill → tr.fillStarted = true) →
    let units := slotBudget s.cfg m.hRes b tr.mode / (if tr.mode = .memToVram then 2 else 1)
    let k := min units (unitsAsked (s.vdp.reg 20 ++ s.vdp.reg 19))
    let dest := fun j : Nat => tr.destAddress + BitVec.ofNat 16 (j * (s.vdp.reg 15).toNat)
    ∃ t, exec (.doDma m b) s = .next t ∧
      (∀ d, tr.mode = .vramFill → tr.fillData = some d →
        ∀ j, j < k → t.vdp.vram.read (dest j).toNat = d.extractLsb' 0 8) ∧
      (∀ a, (∀ j, j < k → tr.mode = .memToVram → tr.destRamType = .vram →
          a ≠ (dest j).toNat ∧ a ≠ (dest j ^^^ 1#16).toNat) →
        (∀ j, j < k → tr.mode ≠ .memToVram → a ≠ (dest j).toNat) →
        t.vdp.vram.read a = s.vdp.vram.read a) ∧
      (∀ a, (∀ j, j < k → tr.mode = .memToVram → tr.destRamType = .cram →
          a ≠ cramOffset s.cfg (dest j) ∧ a ≠ cramOffset s.cfg (dest j) + 1) →
        t.vdp.cram.read a = s.vdp.cram.read a) ∧
      ∀ a, (∀ j, j < k → tr.mode = .memToVram → tr.destRamType = .vsram → vsramOffset (dest j) < s.cfg.vsramSize →
          a ≠ vsramOffset (dest j) ∧ a ≠ vsramOffset (dest j) + 1) →
        t.vdp.vsram.read a = s.vdp.vsram.read a

/-- Derived from R162, R164, R166, R169, R170, R172, R174 and the spec's decisions D18, D24, D25: a call runs `k`
units, the
smaller of the slot budget (a copy's unit costs 1 slot) and the units the length asks for (0 asks for 0x10000). Each
unit
of a VRAM copy moves the byte at `reg[22] :: reg[21]`, which rises by 1 a unit, to the destination, which rises by
AUTO_INC
under the 16-bit mask, one byte after the other, and changes no other byte of VRAM; `v j` is VRAM before unit `j`.
Register
23 is unchanged. -/
def Obligations.CopyUnitsMoveOneByteEach : Prop :=
  ∀ (m : VideoMode) (b : Bool) (s : State) (tr : Transfer), s.vdp.dma = some tr → tr.mode = .vramCopy →
    let k := min (slotBudget s.cfg m.hRes b .vramCopy) (unitsAsked (s.vdp.reg 20 ++ s.vdp.reg 19))
    ∃ (t : State) (v : Nat → Memory), exec (.doDma m b) s = .next t ∧ v 0 = s.vdp.vram ∧ t.vdp.vram = v k ∧
      (∀ j a, j < k → (v (j + 1)).read a =
        if a = (tr.destAddress + BitVec.ofNat 16 (j * (s.vdp.reg 15).toNat)).toNat then
          (v j).read ((s.vdp.reg 22 ++ s.vdp.reg 21) + BitVec.ofNat 16 j).toNat
        else (v j).read a) ∧
      t.vdp.reg 22 ++ t.vdp.reg 21 = (s.vdp.reg 22 ++ s.vdp.reg 21) + BitVec.ofNat 16 k ∧ t.vdp.reg 23 = s.vdp.reg 23

/-- Derived from R162, R166, R169, R170, R173, R174 and the spec's decisions D18, D24, D26: each unit of a MemToVram
reads the bus at `(reg[23][6:0] :: reg[22] :: reg[21]) << 1`, whose low word rises by 1 a unit, and writes the word to
the
transfer's memory at its destination, which rises by AUTO_INC under the 16-bit mask; `w j` is the record whose memories
unit `j` finds. The word is a free value, fresh at each read: its form as draw `s.draws + j` is the model's choice
(log 5).
Register 23 is unchanged. -/
def Obligations.MemUnitsWriteTheBusWords : Prop :=
  ∀ (m : VideoMode) (b : Bool) (s : State) (tr : Transfer), s.vdp.dma = some tr → tr.mode = .memToVram →
    let k := min (slotBudget s.cfg m.hRes b .memToVram / 2) (unitsAsked (s.vdp.reg 20 ++ s.vdp.reg 19))
    let dest := fun j : Nat => tr.destAddress + BitVec.ofNat 16 (j * (s.vdp.reg 15).toNat)
    let word := fun j : Nat => Config.busRead16 (s.draws + j)
      ((s.vdp.reg 23).extractLsb' 0 7 ++ ((s.vdp.reg 22 ++ s.vdp.reg 21) + BitVec.ofNat 16 j) ++ 0#1)
    ∃ (t : State) (w : Nat → Record), exec (.doDma m b) s = .next t ∧ w 0 = s.vdp ∧
      t.vdp.vram = (w k).vram ∧ t.vdp.cram = (w k).cram ∧ t.vdp.vsram = (w k).vsram ∧
      (∀ j, j < k → w (j + 1) = writeTarget s.cfg tr.destRamType (dest j) (word j) (w j)) ∧
      t.vdp.reg 22 ++ t.vdp.reg 21 = (s.vdp.reg 22 ++ s.vdp.reg 21) + BitVec.ofNat 16 k ∧ t.vdp.reg 23 = s.vdp.reg 23

/-- Derived from R175, R163: no operation but a replacement of the record ends a transfer before its length is 0. -/
def Obligations.TransfersEndOnlyWithTheirLength : Prop :=
  ∀ (i : Instr) (s t : State), exec i s = .next t → replacesRecord i = false → s.vdp.dma ≠ none → t.vdp.dma = none →
    mayRunUnits i = true ∧ t.vdp.reg 20 ++ t.vdp.reg 19 = (0 : Word)

/-! ## Interrupt arbiter -/

/-- Derived from R191 and the spec's decision D8: VINT pending and enabled gives 6, else HINT pending and enabled
gives 4, else 0; nothing changes. -/
def Obligations.PrimaryLevelPutsVintFirst : Prop :=
  ∀ s : State, exec .primaryLevel s = .next { s with
    result := .level (
      if s.vdp.cs.vIntPending = true ∧ (s.vdp.reg 1).getLsbD 5 = true then 6
      else if s.vdp.cs.hIntPending = true ∧ (s.vdp.reg 0).getLsbD 4 = true then 4
      else 0) }

/-- Derived from R190, R194 and the spec's decisions D10, D11, D13: one poll of the primary channel makes at most one
transition and asks the CPU only in PENDING, with a
level and a running CPU. -/
def Obligations.PrimaryPollMakesOneTransition : Prop :=
  ∀ (acc stp : Bool) (s : State), ∃ c calls,
    exec (.pollPrimary acc stp) s = .next { s with
      vdp := { s.vdp with prim := c }
      cpuCalls := s.cpuCalls ++ calls
      result := .noResult } ∧
    (s.vdp.prim = .none → levelNow s.vdp = 0 → c = .none ∧ calls = []) ∧
    (s.vdp.prim = .none → levelNow s.vdp ≠ 0 → c = .pending ∧ calls = []) ∧
    (s.vdp.prim = .pending → levelNow s.vdp = 0 → c = .none ∧ calls = []) ∧
    (s.vdp.prim = .pending → levelNow s.vdp ≠ 0 → stp = true → c = .pending ∧ calls = []) ∧
    (s.vdp.prim = .pending → levelNow s.vdp ≠ 0 → stp = false →
      c = (if acc then .asserted else .pending) ∧ calls = [.raiseInterrupt (levelNow s.vdp)]) ∧
    (s.vdp.prim = .asserted → c = .asserted ∧ calls = []) ∧
    (s.vdp.prim = .acked → c = .none ∧ calls = [])

/-- Derived from R192, the spec's decision D12 and log 14: an ack of level 6 or 4 clears that flag in every channel
state and moves ASSERTED to ACKED; any other level is
logged and has no other effect. -/
def Obligations.AckClearsTheFlagOfItsLevel : Prop :=
  ∀ (l : Byte) (s : State),
    (l = 6 → exec (.ackPrimary l) s = .next { s with
      vdp := { s.vdp with
        cs := { s.vdp.cs with vIntPending := false }
        prim := if s.vdp.prim = .asserted then .acked else s.vdp.prim }
      result := .noResult }) ∧
    (l = 4 → exec (.ackPrimary l) s = .next { s with
      vdp := { s.vdp with
        cs := { s.vdp.cs with hIntPending := false }
        prim := if s.vdp.prim = .asserted then .acked else s.vdp.prim }
      result := .noResult }) ∧
    (l ≠ 6 → l ≠ 4 → exec (.ackPrimary l) s = .next { s with
      vdp := { s.vdp with log := s.vdp.log ++ [.ackIgnored] }
      result := .noResult })

/-- Derived from R193: a pending request that every poll declines stays PENDING, and the next accepted poll asserts
it. -/
def Obligations.MaskedRequestStaysPendingUntilAccepted : Prop :=
  ∀ (n : Nat) (stp : Bool) (s : State), s.vdp.prim = .pending → levelNow s.vdp ≠ 0 →
    ∃ t u, repeatOp n (.pollPrimary false stp) s = .next t ∧ t.vdp = s.vdp ∧
      exec (.pollPrimary true false) t = .next u ∧ u.vdp = { s.vdp with prim := .asserted }

/-- Derived from R195, R196 and the spec's decisions D9, D10, D13, D14: one poll of the coprocessor channel makes at
most one transition; the latch is set when the request is made;
`interrupt(true)` is called only in PENDING on the trigger line with a running CPU, `interrupt(false)` only on leaving
ASSERTED. -/
def Obligations.CoprocessorPollMakesOneTransition : Prop :=
  ∀ (acc stp en : Bool) (s : State), ∃ c f calls,
    exec (.pollCoprocessor acc stp en) s = .next { s with
      vdp := { s.vdp with cop := c, frameExpired := f }
      cpuCalls := s.cpuCalls ++ calls
      result := .noResult } ∧
    (s.vdp.cop = .none →
      (s.vdp.cs.vCounter = s.vdp.copTriggerLine ∧ s.vdp.frameExpired = false ∧ en = true →
        c = .pending ∧ f = true ∧ calls = []) ∧
      (¬(s.vdp.cs.vCounter = s.vdp.copTriggerLine ∧ s.vdp.frameExpired = false ∧ en = true) →
        c = .none ∧ f = s.vdp.frameExpired ∧ calls = [])) ∧
    (s.vdp.cop ≠ .none → f = s.vdp.frameExpired) ∧
    (s.vdp.cop = .pending → s.vdp.cs.vCounter ≠ s.vdp.copTriggerLine → c = .none ∧ calls = []) ∧
    (s.vdp.cop = .pending → s.vdp.cs.vCounter = s.vdp.copTriggerLine → stp = true → c = .pending ∧ calls = []) ∧
    (s.vdp.cop = .pending → s.vdp.cs.vCounter = s.vdp.copTriggerLine → stp = false →
      c = (if acc then .asserted else .pending) ∧ calls = [.interrupt true]) ∧
    (s.vdp.cop = .asserted → s.vdp.cs.vCounter = s.vdp.copTriggerLine → c = .asserted ∧ calls = []) ∧
    (s.vdp.cop = .asserted → s.vdp.cs.vCounter ≠ s.vdp.copTriggerLine → c = .acked ∧ calls = [.interrupt false]) ∧
    (s.vdp.cop = .acked → c = .none ∧ calls = [])

/-- Derived from R198, R199: with the latch set, no operation but a new frame (or a replacement of the record) clears
it,
and none makes the channel PENDING. A tick may start a frame, but only after its poll; a run of ticks may do both. -/
def Obligations.CoprocessorFiresAtMostOnceAFrame : Prop :=
  ∀ (i : Instr) (s t : State), exec i s = .next t → replacesRecord i = false →
    (∀ n a b c d e, i ≠ .ticks n a b c d e) → s.vdp.frameExpired = true →
    (t.vdp.cop = .pending → s.vdp.cop = .pending) ∧
    (i ≠ .newFrame → (∀ a b c d e, i ≠ .tick a b c d e) → t.vdp.frameExpired = true)

/-- Derived from R197 and the spec's decision D15: a new frame clears the latch and takes the current mode's
`v_blank_set` as the trigger line; the channel keeps
its state. -/
def Obligations.NewFrameClearsTheLatchAndSetsTheLine : Prop :=
  ∀ (s : State) (p : TimingParams), paramsOf s = some p →
    exec .newFrame s = .next { s with
      vdp := { s.vdp with frameExpired := false, copTriggerLine := BitVec.ofNat 9 p.vBlankSet }
      result := .noResult } ∧
    (BitVec.ofNat 9 p.vBlankSet).toNat = p.vBlankSet

/-- R200: the channels are independent. What a poll does to its channel, and the calls it makes, are fixed by what
R200 says
that channel reads, whatever the rest of the state is, and a poll writes nothing of the other channel, no register and
no
pending flag; an ack does not touch the coprocessor channel. -/
def Obligations.ChannelsAreIndependent : Prop :=
  (∀ (acc stp : Bool) (s u : State), s.vdp.prim = u.vdp.prim → s.vdp.cs.vIntPending = u.vdp.cs.vIntPending →
    s.vdp.cs.hIntPending = u.vdp.cs.hIntPending → vie s.vdp = vie u.vdp → hie s.vdp = hie u.vdp → ∃ c calls,
      exec (.pollPrimary acc stp) s = .next { s with
        vdp := { s.vdp with prim := c }, cpuCalls := s.cpuCalls ++ calls, result := .noResult } ∧
      exec (.pollPrimary acc stp) u = .next { u with
        vdp := { u.vdp with prim := c }, cpuCalls := u.cpuCalls ++ calls, result := .noResult }) ∧
  (∀ (acc stp en : Bool) (s u : State), s.vdp.cop = u.vdp.cop → s.vdp.cs.vCounter = u.vdp.cs.vCounter →
    s.vdp.copTriggerLine = u.vdp.copTriggerLine → s.vdp.frameExpired = u.vdp.frameExpired → ∃ c f calls,
      exec (.pollCoprocessor acc stp en) s = .next { s with
        vdp := { s.vdp with cop := c, frameExpired := f }, cpuCalls := s.cpuCalls ++ calls, result := .noResult } ∧
      exec (.pollCoprocessor acc stp en) u = .next { u with
        vdp := { u.vdp with cop := c, frameExpired := f }, cpuCalls := u.cpuCalls ++ calls, result := .noResult }) ∧
  ∀ (l : Byte) (s : State), ∃ t, exec (.ackPrimary l) s = .next t ∧ t.vdp.cop = s.vdp.cop ∧
    t.vdp.frameExpired = s.vdp.frameExpired ∧ t.vdp.copTriggerLine = s.vdp.copTriggerLine

/-! ## Tick and ports -/

/-- Derived from R220, R221 and the spec's decisions D15, D16, D17: a tick is the primary poll, the coprocessor poll,
ADVANCE_H, NEW_FRAME where `v` became 0, one drain, and
DO_DMA on the line-boundary tick where a transfer exists, in this order; under the invariant it completes. -/
def Obligations.TickIsItsSubStepsInOrder : Prop :=
  ∀ (a0 s0 a1 s1 e : Bool) (s : State),
    (StateInv s → ∃ t, exec (.tick a0 s0 a1 s1 e) s = .next t) ∧
    ∀ t, exec (.tick a0 s0 a1 s1 e) s = .next t ↔
      ∃ p u1 u2 u3 u4 u5 u6, paramsOf s = some p ∧ exec (.pollPrimary a0 s0) s = .next u1 ∧
        exec (.pollCoprocessor a1 s1 e) u1 = .next u2 ∧ exec .advanceH u2 = .next u3 ∧
        (if u3.vdp.cs.vCounter = 0 ∧ u2.vdp.cs.vCounter ≠ 0 then exec .newFrame u3 = .next u4 else u4 = u3) ∧
        exec .fifoDrainOne u4 = .next u5 ∧
        (if u5.vdp.cs.hCounter.toNat = p.vCounterIncrementOn ∧ u5.vdp.dma ≠ none then
          exec (.doDma u5.vdp.curMode (u5.vdp.cs.vBlankSet || !(u5.vdp.reg 1).getLsbD 6)) u5 = .next u6
         else u6 = u5) ∧
        t = { u6 with result := .noResult }

/-- Derived from R220, R247, R98: from every state that meets the invariant, any number of ticks completes; TICKS is
TICK
repeated. -/
def Obligations.TicksNeverStopUnderTheInvariant : Prop :=
  ∀ (n : Nat) (a0 s0 a1 s1 e : Bool) (s : State),
    exec (.ticks n a0 s0 a1 s1 e) s = repeatOp n (.tick a0 s0 a1 s1 e) s ∧
    (StateInv s → ∃ t, exec (.ticks n a0 s0 a1 s1 e) s = .next t ∧ StateInv t)

/-- Derived from R223 and the spec's decisions D33, D34: a register read returns the register and changes nothing; an
index of 24 or more faults. -/
def Obligations.RegisterReadReturnsTheRegister : Prop :=
  ∀ (i : Byte) (s : State),
    (∀ h : i.toNat < 24, exec (.regRead i) s = .next { s with result := .register (s.vdp.regs[i.toNat]) }) ∧
    (24 ≤ i.toNat → exec (.regRead i) s = .fault .badRegIndex)

/-- Derived from R224 and the spec's decisions D4, D33, D34: the stall, then the index, then the write; a write to
register 1 or 12 sets the mode the registers select where it is not the current mode, which may refuse. That the current
mode alone is what is compared, whether the write keeps `H40` and `V30` or changes them, is the model's choice of R224's
pseudocode over R224's corner case and the first row of R283 (log 26). -/
def Obligations.RegisterWriteStoresAndMaySetTheMode : Prop :=
  ∀ (i b : Byte) (s : State),
    (cpuStall s.vdp = true → exec (.regWrite i b) s = .fault .stalledAccess) ∧
    (cpuStall s.vdp = false → 24 ≤ i.toNat → exec (.regWrite i b) s = .fault .badRegIndex) ∧
    ∀ h : i.toNat < 24, cpuStall s.vdp = false →
      let regs := s.vdp.regs.set i.toNat b
      let m : VideoMode :=
        { hRes := if regs[12].getLsbD 0 then .h40 else .h32
          lines := if regs[1].getLsbD 3 then .v30 else .v28
          region := s.cfg.region }
      (¬((i = 1 ∨ i = 12) ∧ m ≠ s.vdp.curMode) →
        exec (.regWrite i b) s = .next { s with vdp := { s.vdp with regs := regs }, result := .noResult }) ∧
      ((i = 1 ∨ i = 12) ∧ m ≠ s.vdp.curMode →
        (∀ p, timingOf s.cfg m = some p → exec (.regWrite i b) s = .next { s with
          vdp := { s.vdp with
            regs := regs
            curMode := m
            cs := ⟨0, 0, false, false, false, false, (regs[10]).setWidth 32⟩ }
          result := .noResult }) ∧
        (timingOf s.cfg m = none → exec (.regWrite i b) s = .refused .modeUnsupported))

/-- Derived from R225 and the spec's decisions D23, D34: a command pair with `CD[5] = 0` changes nothing in the core;
with `CD[5] = 1` it is the DMA setup of its
addressing mode with the live `M1`, whose result is not returned: with no transfer, `M1` set and a type code that
selects a
mode, that mode's transfer starts at `A`. -/
def Obligations.ControlPairRequestsADmaSetup : Prop :=
  ∀ (w1 w2 : Word) (s : State),
    (cpuStall s.vdp = true → exec (.controlWritePair w1 w2) s = .fault .stalledAccess) ∧
    (cpuStall s.vdp = false → w2.getLsbD 7 = false →
      exec (.controlWritePair w1 w2) s = .next { s with result := .noResult }) ∧
    (cpuStall s.vdp = false → w2.getLsbD 7 = true →
      let setup := Instr.dmaSetup (w2.extractLsb' 4 2 ++ w1.extractLsb' 14 2) (w1 ++ w2) ((s.vdp.reg 1).getLsbD 4)
      (∀ t, exec setup s = .next t → exec (.controlWritePair w1 w2) s = .next { t with result := .noResult }) ∧
      (∀ f, exec setup s = .fault f → exec (.controlWritePair w1 w2) s = .fault f) ∧
      ∀ mode, s.vdp.dma = none → m1Enabled s.vdp = true →
        selectMode (dmaTypeCode s.vdp) (w2.extractLsb' 4 2 ++ w1.extractLsb' 14 2) = some mode → ∃ target,
        exec (.controlWritePair w1 w2) s = .next { s with
          vdp := { s.vdp with
            dma := some ⟨mode, w2.extractLsb' 0 2 ++ w1.extractLsb' 0 14, target, none, false⟩
            dmaBusy := true }
          result := .noResult })

/-- Derived from R225, R87, R90 and log 17: a command form of the table does what the control-port pair of its word
does;
without a stall an address-only word changes nothing, and with no transfer, `M1` set and a type code that selects a
mode a
DMA request starts that mode's transfer at `A`. -/
def Obligations.CommandFormsActAsTheirControlPair : Prop :=
  ∀ (cd : BitVec 5) (a : Word) (hi : Byte) (lo : BitVec 2) (s : State),
    (∀ w1 w2 : Word, encodeCommand (.cmdDmaRequest cd a hi lo) = some (w1 ++ w2) →
      exec (.cmdDmaRequest cd a hi lo) s = exec (.controlWritePair w1 w2) s) ∧
    (∀ w1 w2 : Word, encodeCommand (.cmdAddressOnly cd a hi lo) = some (w1 ++ w2) →
      exec (.cmdAddressOnly cd a hi lo) s = exec (.controlWritePair w1 w2) s) ∧
    (cpuStall s.vdp = false →
      exec (.cmdAddressOnly cd a hi lo) s = .next { s with result := .noResult }) ∧
    ∀ mode, cpuStall s.vdp = false → s.vdp.dma = none → m1Enabled s.vdp = true →
      selectMode (dmaTypeCode s.vdp) (cd.extractLsb' 0 4) = some mode → ∃ target,
      exec (.cmdDmaRequest cd a hi lo) s = .next { s with
        vdp := { s.vdp with dma := some ⟨mode, a, target, none, false⟩, dmaBusy := true }
        result := .noResult }

/-- Derived from R226 and the spec's decisions D21, D34: a data write with a transfer waiting is the fill start,
whatever its mode and address are; otherwise it is a
push. -/
def Obligations.DataWriteStartsTheFillOrQueues : Prop :=
  ∀ (m : AccessMode) (a d : Word) (s : State),
    (cpuStall s.vdp = true → exec (.dataWrite m a d) s = .fault .stalledAccess) ∧
    (cpuStall s.vdp = false → s.vdp.dma = none → exec (.dataWrite m a d) s = exec (.fifoPush m a d) s) ∧
    (cpuStall s.vdp = false → ∀ tr, s.vdp.dma = some tr → tr.mode = .vramFill → tr.fillStarted = false → ∃ vram,
      exec (.dataWrite m a d) s = .next { s with
        vdp := { s.vdp with vram := vram, dma := some { tr with fillData := some d, fillStarted := true } }
        result := .ok } ∧
      ∀ k, vram.read k =
        if k = (tr.destAddress ^^^ 1#16).toNat then d.extractLsb' 8 8 else s.vdp.vram.read k) ∧
    (cpuStall s.vdp = false → s.vdp.dma = none → isWriteCode m = true → s.vdp.fifo.count < s.cfg.fifoThreshold →
      ∃ t, exec (.dataWrite m a d) s = .next t ∧ t.result = .ok ∧ t.vdp.fifo.count = s.vdp.fifo.count + 1)

/-- Derived from R37, R230: what `cpu_stall` is; while it holds every bus call of the primary CPU faults, and a register
read and an acknowledge still complete. -/
def Obligations.StalledBusCallsFault : Prop :=
  ∀ s : State,
    (cpuStall s.vdp = true ↔ s.vdp.dmaBusy = true ∧
      ∀ tr, s.vdp.dma = some tr → ¬(tr.mode = .vramFill ∧ tr.fillStarted = false)) ∧
    (cpuStall s.vdp = true → ∀ (i b l : Byte) (m : AccessMode) (w1 w2 : Word),
      exec (.regWrite i b) s = .fault .stalledAccess ∧
      exec (.controlWritePair w1 w2) s = .fault .stalledAccess ∧
      exec (.dataWrite m w1 w2) s = .fault .stalledAccess ∧
      (i.toNat < 24 → ∃ t, exec (.regRead i) s = .next t) ∧ ∃ t, exec (.ackPrimary l) s = .next t)

/-! ## Snapshot, restore, reset -/

/-- Derived from R119, R142, R143, R191, R223, R232, R234: the operations an observer reads through change nothing of
the state but what they return. -/
def Obligations.ObserversChangeNothing : Prop :=
  ∀ s : State,
    exec .snapshot s = .next { s with result := .record s.vdp } ∧
    exec .readCounters s = .next { s with result := .counters s.vdp.cs } ∧
    exec .fifoIsEmpty s = .next { s with result := .bool (decide (s.vdp.fifo.count = 0)) } ∧
    exec .fifoIsFull s = .next { s with result := .bool (decide (s.cfg.fifoThreshold ≤ s.vdp.fifo.count)) } ∧
    (∃ l, exec .primaryLevel s = .next { s with result := .level l }) ∧
    ∀ i : Byte, i.toNat < 24 → ∃ b, exec (.regRead i) s = .next { s with result := .register b }

/-- Derived from R233, R22, the spec's decision D32, R36 and log 24 for the condition on the fill word, and log 12 for
the
last two conditions: RESTORE replaces the record where it meets every condition of `Valid`, carries a fill word in a
VramFill only, has FIFO_CAPACITY slots and memories of this machine, and faults where it does not; restoring a snapshot
leaves the record as it is. -/
def Obligations.RestoreReplacesValidRecordsOnly : Prop :=
  ∀ (r : Record) (s : State),
    let jump := fun trigger total : Nat => 1 + 0x1FF + trigger - total
    let rises := fun (size : Nat) (m : Memory) => (m.cells.map Prod.fst).Pairwise (· < ·) ∧ ∀ c ∈ m.cells, c.1 < size
    let valid : Prop :=
      (∃ p, timingOf s.cfg r.curMode = some p ∧
        (r.cs.hCounter.toNat < p.hJumpTrigger ∨ jump p.hJumpTrigger p.hTotal ≤ r.cs.hCounter.toNat) ∧
        (r.cs.vCounter.toNat < p.vJumpTrigger ∨ jump p.vJumpTrigger p.vTotal ≤ r.cs.vCounter.toNat)) ∧
      (-1 ≤ r.cs.hLinePassed.toInt ∧ r.cs.hLinePassed.toInt ≤ 255) ∧
      (r.fifo.head < s.cfg.fifoCapacity ∧ r.fifo.count ≤ s.cfg.fifoThreshold) ∧
      (∀ k, k < r.fifo.count → ∃ e, r.fifo.slots[(r.fifo.head + k) % s.cfg.fifoCapacity]? = some e ∧
        e.ramMode ∈ [0b0001#4, 0b0011#4, 0b0101#4]) ∧
      (r.dmaBusy = true ↔ r.dma ≠ none) ∧
      (∀ tr, r.dma = some tr →
        (tr.fillStarted = true → tr.mode = .vramFill) ∧ (tr.mode ≠ .memToVram → tr.destRamType = .vram) ∧
        (tr.fillData ≠ none → tr.mode = .vramFill)) ∧
      r.fifo.slots.length = s.cfg.fifoCapacity ∧
      (rises 0x10000 r.vram ∧ rises s.cfg.cramSize r.cram ∧ rises s.cfg.vsramSize r.vsram)
    (valid → ∃ n, exec (.restore r) s = .next { s with vdp := r, draws := n, result := .noResult }) ∧
    (¬valid → exec (.restore r) s = .fault .badRestore) ∧
    (StateInv s → -1 ≤ s.vdp.cs.hLinePassed.toInt → s.vdp.cs.hLinePassed.toInt ≤ 255 →
      ∃ n, exec (.restore s.vdp) s = .next { s with draws := n, result := .noResult })

/-- Derived from R275, R45 and the spec's decisions D5, D15, D30, D31: a system reset leaves every state element but
the memories at the values of R45, from every state; the mode that
REG_INIT and REGION select must have a well-formed record, or the reset is refused. The empty slots' content is not
stated. -/
def Obligations.SystemResetLeavesTheResetValues : Prop :=
  ∀ s : State,
    let m : VideoMode :=
      { hRes := if s.cfg.regInit[12].getLsbD 0 then .h40 else .h32
        lines := if s.cfg.regInit[1].getLsbD 3 then .v30 else .v28
        region := s.cfg.region }
    (timingOf s.cfg m = none → exec .resetSystem s = .refused .modeUnsupported) ∧
    ∀ p, timingOf s.cfg m = some p → ∃ t, exec .resetSystem s = .next t ∧
      t.vdp.regs = s.cfg.regInit ∧ t.vdp.curMode = m ∧
      t.vdp.cs = ⟨0, 0, false, false, false, false, s.cfg.regInit[10].setWidth 32⟩ ∧
      t.vdp.fifo.head = 0 ∧ t.vdp.fifo.count = 0 ∧ t.vdp.dma = none ∧ t.vdp.dmaBusy = false ∧
      t.vdp.prim = .none ∧ t.vdp.cop = .none ∧ t.vdp.frameExpired = false ∧
      t.vdp.copTriggerLine.toNat = p.vBlankSet ∧ t.vdp.log = [] ∧
      t.cfg = s.cfg ∧ t.inbox = s.inbox ∧ t.cpuCalls = s.cpuCalls

/-- Derived from R45, R276 and the spec's decisions D4, D31: `State.reset` holds the reset values under its own
configuration, which log 2 and log 3 name; its mode is the one that configuration's REGION and REG_INIT select, and its
registers are that REG_INIT, the model's choice. -/
def Obligations.ResetStateHoldsTheResetValues : Prop :=
  State.reset.vdp.curMode = { hRes := .h32, lines := .v28, region := .pal } ∧
    State.reset.vdp.regs = State.reset.cfg.regInit ∧
    State.reset.vdp.cs =
      ⟨0, 0, false, false, false, false, State.reset.cfg.regInit[10].setWidth 32⟩ ∧
    State.reset.vdp.fifo.head = 0 ∧ State.reset.vdp.fifo.count = 0 ∧ State.reset.vdp.dma = none ∧
    State.reset.vdp.dmaBusy = false ∧ State.reset.vdp.prim = .none ∧ State.reset.vdp.cop = .none ∧
    State.reset.vdp.frameExpired = false ∧ State.reset.vdp.copTriggerLine = 0xE0 ∧ State.reset.vdp.log = [] ∧
    (paramsOf State.reset).isSome = true

/-! ## The whole machine -/

/-- Derived from R24, R25, R35, R36, R45, R144, R233: the reset state meets the invariant. It is a claim about
`State.reset` alone, so it rests on that state's configuration: the candidate TIMING of Part 3 of
93_implementation_defined.md, the sizes and the threshold (log 2, PRESUMED), and the zero REG_INIT (log 3, DESIGN
CHOICE).
Its premises are those values, which `State.reset` holds. -/
def Obligations.ResetStateMeetsTheInvariant : Prop := StateInv State.reset ∧ CountdownInRange State.reset

/-- Derived from R25, R35, R36, R144, R233: every step keeps the invariant: the counters stay in the sets of their
mode's
well-formed record, the FIFO within its threshold with write requests only, the DMA state consistent, and the memories
canonical. -/
def Obligations.EveryStepKeepsTheInvariant : Prop :=
  ∀ s t : State, StateInv s → step s = .next t → StateInv t

/-- Derived from R23, R116, R117: every operation but RESTORE keeps the countdown in `[0, 255]`. -/
def Obligations.CountdownStaysInRangeWithoutRestore : Prop :=
  ∀ (i : Instr) (s t : State), CountdownInRange s → exec i s = .next t → (∀ r, i ≠ .restore r) → CountdownInRange t

/-- Derived from R23, R233: the spec's inference that the countdown never leaves `[-1, 255]`, for every step. It
FAILS: RESTORE admits a countdown of
-1, which the next HINT step lowers to -2 (log 13). -/
def Obligations.EveryStepKeepsTheCountdownAboveMinusTwo : Prop :=
  ∀ s t : State, StateInv s → -1 ≤ s.vdp.cs.hLinePassed.toInt → s.vdp.cs.hLinePassed.toInt ≤ 255 → step s = .next t →
    -1 ≤ t.vdp.cs.hLinePassed.toInt

/-- Derived from R26, R28, R29, R224: a register changes only by its own REG_WRITE, or, for registers 19 to 22, by DMA
units; only a replacement of the record is left out. -/
def Obligations.RegistersChangeOnlyByWriteOrUnits : Prop :=
  ∀ (i : Instr) (s t : State) (k : Fin numRegs), exec i s = .next t → replacesRecord i = false →
    t.vdp.reg k = s.vdp.reg k ∨ (mayRunUnits i = true ∧ k ∈ [19, 20, 21, 22]) ∨
      ∃ x b, i = .regWrite x b ∧ x.toNat = k.val ∧ t.vdp.reg k = b

/-- Derived from R69 (which operations write, and what) and R73: only the drain, the fill start, the DMA step, what
contains them, and a replacement of the
record change a video memory. -/
def Obligations.VideoMemoryChangesOnlyByDrainFillOrUnits : Prop :=
  ∀ (i : Instr) (s t : State) (a : Nat), exec i s = .next t → mayWriteVideoMemory i = false →
    t.vdp.vram.read a = s.vdp.vram.read a ∧ t.vdp.cram.read a = s.vdp.cram.read a ∧
      t.vdp.vsram.read a = s.vdp.vsram.read a

/-- Derived from R7, R40, R257, R112, R220, R224: no operation changes the configuration; the log only grows, but for a
replacement of the record; and only ADVANCE_H, the ticks, the operations that reset the counters (REG_WRITE among them,
where it sets the mode, R224) and RESTORE move the raster. The requests not yet run (`inbox`, log 1) and the record of
the
calls made to the CPUs (`cpuCalls`, log 7) are the model's own fields: that no operation changes the former, and that
the
latter only grows, says how the model holds them, and is no rule of the spec. -/
def Obligations.ConfigurationAndRasterAreKept : Prop :=
  ∀ (i : Instr) (s t : State), exec i s = .next t →
    t.cfg = s.cfg ∧ t.inbox = s.inbox ∧ (∃ l, t.cpuCalls = s.cpuCalls ++ l) ∧
    (replacesRecord i = false → ∃ l, t.vdp.log = s.vdp.log ++ l) ∧
    (mayMoveCounters i = false →
      t.vdp.cs.hCounter = s.vdp.cs.hCounter ∧ t.vdp.cs.vCounter = s.vdp.cs.vCounter ∧
      t.vdp.cs.hBlankSet = s.vdp.cs.hBlankSet ∧ t.vdp.cs.vBlankSet = s.vdp.cs.vBlankSet ∧
      t.vdp.cs.hLinePassed = s.vdp.cs.hLinePassed ∧ t.vdp.curMode = s.vdp.curMode)
end

