-- ==== Sys2Proof/Laws/State.lean ====
section
/-! SUPPORT. The state's laws: one lemma per field per update, each true by unfolding the update once, and the laws of the
register bank. -/

namespace Sys2Proof.Machine

open Sys2Proof

@[simp] theorem State.setVdp_cfg (x : State) (v : Record) : (x.setVdp v).cfg = x.cfg := rfl
@[simp] theorem State.setVdp_vdp (x : State) (v : Record) : (x.setVdp v).vdp = v := rfl
@[simp] theorem State.setVdp_result (x : State) (v : Record) : (x.setVdp v).result = x.result := rfl
@[simp] theorem State.setVdp_cpuCalls (x : State) (v : Record) : (x.setVdp v).cpuCalls = x.cpuCalls := rfl
@[simp] theorem State.setVdp_draws (x : State) (v : Record) : (x.setVdp v).draws = x.draws := rfl
@[simp] theorem State.setVdp_inbox (x : State) (v : Record) : (x.setVdp v).inbox = x.inbox := rfl

@[simp] theorem State.setResult_cfg (x : State) (r : Result) : (x.setResult r).cfg = x.cfg := rfl
@[simp] theorem State.setResult_vdp (x : State) (r : Result) : (x.setResult r).vdp = x.vdp := rfl
@[simp] theorem State.setResult_result (x : State) (r : Result) : (x.setResult r).result = r := rfl
@[simp] theorem State.setResult_cpuCalls (x : State) (r : Result) : (x.setResult r).cpuCalls = x.cpuCalls := rfl
@[simp] theorem State.setResult_draws (x : State) (r : Result) : (x.setResult r).draws = x.draws := rfl
@[simp] theorem State.setResult_inbox (x : State) (r : Result) : (x.setResult r).inbox = x.inbox := rfl

@[simp] theorem State.addCall_cfg (x : State) (c : CpuCall) : (x.addCall c).cfg = x.cfg := rfl
@[simp] theorem State.addCall_vdp (x : State) (c : CpuCall) : (x.addCall c).vdp = x.vdp := rfl
@[simp] theorem State.addCall_result (x : State) (c : CpuCall) : (x.addCall c).result = x.result := rfl
@[simp] theorem State.addCall_cpuCalls (x : State) (c : CpuCall) : (x.addCall c).cpuCalls = x.cpuCalls ++ [c] := rfl
@[simp] theorem State.addCall_draws (x : State) (c : CpuCall) : (x.addCall c).draws = x.draws := rfl
@[simp] theorem State.addCall_inbox (x : State) (c : CpuCall) : (x.addCall c).inbox = x.inbox := rfl

@[simp] theorem State.setDraws_cfg (x : State) (n : Nat) : (x.setDraws n).cfg = x.cfg := rfl
@[simp] theorem State.setDraws_vdp (x : State) (n : Nat) : (x.setDraws n).vdp = x.vdp := rfl
@[simp] theorem State.setDraws_result (x : State) (n : Nat) : (x.setDraws n).result = x.result := rfl
@[simp] theorem State.setDraws_cpuCalls (x : State) (n : Nat) : (x.setDraws n).cpuCalls = x.cpuCalls := rfl
@[simp] theorem State.setDraws_draws (x : State) (n : Nat) : (x.setDraws n).draws = n := rfl
@[simp] theorem State.setDraws_inbox (x : State) (n : Nat) : (x.setDraws n).inbox = x.inbox := rfl

@[simp] theorem State.setInbox_cfg (x : State) (q : List Request) : (x.setInbox q).cfg = x.cfg := rfl
@[simp] theorem State.setInbox_vdp (x : State) (q : List Request) : (x.setInbox q).vdp = x.vdp := rfl
@[simp] theorem State.setInbox_result (x : State) (q : List Request) : (x.setInbox q).result = x.result := rfl
@[simp] theorem State.setInbox_cpuCalls (x : State) (q : List Request) : (x.setInbox q).cpuCalls = x.cpuCalls := rfl
@[simp] theorem State.setInbox_draws (x : State) (q : List Request) : (x.setInbox q).draws = x.draws := rfl
@[simp] theorem State.setInbox_inbox (x : State) (q : List Request) : (x.setInbox q).inbox = q := rfl

@[simp] theorem Record.setReg_curMode (x : Record) (i : Fin numRegs) (b : Byte) : (x.setReg i b).curMode = x.curMode := rfl
@[simp] theorem Record.setReg_cs (x : Record) (i : Fin numRegs) (b : Byte) : (x.setReg i b).cs = x.cs := rfl
@[simp] theorem Record.setReg_regs (x : Record) (i : Fin numRegs) (b : Byte) : (x.setReg i b).regs = x.regs.set i b := rfl
@[simp] theorem Record.setReg_fifo (x : Record) (i : Fin numRegs) (b : Byte) : (x.setReg i b).fifo = x.fifo := rfl
@[simp] theorem Record.setReg_dma (x : Record) (i : Fin numRegs) (b : Byte) : (x.setReg i b).dma = x.dma := rfl
@[simp] theorem Record.setReg_dmaBusy (x : Record) (i : Fin numRegs) (b : Byte) : (x.setReg i b).dmaBusy = x.dmaBusy := rfl
@[simp] theorem Record.setReg_prim (x : Record) (i : Fin numRegs) (b : Byte) : (x.setReg i b).prim = x.prim := rfl
@[simp] theorem Record.setReg_cop (x : Record) (i : Fin numRegs) (b : Byte) : (x.setReg i b).cop = x.cop := rfl
@[simp] theorem Record.setReg_frameExpired (x : Record) (i : Fin numRegs) (b : Byte) : (x.setReg i b).frameExpired = x.frameExpired := rfl
@[simp] theorem Record.setReg_copTriggerLine (x : Record) (i : Fin numRegs) (b : Byte) : (x.setReg i b).copTriggerLine = x.copTriggerLine := rfl
@[simp] theorem Record.setReg_vram (x : Record) (i : Fin numRegs) (b : Byte) : (x.setReg i b).vram = x.vram := rfl
@[simp] theorem Record.setReg_cram (x : Record) (i : Fin numRegs) (b : Byte) : (x.setReg i b).cram = x.cram := rfl
@[simp] theorem Record.setReg_vsram (x : Record) (i : Fin numRegs) (b : Byte) : (x.setReg i b).vsram = x.vsram := rfl
@[simp] theorem Record.setReg_log (x : Record) (i : Fin numRegs) (b : Byte) : (x.setReg i b).log = x.log := rfl

@[simp] theorem Record.setCs_curMode (x : Record) (c : CounterState) : (x.setCs c).curMode = x.curMode := rfl
@[simp] theorem Record.setCs_cs (x : Record) (c : CounterState) : (x.setCs c).cs = c := rfl
@[simp] theorem Record.setCs_regs (x : Record) (c : CounterState) : (x.setCs c).regs = x.regs := rfl
@[simp] theorem Record.setCs_fifo (x : Record) (c : CounterState) : (x.setCs c).fifo = x.fifo := rfl
@[simp] theorem Record.setCs_dma (x : Record) (c : CounterState) : (x.setCs c).dma = x.dma := rfl
@[simp] theorem Record.setCs_dmaBusy (x : Record) (c : CounterState) : (x.setCs c).dmaBusy = x.dmaBusy := rfl
@[simp] theorem Record.setCs_prim (x : Record) (c : CounterState) : (x.setCs c).prim = x.prim := rfl
@[simp] theorem Record.setCs_cop (x : Record) (c : CounterState) : (x.setCs c).cop = x.cop := rfl
@[simp] theorem Record.setCs_frameExpired (x : Record) (c : CounterState) : (x.setCs c).frameExpired = x.frameExpired := rfl
@[simp] theorem Record.setCs_copTriggerLine (x : Record) (c : CounterState) : (x.setCs c).copTriggerLine = x.copTriggerLine := rfl
@[simp] theorem Record.setCs_vram (x : Record) (c : CounterState) : (x.setCs c).vram = x.vram := rfl
@[simp] theorem Record.setCs_cram (x : Record) (c : CounterState) : (x.setCs c).cram = x.cram := rfl
@[simp] theorem Record.setCs_vsram (x : Record) (c : CounterState) : (x.setCs c).vsram = x.vsram := rfl
@[simp] theorem Record.setCs_log (x : Record) (c : CounterState) : (x.setCs c).log = x.log := rfl

@[simp] theorem Record.setFifo_curMode (x : Record) (f : Fifo) : (x.setFifo f).curMode = x.curMode := rfl
@[simp] theorem Record.setFifo_cs (x : Record) (f : Fifo) : (x.setFifo f).cs = x.cs := rfl
@[simp] theorem Record.setFifo_regs (x : Record) (f : Fifo) : (x.setFifo f).regs = x.regs := rfl
@[simp] theorem Record.setFifo_fifo (x : Record) (f : Fifo) : (x.setFifo f).fifo = f := rfl
@[simp] theorem Record.setFifo_dma (x : Record) (f : Fifo) : (x.setFifo f).dma = x.dma := rfl
@[simp] theorem Record.setFifo_dmaBusy (x : Record) (f : Fifo) : (x.setFifo f).dmaBusy = x.dmaBusy := rfl
@[simp] theorem Record.setFifo_prim (x : Record) (f : Fifo) : (x.setFifo f).prim = x.prim := rfl
@[simp] theorem Record.setFifo_cop (x : Record) (f : Fifo) : (x.setFifo f).cop = x.cop := rfl
@[simp] theorem Record.setFifo_frameExpired (x : Record) (f : Fifo) : (x.setFifo f).frameExpired = x.frameExpired := rfl
@[simp] theorem Record.setFifo_copTriggerLine (x : Record) (f : Fifo) : (x.setFifo f).copTriggerLine = x.copTriggerLine := rfl
@[simp] theorem Record.setFifo_vram (x : Record) (f : Fifo) : (x.setFifo f).vram = x.vram := rfl
@[simp] theorem Record.setFifo_cram (x : Record) (f : Fifo) : (x.setFifo f).cram = x.cram := rfl
@[simp] theorem Record.setFifo_vsram (x : Record) (f : Fifo) : (x.setFifo f).vsram = x.vsram := rfl
@[simp] theorem Record.setFifo_log (x : Record) (f : Fifo) : (x.setFifo f).log = x.log := rfl

@[simp] theorem Record.setDma_curMode (x : Record) (t : Option Transfer) (b : Bool) : (x.setDma t b).curMode = x.curMode := rfl
@[simp] theorem Record.setDma_cs (x : Record) (t : Option Transfer) (b : Bool) : (x.setDma t b).cs = x.cs := rfl
@[simp] theorem Record.setDma_regs (x : Record) (t : Option Transfer) (b : Bool) : (x.setDma t b).regs = x.regs := rfl
@[simp] theorem Record.setDma_fifo (x : Record) (t : Option Transfer) (b : Bool) : (x.setDma t b).fifo = x.fifo := rfl
@[simp] theorem Record.setDma_dma (x : Record) (t : Option Transfer) (b : Bool) : (x.setDma t b).dma = t := rfl
@[simp] theorem Record.setDma_dmaBusy (x : Record) (t : Option Transfer) (b : Bool) : (x.setDma t b).dmaBusy = b := rfl
@[simp] theorem Record.setDma_prim (x : Record) (t : Option Transfer) (b : Bool) : (x.setDma t b).prim = x.prim := rfl
@[simp] theorem Record.setDma_cop (x : Record) (t : Option Transfer) (b : Bool) : (x.setDma t b).cop = x.cop := rfl
@[simp] theorem Record.setDma_frameExpired (x : Record) (t : Option Transfer) (b : Bool) : (x.setDma t b).frameExpired = x.frameExpired := rfl
@[simp] theorem Record.setDma_copTriggerLine (x : Record) (t : Option Transfer) (b : Bool) : (x.setDma t b).copTriggerLine = x.copTriggerLine := rfl
@[simp] theorem Record.setDma_vram (x : Record) (t : Option Transfer) (b : Bool) : (x.setDma t b).vram = x.vram := rfl
@[simp] theorem Record.setDma_cram (x : Record) (t : Option Transfer) (b : Bool) : (x.setDma t b).cram = x.cram := rfl
@[simp] theorem Record.setDma_vsram (x : Record) (t : Option Transfer) (b : Bool) : (x.setDma t b).vsram = x.vsram := rfl
@[simp] theorem Record.setDma_log (x : Record) (t : Option Transfer) (b : Bool) : (x.setDma t b).log = x.log := rfl

@[simp] theorem Record.setPrim_curMode (x : Record) (c : Channel) : (x.setPrim c).curMode = x.curMode := rfl
@[simp] theorem Record.setPrim_cs (x : Record) (c : Channel) : (x.setPrim c).cs = x.cs := rfl
@[simp] theorem Record.setPrim_regs (x : Record) (c : Channel) : (x.setPrim c).regs = x.regs := rfl
@[simp] theorem Record.setPrim_fifo (x : Record) (c : Channel) : (x.setPrim c).fifo = x.fifo := rfl
@[simp] theorem Record.setPrim_dma (x : Record) (c : Channel) : (x.setPrim c).dma = x.dma := rfl
@[simp] theorem Record.setPrim_dmaBusy (x : Record) (c : Channel) : (x.setPrim c).dmaBusy = x.dmaBusy := rfl
@[simp] theorem Record.setPrim_prim (x : Record) (c : Channel) : (x.setPrim c).prim = c := rfl
@[simp] theorem Record.setPrim_cop (x : Record) (c : Channel) : (x.setPrim c).cop = x.cop := rfl
@[simp] theorem Record.setPrim_frameExpired (x : Record) (c : Channel) : (x.setPrim c).frameExpired = x.frameExpired := rfl
@[simp] theorem Record.setPrim_copTriggerLine (x : Record) (c : Channel) : (x.setPrim c).copTriggerLine = x.copTriggerLine := rfl
@[simp] theorem Record.setPrim_vram (x : Record) (c : Channel) : (x.setPrim c).vram = x.vram := rfl
@[simp] theorem Record.setPrim_cram (x : Record) (c : Channel) : (x.setPrim c).cram = x.cram := rfl
@[simp] theorem Record.setPrim_vsram (x : Record) (c : Channel) : (x.setPrim c).vsram = x.vsram := rfl
@[simp] theorem Record.setPrim_log (x : Record) (c : Channel) : (x.setPrim c).log = x.log := rfl

@[simp] theorem Record.setCop_curMode (x : Record) (c : Channel) : (x.setCop c).curMode = x.curMode := rfl
@[simp] theorem Record.setCop_cs (x : Record) (c : Channel) : (x.setCop c).cs = x.cs := rfl
@[simp] theorem Record.setCop_regs (x : Record) (c : Channel) : (x.setCop c).regs = x.regs := rfl
@[simp] theorem Record.setCop_fifo (x : Record) (c : Channel) : (x.setCop c).fifo = x.fifo := rfl
@[simp] theorem Record.setCop_dma (x : Record) (c : Channel) : (x.setCop c).dma = x.dma := rfl
@[simp] theorem Record.setCop_dmaBusy (x : Record) (c : Channel) : (x.setCop c).dmaBusy = x.dmaBusy := rfl
@[simp] theorem Record.setCop_prim (x : Record) (c : Channel) : (x.setCop c).prim = x.prim := rfl
@[simp] theorem Record.setCop_cop (x : Record) (c : Channel) : (x.setCop c).cop = c := rfl
@[simp] theorem Record.setCop_frameExpired (x : Record) (c : Channel) : (x.setCop c).frameExpired = x.frameExpired := rfl
@[simp] theorem Record.setCop_copTriggerLine (x : Record) (c : Channel) : (x.setCop c).copTriggerLine = x.copTriggerLine := rfl
@[simp] theorem Record.setCop_vram (x : Record) (c : Channel) : (x.setCop c).vram = x.vram := rfl
@[simp] theorem Record.setCop_cram (x : Record) (c : Channel) : (x.setCop c).cram = x.cram := rfl
@[simp] theorem Record.setCop_vsram (x : Record) (c : Channel) : (x.setCop c).vsram = x.vsram := rfl
@[simp] theorem Record.setCop_log (x : Record) (c : Channel) : (x.setCop c).log = x.log := rfl

@[simp] theorem Record.addLog_curMode (x : Record) (k : LogKind) : (x.addLog k).curMode = x.curMode := rfl
@[simp] theorem Record.addLog_cs (x : Record) (k : LogKind) : (x.addLog k).cs = x.cs := rfl
@[simp] theorem Record.addLog_regs (x : Record) (k : LogKind) : (x.addLog k).regs = x.regs := rfl
@[simp] theorem Record.addLog_fifo (x : Record) (k : LogKind) : (x.addLog k).fifo = x.fifo := rfl
@[simp] theorem Record.addLog_dma (x : Record) (k : LogKind) : (x.addLog k).dma = x.dma := rfl
@[simp] theorem Record.addLog_dmaBusy (x : Record) (k : LogKind) : (x.addLog k).dmaBusy = x.dmaBusy := rfl
@[simp] theorem Record.addLog_prim (x : Record) (k : LogKind) : (x.addLog k).prim = x.prim := rfl
@[simp] theorem Record.addLog_cop (x : Record) (k : LogKind) : (x.addLog k).cop = x.cop := rfl
@[simp] theorem Record.addLog_frameExpired (x : Record) (k : LogKind) : (x.addLog k).frameExpired = x.frameExpired := rfl
@[simp] theorem Record.addLog_copTriggerLine (x : Record) (k : LogKind) : (x.addLog k).copTriggerLine = x.copTriggerLine := rfl
@[simp] theorem Record.addLog_vram (x : Record) (k : LogKind) : (x.addLog k).vram = x.vram := rfl
@[simp] theorem Record.addLog_cram (x : Record) (k : LogKind) : (x.addLog k).cram = x.cram := rfl
@[simp] theorem Record.addLog_vsram (x : Record) (k : LogKind) : (x.addLog k).vsram = x.vsram := rfl
@[simp] theorem Record.addLog_log (x : Record) (k : LogKind) : (x.addLog k).log = x.log ++ [k] := rfl

theorem State.setVdp_setVdp (x : State) (v w : Record) : (x.setVdp v).setVdp w = x.setVdp w := rfl
@[simp] theorem State.setVdp_vdp_self (x : State) : x.setVdp x.vdp = x := rfl
@[simp] theorem State.setResult_setResult (x : State) (r q : Result) : (x.setResult r).setResult q = x.setResult q := rfl

/-- Reading a register after writing one. -/
@[simp] theorem Record.reg_setReg (v : Record) (i j : Fin numRegs) (b : Byte) :
    (v.setReg i b).reg j = if i = j then b else v.reg j := by
  simp only [Record.reg, Record.setReg, Fin.getElem_fin, Vector.getElem_set]
  split <;> rename_i h <;> simp [Fin.ext_iff, h]

@[simp] theorem Record.reg_setCs (v : Record) (c : CounterState) (j : Fin numRegs) : (v.setCs c).reg j = v.reg j := rfl
@[simp] theorem Record.reg_setFifo (v : Record) (f : Fifo) (j : Fin numRegs) : (v.setFifo f).reg j = v.reg j := rfl
@[simp] theorem Record.reg_setDma (v : Record) (t : Option Transfer) (b : Bool) (j : Fin numRegs) :
    (v.setDma t b).reg j = v.reg j := rfl
@[simp] theorem Record.reg_setPrim (v : Record) (c : Channel) (j : Fin numRegs) : (v.setPrim c).reg j = v.reg j := rfl
@[simp] theorem Record.reg_setCop (v : Record) (c : Channel) (j : Fin numRegs) : (v.setCop c).reg j = v.reg j := rfl
@[simp] theorem Record.reg_addLog (v : Record) (k : LogKind) (j : Fin numRegs) : (v.addLog k).reg j = v.reg j := rfl

/-- Two records are equal when their fields are. -/
theorem reg_eq_of_regs_eq {v w : Record} (h : v.regs = w.regs) (j : Fin numRegs) : v.reg j = w.reg j := by
  simp [Record.reg, h]

/-- An outcome sequence ends in a next state exactly when both parts do. -/
@[simp] theorem andThen_eq_next (o : Out) (f : State → Out) (t : State) :
    andThen o f = .next t ↔ ∃ s, o = .next s ∧ f s = .next t := by
  cases o <;> simp [andThen]

@[simp] theorem andThen_next (s : State) (f : State → Out) : andThen (.next s) f = f s := rfl
@[simp] theorem andThen_fault (r : Fault) (f : State → Out) : andThen (.fault r) f = .fault r := rfl
@[simp] theorem andThen_refused (r : Refusal) (f : State → Out) : andThen (.refused r) f = .refused r := rfl

/-- An operation that reads P ends in a next state exactly where P is given and it does. -/
@[simp] theorem withParams_eq_next (s : State) (f : TimingParams → Out) (t : State) :
    withParams s f = .next t ↔ ∃ p, paramsOf s = some p ∧ f p = .next t := by
  unfold withParams
  split <;> simp_all

theorem withParams_some {s : State} {p : TimingParams} (h : paramsOf s = some p) (f : TimingParams → Out) :
    withParams s f = f p := by
  simp [withParams, h]

end Sys2Proof.Machine
end

