-- ==== Sys2Proof/Laws/Memory.lean ====
section
/-! SUPPORT. The laws of the video memories: a read after a write, the canonical form kept, and what each access
primitive of spec/20_memory.md leaves alone. -/

namespace Sys2Proof.Machine

open Sys2Proof

theorem findCell_insertCell (a k : Nat) (b : Byte) (cells : List Host.Cell) (hk : k ≠ a) :
    findCell k (insertCell a b cells) = findCell k cells := by
  induction cells with
  | nil => simp [insertCell, findCell, Ne.symm hk]
  | cons c rest ih =>
    obtain ⟨x, y⟩ := c
    simp only [insertCell]
    split
    · simp [findCell, Ne.symm hk]
    · split
      · rename_i h
        subst h
        simp [findCell, Ne.symm hk]
      · simp [findCell, ih]

theorem findCell_insertCell_self (a : Nat) (b : Byte) (cells : List Host.Cell) :
    findCell a (insertCell a b cells) = some b := by
  induction cells with
  | nil => simp [insertCell, findCell]
  | cons c rest ih =>
    obtain ⟨x, y⟩ := c
    simp only [insertCell]
    split
    · simp [findCell]
    · split
      · simp [findCell]
      · rename_i h
        simp [findCell, ih, Ne.symm h]

/-- A byte read after one write. -/
@[simp] theorem Memory.read_write (m : Memory) (a k : Nat) (b : Byte) :
    (m.write a b).read k = if k = a then b else m.read k := by
  unfold Memory.read Memory.write Memory.unlisted
  split
  · rename_i h
    by_cases hk : k = a
    · subst hk
      simp_all [findCell_insertCell_self]
    · rw [findCell_insertCell a k b m.cells hk] at h
      simp [h, hk]
  · rename_i h
    by_cases hk : k = a
    · subst hk
      simp_all [findCell_insertCell_self]
    · rw [findCell_insertCell a k b m.cells hk] at h
      simp [h, hk]

@[simp] theorem Memory.write_draw (m : Memory) (a : Nat) (b : Byte) : (m.write a b).draw = m.draw := rfl

theorem cellsRise_mono {size lo lo' : Nat} {cells : List Host.Cell} (h : cellsRise size lo cells = true)
    (hl : lo' ≤ lo) : cellsRise size lo' cells = true := by
  cases cells with
  | nil => rfl
  | cons c rest =>
    obtain ⟨a, b⟩ := c
    simp only [cellsRise, Bool.and_eq_true, decide_eq_true_eq] at h ⊢
    exact ⟨⟨by omega, h.1.2⟩, h.2⟩

theorem cellsRise_insertCell {size lo a : Nat} (b : Byte) {cells : List Host.Cell}
    (h : cellsRise size lo cells = true) (hl : lo ≤ a) (ha : a < size) :
    cellsRise size lo (insertCell a b cells) = true := by
  induction cells generalizing lo with
  | nil => simp [insertCell, cellsRise, hl, ha]
  | cons c rest ih =>
    obtain ⟨k, x⟩ := c
    simp only [cellsRise, Bool.and_eq_true, decide_eq_true_eq] at h
    simp only [insertCell]
    split
    · simp only [cellsRise, Bool.and_eq_true, decide_eq_true_eq]
      refine ⟨⟨hl, ha⟩, ⟨by omega, h.1.2⟩, h.2⟩
    · split
      · rename_i heq
        subst heq
        simp only [cellsRise, Bool.and_eq_true, decide_eq_true_eq]
        exact ⟨⟨hl, ha⟩, h.2⟩
      · simp only [cellsRise, Bool.and_eq_true, decide_eq_true_eq]
        exact ⟨h.1, ih h.2 (by omega)⟩

/-- A write inside the memory keeps the canonical form. -/
theorem Memory.wf_write {size : Nat} {m : Memory} (h : m.wf size = true) {a : Nat} (b : Byte) (ha : a < size) :
    (m.write a b).wf size = true :=
  cellsRise_insertCell b h (Nat.zero_le a) ha

@[simp] theorem Memory.wf_fresh (size draw : Nat) : (Memory.fresh draw).wf size = true := rfl

/-- What `cellsRise` says in words of the list: every address lies in `[lo, size)`, and the addresses rise strictly. -/
theorem cellsRise_iff (size lo : Nat) (cells : List Host.Cell) :
    cellsRise size lo cells = true ↔
      (cells.map Prod.fst).Pairwise (· < ·) ∧ ∀ c ∈ cells, lo ≤ c.1 ∧ c.1 < size := by
  induction cells generalizing lo with
  | nil => simp [cellsRise]
  | cons c rest ih =>
    obtain ⟨a, x⟩ := c
    simp only [cellsRise, Bool.and_eq_true, decide_eq_true_eq, ih, List.map_cons, List.pairwise_cons, List.mem_map,
      List.mem_cons, forall_eq_or_imp, forall_exists_index, and_imp, forall_apply_eq_imp_iff₂]
    constructor
    · rintro ⟨⟨hl, hs⟩, hp, hr⟩
      exact ⟨⟨fun c hc => (hr c hc).1, hp⟩, ⟨hl, hs⟩, fun c hc => ⟨by have := (hr c hc).1; omega, (hr c hc).2⟩⟩
    · rintro ⟨⟨ha, hp⟩, ⟨hl, hs⟩, hr⟩
      exact ⟨⟨hl, hs⟩, hp, fun c hc => ⟨ha c hc, (hr c hc).2⟩⟩

/-- The canonical form of a memory: strictly rising addresses below its size (log 4). -/
theorem Memory.wf_iff (size : Nat) (m : Memory) :
    m.wf size = true ↔ (m.cells.map Prod.fst).Pairwise (· < ·) ∧ ∀ c ∈ m.cells, c.1 < size := by
  simp [Memory.wf, cellsRise_iff]

theorem writePair_wf {size off : Nat} {m : Memory} (h : m.wf size = true) (w : Word) (ha : off + 1 < size) :
    (writePair off w m).wf size = true :=
  Memory.wf_write (Memory.wf_write h _ (by omega)) _ ha

/-- Each access primitive changes one memory: the other fields of the record stay. -/
@[simp] theorem vramWrite_eq (a : Word) (b : Byte) (v : Record) :
    vramWrite a b v = { v with vram := v.vram.write a.toNat b } := rfl

theorem vramWriteWord_eq (a w : Word) (v : Record) :
    vramWriteWord a w v =
      { v with vram := (v.vram.write (a ^^^ 1#16).toNat (w.extractLsb' 0 8)).write a.toNat (w.extractLsb' 8 8) } := rfl

/-- A word write to a video memory changes the three memories and nothing else of the record. -/
theorem writeTarget_memories (cfg : Config) (t : Target) (a w : Word) (v : Record) :
    ∃ x y z, writeTarget cfg t a w v = { v with vram := x, cram := y, vsram := z } := by
  cases t
  · exact ⟨_, v.cram, v.vsram, rfl⟩
  · exact ⟨v.vram, _, v.vsram, rfl⟩
  · simp only [writeTarget, vsramWriteWord]
    split
    · exact ⟨v.vram, v.cram, v.vsram, rfl⟩
    · exact ⟨v.vram, v.cram, _, rfl⟩

theorem even_of_lsb_clear {x : Word} (h : x.getLsbD 0 = false) : x.toNat % 2 = 0 := by
  simp only [BitVec.getLsbD, Nat.testBit_zero, decide_eq_false_iff_not] at h
  omega

theorem and_mask_lt {n : Nat} (a : Word) (hn : n ∈ [2, 4, 8, 16, 32, 64, 128, 256, 512, 1024, 2048, 4096, 8192, 16384, 32768, 65536]) :
    (a &&& BitVec.ofNat 16 (n - 1) &&& ~~~1#16).toNat + 1 < n := by
  have key : ∀ k : Nat, 1 ≤ k → k ≤ 16 → (a &&& BitVec.ofNat 16 (2 ^ k - 1) &&& ~~~1#16).toNat + 1 < 2 ^ k := by
    intro k hk hk'
    have hp : 2 ^ k ≤ 2 ^ 16 := Nat.pow_le_pow_right (by decide) hk'
    have hpos : 0 < 2 ^ k := Nat.pow_pos (by decide)
    have h1 : (BitVec.ofNat 16 (2 ^ k - 1)).toNat = 2 ^ k - 1 := by
      rw [BitVec.toNat_ofNat, Nat.mod_eq_of_lt]
      have : (2 : Nat) ^ 16 = 65536 := by decide
      omega
    have h2 : (a &&& BitVec.ofNat 16 (2 ^ k - 1) &&& ~~~1#16).toNat ≤ 2 ^ k - 1 := by
      rw [BitVec.toNat_and, BitVec.toNat_and, h1]
      exact le_trans Nat.and_le_left Nat.and_le_right
    have h3 : (a &&& BitVec.ofNat 16 (2 ^ k - 1) &&& ~~~1#16).toNat % 2 = 0 := by
      exact even_of_lsb_clear (by simp)
    have h4 : 2 ^ k % 2 = 0 := by
      obtain ⟨j, rfl⟩ : ∃ j, k = j + 1 := ⟨k - 1, by omega⟩
      simp [Nat.pow_succ]
    omega
  simp only [List.mem_cons, List.not_mem_nil, or_false] at hn
  rcases hn with h | h | h | h | h | h | h | h | h | h | h | h | h | h | h | h <;> subst h
  · exact key 1 (by decide) (by decide)
  · exact key 2 (by decide) (by decide)
  · exact key 3 (by decide) (by decide)
  · exact key 4 (by decide) (by decide)
  · exact key 5 (by decide) (by decide)
  · exact key 6 (by decide) (by decide)
  · exact key 7 (by decide) (by decide)
  · exact key 8 (by decide) (by decide)
  · exact key 9 (by decide) (by decide)
  · exact key 10 (by decide) (by decide)
  · exact key 11 (by decide) (by decide)
  · exact key 12 (by decide) (by decide)
  · exact key 13 (by decide) (by decide)
  · exact key 14 (by decide) (by decide)
  · exact key 15 (by decide) (by decide)
  · exact key 16 (by decide) (by decide)

/-- A CRAM word lands inside CRAM. -/
theorem cramOffset_lt {cfg : Config} (h : cramSizeWf cfg.cramSize = true) (a : Word) :
    cramOffset cfg a + 1 < cfg.cramSize :=
  and_mask_lt a (by simpa [cramSizeWf] using h)

theorem vsramOffset_even (a : Word) : vsramOffset a % 2 = 0 := by
  exact even_of_lsb_clear (by simp)

/-- A word write keeps every memory canonical. -/
theorem writeTarget_memoriesValid {cfg : Config} {v : Record} (hc : configWf cfg = true)
    (h : memoriesValid cfg v = true) (t : Target) (a w : Word) :
    memoriesValid cfg (writeTarget cfg t a w v) = true := by
  simp only [memoriesValid, Bool.and_eq_true] at h ⊢
  simp only [configWf, Bool.and_eq_true, decide_eq_true_eq] at hc
  obtain ⟨⟨hv, hcr⟩, hs⟩ := h
  cases t
  · refine ⟨⟨?_, hcr⟩, hs⟩
    exact Memory.wf_write (Memory.wf_write hv _ (by simpa using (a ^^^ 1#16).isLt)) _ (by simpa using a.isLt)
  · exact ⟨⟨hv, writePair_wf hcr w (cramOffset_lt hc.1.2 a)⟩, hs⟩
  · simp only [writeTarget, vsramWriteWord]
    split
    · exact ⟨⟨hv, hcr⟩, hs⟩
    · refine ⟨⟨hv, hcr⟩, writePair_wf hs w ?_⟩
      have := vsramOffset_even a
      omega

end Sys2Proof.Machine
end

