-- ==== Sys2Proof/Laws/Dma.lean ====
section
/-! SUPPORT. The laws of the DMA engine: what one unit does, and everything a DO_DMA leaves alone. -/

namespace Sys2Proof.Machine

open Sys2Proof

theorem word_halves (w : Word) : w.extractLsb' 8 8 ++ w.extractLsb' 0 8 = w := by
  ext i hi
  simp only [BitVec.getElem_append, BitVec.getElem_extractLsb']
  split
  · rename_i h
    simp [hi]
  · rename_i h
    rw [show 8 + (i - 8) = i by omega]
    simp [hi]

/-- The length read back after a write. -/
@[simp] theorem dmaLength_setDmaLength (len : Word) (v : Record) : dmaLength (setDmaLength len v) = len := by
  simp [dmaLength, setDmaLength, word_halves]

/-- The low source word read back after a write. -/
@[simp] theorem srcLow_setSrcLow (a : Word) (v : Record) : srcLow (setSrcLow a v) = a := by
  simp [srcLow, setSrcLow, word_halves]

@[simp] theorem dmaLength_setSrcLow (a : Word) (v : Record) : dmaLength (setSrcLow a v) = dmaLength v := by
  simp [dmaLength, setSrcLow]

@[simp] theorem srcLow_setDmaLength (a : Word) (v : Record) : srcLow (setDmaLength a v) = srcLow v := by
  simp [srcLow, setDmaLength]

/-- The registers a transfer never writes: all but 19 to 22 (spec/10_state.md R28, R29). -/
def outsideDmaRegs (k : Fin numRegs) : Bool := decide (k ≠ 19) && decide (k ≠ 20) && decide (k ≠ 21) && decide (k ≠ 22)

/-- Everything a DMA step leaves alone. -/
structure DmaFrame (s t : State) : Prop where
  cfg : t.cfg = s.cfg
  inbox : t.inbox = s.inbox
  cpuCalls : t.cpuCalls = s.cpuCalls
  curMode : t.vdp.curMode = s.vdp.curMode
  cs : t.vdp.cs = s.vdp.cs
  fifo : t.vdp.fifo = s.vdp.fifo
  prim : t.vdp.prim = s.vdp.prim
  cop : t.vdp.cop = s.vdp.cop
  frameExpired : t.vdp.frameExpired = s.vdp.frameExpired
  copTriggerLine : t.vdp.copTriggerLine = s.vdp.copTriggerLine
  log : t.vdp.log = s.vdp.log
  regs : ∀ k, outsideDmaRegs k = true → t.vdp.reg k = s.vdp.reg k

theorem DmaFrame.refl (s : State) : DmaFrame s s := by
  constructor <;> simp

theorem DmaFrame.trans {s t u : State} (h : DmaFrame s t) (g : DmaFrame t u) : DmaFrame s u where
  cfg := g.cfg.trans h.cfg
  inbox := g.inbox.trans h.inbox
  cpuCalls := g.cpuCalls.trans h.cpuCalls
  curMode := g.curMode.trans h.curMode
  cs := g.cs.trans h.cs
  fifo := g.fifo.trans h.fifo
  prim := g.prim.trans h.prim
  cop := g.cop.trans h.cop
  frameExpired := g.frameExpired.trans h.frameExpired
  copTriggerLine := g.copTriggerLine.trans h.copTriggerLine
  log := g.log.trans h.log
  regs := fun k hk => (g.regs k hk).trans (h.regs k hk)

/-- The data movement of a unit changes the video memories and the count of free draws, nothing else. -/
theorem dmaMove_eq (t : Transfer) (s : State) :
    ∃ x y z n, dmaMove t s = { s with vdp := { s.vdp with vram := x, cram := y, vsram := z }, draws := n } := by
  unfold dmaMove
  split
  · exact ⟨_, s.vdp.cram, s.vdp.vsram, _, rfl⟩
  · exact ⟨_, s.vdp.cram, s.vdp.vsram, s.draws, rfl⟩
  · obtain ⟨x, y, z, h⟩ := writeTarget_memories s.cfg t.destRamType t.destAddress
      (Config.busRead16 s.draws (busAddress s.vdp)) s.vdp
    refine ⟨x, y, z, s.draws + 1, ?_⟩
    rw [memUnit, h]
    rfl

theorem reg_memories (v : Record) (x y z : Memory) (k : Fin numRegs) :
    Record.reg { v with vram := x, cram := y, vsram := z } k = v.reg k := rfl

/-- One unit: the length falls by 1, the low source word rises by 1, the destination by AUTO_INC, all 16 bits (R164,
R168, R169, R170). -/
theorem dmaUnit_spec (t : Transfer) (s : State) :
    dmaLength (dmaUnit t s).vdp = dmaLength s.vdp - 1#16 ∧ srcLow (dmaUnit t s).vdp = srcLow s.vdp + 1#16 ∧
      (dmaUnit t s).vdp.dma = some (advanceDest s.vdp t) ∧ (dmaUnit t s).vdp.dmaBusy = s.vdp.dmaBusy := by
  obtain ⟨x, y, z, n, h⟩ := dmaMove_eq t s
  refine ⟨?_, ?_, ?_, ?_⟩ <;>
    simp [dmaUnit, h, decreaseLength, advanceSource, dmaLength, srcLow, setDmaLength, setSrcLow, reg_memories, word_halves,
      advanceDest, autoInc]

/-- The memories after one unit are those of its data movement. -/
theorem dmaUnit_memories (t : Transfer) (s : State) :
    (dmaUnit t s).vdp.vram = (dmaMove t s).vdp.vram ∧ (dmaUnit t s).vdp.cram = (dmaMove t s).vdp.cram ∧
      (dmaUnit t s).vdp.vsram = (dmaMove t s).vdp.vsram ∧ (dmaUnit t s).draws = (dmaMove t s).draws :=
  ⟨rfl, rfl, rfl, rfl⟩

theorem dmaUnit_frame (t : Transfer) (s : State) : DmaFrame s (dmaUnit t s) := by
  obtain ⟨x, y, z, n, h⟩ := dmaMove_eq t s
  constructor
  case regs =>
    intro k hk
    simp only [outsideDmaRegs, Bool.and_eq_true, decide_eq_true_eq] at hk
    obtain ⟨⟨⟨h1, h2⟩, h3⟩, h4⟩ := hk
    simp [dmaUnit, h, advanceSource, setDmaLength, setSrcLow, reg_memories, Ne.symm h1, Ne.symm h2, Ne.symm h3,
      Ne.symm h4]
  all_goals simp [dmaUnit, h, advanceSource, setDmaLength, setSrcLow]

theorem dmaComplete_frame (s : State) : DmaFrame s (dmaComplete s) := by
  constructor <;> simp [dmaComplete]

theorem setResult_dmaFrame (s : State) (r : Result) : DmaFrame s (s.setResult r) := by
  constructor <;> simp

/-- At most `n` units leave everything of the frame alone. -/
theorem dmaRun_frame (n : Nat) (s : State) : DmaFrame s (dmaRun n s) := by
  induction n generalizing s with
  | zero => exact setResult_dmaFrame s _
  | succ k ih =>
    unfold dmaRun
    split
    · exact setResult_dmaFrame s _
    · rename_i t ht
      simp only
      split
      · exact ((dmaUnit_frame t s).trans (dmaComplete_frame _)).trans (setResult_dmaFrame _ _)
      · exact (dmaUnit_frame t s).trans (ih _)

/-- DO_DMA leaves everything of the frame alone (R162). -/
theorem doDma_frame (h : HRes) (b : Bool) (s : State) : DmaFrame s (doDma h b s) := by
  unfold doDma
  split
  · exact setResult_dmaFrame s _
  · split
    · exact setResult_dmaFrame s _
    · exact dmaRun_frame _ s

/-- An induction over the units of a call: what one unit and the completion keep, the call keeps. -/
theorem dmaRun_induct (K : State → State → Prop) (hr : ∀ s r, K s (s.setResult r))
    (hu : ∀ s t, s.vdp.dma = some t → K s (dmaUnit t s))
    (hc : ∀ s, dmaLength s.vdp = 0#16 → K s (dmaComplete s))
    (ht : ∀ s t u, K s t → K t u → K s u) (n : Nat) (s : State) : K s (dmaRun n s) := by
  induction n generalizing s with
  | zero => exact hr s _
  | succ k ih =>
    unfold dmaRun
    split
    · exact hr s _
    · rename_i t hst
      simp only
      split
      · rename_i hl
        exact ht _ _ _ (ht _ _ _ (hu s t hst) (hc _ hl)) (hr _ _)
      · exact ht _ _ _ (hu s t hst) (ih _)

/-- The same for DO_DMA. -/
theorem doDma_induct (K : State → State → Prop) (hr : ∀ s r, K s (s.setResult r))
    (hu : ∀ s t, s.vdp.dma = some t → K s (dmaUnit t s))
    (hc : ∀ s, dmaLength s.vdp = 0#16 → K s (dmaComplete s))
    (ht : ∀ s t u, K s t → K t u → K s u) (h : HRes) (b : Bool) (s : State) : K s (doDma h b s) := by
  unfold doDma
  split
  · exact hr s _
  · split
    · exact hr s _
    · exact dmaRun_induct K hr hu hc ht _ s

/-- How a setup can end: declined, in error, or with a new transfer; never with a transfer already there (R155). -/
theorem dmaSetup_eq_next {m : AccessMode} {cmd : Command} {m1 : Bool} {s t : State}
    (h : dmaSetup m cmd m1 s = .next t) :
    s.vdp.dma = none ∧
      ((m1 = false ∧ t = (s.setVdp (s.vdp.addLog .dmaDeclined)).setResult .absent) ∨
        (m1 = true ∧ selectMode (dmaTypeCode s.vdp) m = none ∧ t = dmaError s) ∨
        ∃ mode, m1 = true ∧ selectMode (dmaTypeCode s.vdp) m = some mode ∧ t = dmaStart mode m cmd s) := by
  unfold dmaSetup at h
  split at h
  · cases h
  · rename_i hd
    refine ⟨by simpa using hd, ?_⟩
    split at h
    · rename_i hm
      cases h
      exact .inl ⟨hm, rfl⟩
    · rename_i hm
      have hm' : m1 = true := by simpa using hm
      split at h <;> cases h
      · rename_i mode hs
        exact .inr (.inr ⟨mode, hm', hs, rfl⟩)
      · rename_i hs
        exact .inr (.inl ⟨hm', hs, rfl⟩)

/-- How a fill start can end (R160). -/
theorem dmaFillStart_eq_next {d : Word} {s t : State} (h : dmaFillStart d s = .next t) :
    ∃ tr, s.vdp.dma = some tr ∧ fillArmed (some tr) = true ∧
      t = s.setVdp ((vramWrite (tr.destAddress ^^^ 1#16) (d.extractLsb' 8 8) s.vdp).setDma
        (some { tr with fillData := some d, fillStarted := true }) s.vdp.dmaBusy) := by
  unfold dmaFillStart at h
  split at h
  · rename_i tr htr
    split at h
    · rename_i ha
      cases h
      exact ⟨tr, htr, ha, rfl⟩
    · cases h
  · cases h

end Sys2Proof.Machine
end

