-- ==== Sys2Proof/Laws/Ops.lean ====
section
/-! SUPPORT. One lemma per shared operation that says everything it can do: where it answers a next state, what that
state is. -/

namespace Sys2Proof.Machine

open Sys2Proof

/-- Where `set_mode` answers a next state, the mode has a record and the counters are reset (R110). -/
theorem setMode_eq_next {m : VideoMode} {s t : State} :
    setMode m s = .next t ↔
      ∃ p, timingOf s.cfg m = some p ∧ t = s.setVdp (resetCounters { s.vdp with curMode := m }) := by
  unfold setMode
  split
  · rename_i p hp
    simp [hp, eq_comm]
  · rename_i hp
    simp [hp]

/-- The two ends of a push with a next state (R140). -/
theorem fifoPush_eq_next {m : AccessMode} {a d : Word} {s t : State} (h : fifoPush m a d s = .next t) :
    isWriteCode m = true ∧
      ((fifoFull s.cfg s.vdp.fifo = true ∧ t = (s.setVdp (s.vdp.addLog .fifoFull)).setResult .full) ∨
        (fifoFull s.cfg s.vdp.fifo = false ∧
          t = (s.setVdp (s.vdp.setFifo (fifoAppend s.cfg { ramMode := m, address := a, data := d } s.vdp.fifo))).setResult
            .ok)) := by
  unfold fifoPush at h
  split at h
  · cases h
  · rename_i hm
    refine ⟨by simpa using hm, ?_⟩
    split at h <;> cases h
    · rename_i hf
      exact .inl ⟨hf, rfl⟩
    · rename_i hf
      exact .inr ⟨by simpa using hf, rfl⟩

/-- The two ends of a drain with a next state: nothing written, or the oldest entry (R145, R146). -/
theorem fifoDrainOne_eq_next {s t : State} (h : fifoDrainOne s = .next t) :
    ((s.vdp.dma.isSome = true ∨ s.vdp.fifo.count = 0) ∧ t = s.setResult (.bool false)) ∨
      (s.vdp.dma = none ∧ s.vdp.fifo.count ≠ 0 ∧ ∃ g, writeTargetOf (s.vdp.fifo.slotAt s.vdp.fifo.head).ramMode = some g ∧
        t = (s.setVdp (writeTarget s.cfg g (s.vdp.fifo.slotAt s.vdp.fifo.head).address
          (s.vdp.fifo.slotAt s.vdp.fifo.head).data (s.vdp.setFifo (fifoDrop s.cfg s.vdp.fifo)))).setResult (.bool true)) := by
  unfold fifoDrainOne at h
  split at h
  · rename_i hd
    cases h
    exact .inl ⟨.inl hd, rfl⟩
  · rename_i hd
    split at h
    · rename_i hc
      cases h
      exact .inl ⟨.inr hc, rfl⟩
    · rename_i hc
      simp only at h
      split at h <;> cases h
      rename_i g hg
      exact .inr ⟨by simpa using hd, hc, g, hg, rfl⟩

/-- A drain changes the FIFO and the memories of the record, and the result. -/
theorem fifoDrainOne_frame {s t : State} (h : fifoDrainOne s = .next t) :
    ∃ f x y z r, t = { s with vdp := { s.vdp with fifo := f, vram := x, cram := y, vsram := z }, result := r } := by
  rcases fifoDrainOne_eq_next h with ⟨-, rfl⟩ | ⟨-, -, g, -, rfl⟩
  · exact ⟨s.vdp.fifo, s.vdp.vram, s.vdp.cram, s.vdp.vsram, _, rfl⟩
  · obtain ⟨x, y, z, hw⟩ := writeTarget_memories s.cfg g (s.vdp.fifo.slotAt s.vdp.fifo.head).address
      (s.vdp.fifo.slotAt s.vdp.fifo.head).data (s.vdp.setFifo (fifoDrop s.cfg s.vdp.fifo))
    exact ⟨fifoDrop s.cfg s.vdp.fifo, x, y, z, .bool true, by rw [hw]; rfl⟩

/-- A poll of the primary channel changes its state and records the calls, nothing else (R190, R200). -/
theorem pollPrimary_frame (a p : Bool) (s : State) :
    ∃ c calls, pollPrimary a p s = { s with vdp := { s.vdp with prim := c }, cpuCalls := s.cpuCalls ++ calls } := by
  obtain ⟨cfg, vdp, result, cpuCalls, draws, inbox⟩ := s
  have keep : ∀ x : Record, x = { x with prim := x.prim } := fun _ => rfl
  simp only [pollPrimary]
  split
  · split
    · exact ⟨vdp.prim, [], by simp⟩
    · exact ⟨.pending, [], by simp [setPrim, State.setVdp, Record.setPrim]⟩
  · split
    · exact ⟨.none, [], by simp [setPrim, State.setVdp, Record.setPrim]⟩
    · split
      · exact ⟨vdp.prim, [], by simp⟩
      · split
        · exact ⟨.asserted, _, rfl⟩
        · exact ⟨vdp.prim, _, rfl⟩
  · exact ⟨vdp.prim, [], by simp⟩
  · exact ⟨.none, [], by simp [setPrim, State.setVdp, Record.setPrim]⟩

/-- A poll of the coprocessor channel changes its state and the latch and records the calls, nothing else (R195). The
latch only rises, and PENDING is entered only with the latch clear. -/
theorem pollCoprocessor_frame (a p e : Bool) (s : State) :
    ∃ c f calls, pollCoprocessor a p e s =
        { s with vdp := { s.vdp with cop := c, frameExpired := f }, cpuCalls := s.cpuCalls ++ calls } ∧
      (s.vdp.frameExpired = true → f = true ∧ (c = .pending → s.vdp.cop = .pending)) := by
  obtain ⟨cfg, vdp, result, cpuCalls, draws, inbox⟩ := s
  simp only [pollCoprocessor]
  split
  · rename_i hc
    split
    · rename_i hf
      simp only [Bool.and_eq_true, Bool.not_eq_true'] at hf
      refine ⟨.pending, true, [], by simp [copFire, State.setVdp, Record.setCop], ?_⟩
      intro h
      simp [hf.1.2] at h
    · exact ⟨vdp.cop, vdp.frameExpired, [], by simp, fun h => ⟨h, fun h => h⟩⟩
  · rename_i hc
    split
    · exact ⟨.none, vdp.frameExpired, [], by simp [setCop, State.setVdp, Record.setCop], by simp⟩
    · split
      · exact ⟨vdp.cop, vdp.frameExpired, [], by simp, by simp⟩
      · split
        · exact ⟨.asserted, vdp.frameExpired, _, rfl, by simp⟩
        · exact ⟨vdp.cop, vdp.frameExpired, _, rfl, by simp⟩
  · rename_i hc
    split
    · exact ⟨vdp.cop, vdp.frameExpired, [], by simp, by simp [hc]⟩
    · exact ⟨.acked, vdp.frameExpired, _, rfl, by simp⟩
  · exact ⟨.none, vdp.frameExpired, [], by simp [setCop, State.setVdp, Record.setCop], by simp⟩

/-- An ack changes CounterState's pending flags, the primary channel and the log, nothing else (R192). -/
theorem ackPrimary_frame (l : Byte) (v : Record) :
    ∃ vp hp c k, ackPrimary l v =
      { v with cs := { v.cs with vIntPending := vp, hIntPending := hp }, prim := c, log := v.log ++ k } ∧
      (vp = true → v.cs.vIntPending = true) := by
  obtain ⟨curMode, cs, regs, fifo, dma, dmaBusy, prim, cop, frameExpired, copTriggerLine, vram, cram, vsram, log⟩ := v
  simp only [ackPrimary]
  split
  · simp only [ackChannel]
    split
    · exact ⟨false, cs.hIntPending, .acked, [], by simp [Record.setPrim, Record.setCs], by simp⟩
    · exact ⟨false, cs.hIntPending, prim, [], by simp [Record.setCs], by simp⟩
  · split
    · simp only [ackChannel]
      split
      · exact ⟨cs.vIntPending, false, .acked, [], by simp [Record.setPrim, Record.setCs], by simp⟩
      · exact ⟨cs.vIntPending, false, prim, [], by simp [Record.setCs], by simp⟩
    · exact ⟨cs.vIntPending, cs.hIntPending, prim, [.ackIgnored], rfl, by simp⟩

/-- The two ends of a register write: the register alone, or the register and a mode change (R224). -/
theorem regWriteAt_eq_next {i : Fin numRegs} {b : Byte} {s t : State} (h : regWriteAt i b s = .next t) :
    t = s.setVdp (s.vdp.setReg i b) ∨
      ((i = 1 ∨ i = 12) ∧ ∃ p, timingOf s.cfg (selectedMode s.cfg (s.vdp.setReg i b)) = some p ∧
        t = s.setVdp (resetCounters { s.vdp.setReg i b with curMode := selectedMode s.cfg (s.vdp.setReg i b) })) := by
  unfold regWriteAt at h
  simp only at h
  split at h
  · rename_i hi
    obtain ⟨p, hp, ht⟩ := setMode_eq_next.mp h
    exact .inr ⟨hi.1, p, hp, ht⟩
  · cases h
    exact .inl rfl

/-- A bus call that answers a next state was not stalled (R230). -/
theorem busCall_eq_next {s t : State} {k : Out} : busCall s k = .next t ↔ cpuStall s.vdp = false ∧ k = .next t := by
  unfold busCall
  split <;> simp_all

/-- The two ends of a command word (R225). -/
theorem controlCommand_eq_next {cmd : Command} {s t : State} (h : controlCommand cmd s = .next t) :
    (commandRequestsDma cmd = false ∧ t = s.setResult .noResult) ∨
      (commandRequestsDma cmd = true ∧
        ∃ u, dmaSetup (commandMode cmd) cmd (m1Enabled s.vdp) s = .next u ∧ t = u.setResult .noResult) := by
  unfold controlCommand at h
  split at h
  · rename_i hc
    obtain ⟨u, hu, ht⟩ := (andThen_eq_next _ _ _).mp h
    cases ht
    exact .inr ⟨hc, u, hu, rfl⟩
  · rename_i hc
    cases h
    exact .inl ⟨by simpa using hc, rfl⟩

/-- The advance of a tick changes CounterState, and the latch and the trigger line at the start of a frame (R220). -/
theorem tickAdvance_frame (p : TimingParams) (v : Record) :
    ∃ f l, tickAdvance p v =
      { v with cs := advanceCounters p (lineCounter v) v.cs, frameExpired := f, copTriggerLine := l } := by
  unfold tickAdvance
  simp only
  split
  · exact ⟨_, _, rfl⟩
  · exact ⟨v.frameExpired, v.copTriggerLine, rfl⟩

/-- What RESTORE asks of a transfer (R233; spec/10_state.md R36, log 24). -/
theorem transferValid_iff (t : Transfer) :
    transferValid t = true ↔ (t.fillStarted = true → t.mode = .vramFill) ∧
      (t.mode ≠ .memToVram → t.destRamType = .vram) ∧ (t.fillData ≠ none → t.mode = .vramFill) := by
  obtain ⟨mode, dest, target, fill, started⟩ := t
  cases mode <;> cases target <;> cases fill <;> cases started <;> simp [transferValid, fillWordFits]

/-- A setup creates a valid transfer (R157). -/
theorem newTransfer_valid (mode : DmaMode) (m : AccessMode) (cmd : Command) :
    transferValid (newTransfer mode m cmd) = true := by
  rw [transferValid_iff]
  cases mode <;> simp [newTransfer]

/-- The two ends of RESTORE (R233). -/
theorem execRestore_eq_next {r : Record} {s t : State} :
    execRestore r s = .next t ↔ restoreValid s.cfg r = true ∧
      t = ((s.setVdp r).setDraws (drawsAfter s.draws r)).setResult .noResult := by
  unfold execRestore
  split <;> rename_i h <;> simp [h, eq_comm]

/-- After a RESTORE the countdown is in `[-1, 255]`, and outside `[0, 255]` only where the record holds -1 (log 13). -/
theorem execRestore_countdown {r : Record} {s t : State} (h : execRestore r s = .next t) :
    t.vdp.cs.hLinePassed = r.cs.hLinePassed ∧ -1 ≤ r.cs.hLinePassed.toInt ∧ r.cs.hLinePassed.toInt ≤ 255 ∧
      (r.cs.hLinePassed ≠ -1 → 0 ≤ r.cs.hLinePassed.toInt) := by
  obtain ⟨hv, rfl⟩ := execRestore_eq_next.mp h
  simp only [restoreValid, countdownValid, Bool.and_eq_true, decide_eq_true_eq] at hv
  refine ⟨rfl, hv.2.1, hv.2.2, fun hn => ?_⟩
  have hne : r.cs.hLinePassed.toInt ≠ -1 := fun e => hn (BitVec.eq_of_toInt_eq (by simpa using e))
  omega

/-- Where a tick answers a next state: the polls, the advance, the drain, then the DMA slot (R220). -/
theorem tickOnce_eq_next {a0 s0 a1 s1 e : Bool} {s t : State} (h : tickOnce a0 s0 a1 s1 e s = .next t) :
    ∃ p u, paramsOf s = some p ∧
      fifoDrainOne ((tickPolls a0 s0 a1 s1 e s).setVdp (tickAdvance p (tickPolls a0 s0 a1 s1 e s).vdp)) = .next u ∧
      t = (tickDma p u).setResult .noResult := by
  unfold tickOnce at h
  obtain ⟨p, hp, h⟩ := (withParams_eq_next _ _ _).mp h
  obtain ⟨u, hu, ht⟩ := (andThen_eq_next _ _ _).mp h
  cases ht
  exact ⟨p, u, hp, hu, rfl⟩

/-- The polls of a tick change the two channels, the latch and the record of calls (R220). -/
theorem tickPolls_frame (a0 s0 a1 s1 e : Bool) (s : State) :
    ∃ c d f calls, tickPolls a0 s0 a1 s1 e s =
        { s with vdp := { s.vdp with prim := c, cop := d, frameExpired := f }, cpuCalls := s.cpuCalls ++ calls } ∧
      (s.vdp.frameExpired = true → f = true ∧ (d = .pending → s.vdp.cop = .pending)) := by
  obtain ⟨c, calls, h⟩ := pollPrimary_frame a0 s0 s
  obtain ⟨d, f, calls', h', g⟩ := pollCoprocessor_frame a1 s1 e (pollPrimary a0 s0 s)
  refine ⟨c, d, f, calls ++ calls', ?_, ?_⟩
  · rw [tickPolls, h', h]
    simp
  · rw [h] at g
    exact g

/-- What one tick keeps, a run of ticks keeps. -/
theorem tickTimes_induct (K : State → State → Prop) (hr : ∀ s, K s s) (ht : ∀ s t u, K s t → K t u → K s u)
    {a0 s0 a1 s1 e : Bool} (h1 : ∀ s t, tickOnce a0 s0 a1 s1 e s = .next t → K s t) {n : Nat} {s t : State}
    (h : tickTimes n a0 s0 a1 s1 e s = .next t) : K s t := by
  induction n generalizing s with
  | zero =>
    cases h
    exact hr _
  | succ k ih =>
    obtain ⟨u, hu, h⟩ := (andThen_eq_next _ _ _).mp h
    exact ht _ _ _ (h1 _ _ hu) (ih h)

end Sys2Proof.Machine
end

