-- ==== Sys2Proof/Laws/PerInstr.lean ====
section
/-! SUPPORT. A family of statements about every instruction as syntax: the length of its serialized form, where it has
one, is fixed by its selector (spec/30_encoding.md R94). -/

namespace Sys2Proof.Laws.EncodingLength

open Sys2Proof Sys2Proof.Machine

/-- The serialized form of the instruction begins with a selector and has the length of that selector. -/
def Statement (i : Instr) : Prop :=
  ∀ bs, encode i = some bs → ∃ sel r, bs = sel :: r ∧ operationLength sel = some bs.length

/-- A serialized form of the length of its selector. -/
theorem of_some {i : Instr} {sel : Byte} {r : List Byte} (h : encode i = some (sel :: r))
    (hl : operationLength sel = some (sel :: r).length) : Statement i := by
  intro cs hc
  cases h.symm.trans hc
  exact ⟨sel, r, rfl, hl⟩

/-- No serialized form. -/
theorem of_none {i : Instr} (h : encode i = none) : Statement i := by
  intro cs hc
  cases h.symm.trans hc

theorem setMode (mode : VideoMode) : Statement (.setMode mode) := of_some rfl rfl
theorem resetCounters : Statement .resetCounters := of_some rfl rfl
theorem advanceH : Statement .advanceH := of_some rfl rfl
theorem readCounters : Statement .readCounters := of_some rfl rfl
theorem fifoPush (ramMode : AccessMode) (addr : Word) (data : Word) : Statement (.fifoPush ramMode addr data) :=
  of_some rfl rfl
theorem fifoPop : Statement .fifoPop := of_some rfl rfl
theorem fifoIsEmpty : Statement .fifoIsEmpty := of_some rfl rfl
theorem fifoIsFull : Statement .fifoIsFull := of_some rfl rfl
theorem fifoDrainOne : Statement .fifoDrainOne := of_some rfl rfl
theorem dmaSetup (vramMode : AccessMode) (cmd : Command) (m1 : Bool) : Statement (.dmaSetup vramMode cmd m1) :=
  of_some rfl rfl
theorem dmaFillStart (data : Word) : Statement (.dmaFillStart data) := of_some rfl rfl
theorem doDma (mode : VideoMode) (isBlanking : Bool) : Statement (.doDma mode isBlanking) := of_some rfl rfl
theorem decreaseLength (len : Word) : Statement (.decreaseLength len) := of_some rfl rfl
theorem pollPrimary (accept : Bool) (stopped : Bool) : Statement (.pollPrimary accept stopped) := of_some rfl rfl
theorem ackPrimary (level : Byte) : Statement (.ackPrimary level) := of_some rfl rfl
theorem pollCoprocessor (accept : Bool) (stopped : Bool) (copIntEnable : Bool) : Statement (.pollCoprocessor accept stopped copIntEnable) :=
  of_some rfl rfl
theorem newFrame : Statement .newFrame := of_some rfl rfl
theorem primaryLevel : Statement .primaryLevel := of_some rfl rfl
theorem tick (accept0 : Bool) (stopped0 : Bool) (accept1 : Bool) (stopped1 : Bool) (copIntEnable : Bool) : Statement (.tick accept0 stopped0 accept1 stopped1 copIntEnable) :=
  of_some rfl rfl
theorem regWrite (index : Byte) (value : Byte) : Statement (.regWrite index value) := of_some rfl rfl
theorem regRead (index : Byte) : Statement (.regRead index) := of_some rfl rfl
theorem controlWritePair (w1 : Word) (w2 : Word) : Statement (.controlWritePair w1 w2) := of_some rfl rfl
theorem dataWrite (ramMode : AccessMode) (addr : Word) (data : Word) : Statement (.dataWrite ramMode addr data) :=
  of_some rfl rfl
theorem snapshot : Statement .snapshot := of_none rfl
theorem restore (record : Record) : Statement (.restore record) := of_none rfl
theorem resetSystem : Statement .resetSystem := of_some rfl rfl
theorem ticks (n : Nat) (accept0 : Bool) (stopped0 : Bool) (accept1 : Bool) (stopped1 : Bool) (copIntEnable : Bool) : Statement (.ticks n accept0 stopped0 accept1 stopped1 copIntEnable) :=
  of_none rfl
theorem cmdDmaRequest (cd : BitVec 5) (a : Word) (ignoredHi : Byte) (ignoredLo : BitVec 2) : Statement (.cmdDmaRequest cd a ignoredHi ignoredLo) :=
  of_none rfl
theorem cmdAddressOnly (cd : BitVec 5) (a : Word) (ignoredHi : Byte) (ignoredLo : BitVec 2) : Statement (.cmdAddressOnly cd a ignoredHi ignoredLo) :=
  of_none rfl
theorem dmaCopy (m : AccessMode) : Statement (.dmaCopy m) := of_none rfl
theorem dmaFill : Statement .dmaFill := of_none rfl
theorem dmaMem2VramVram (codeLow : Bool) : Statement (.dmaMem2VramVram codeLow) := of_none rfl
theorem dmaMem2VramCram (codeLow : Bool) : Statement (.dmaMem2VramCram codeLow) := of_none rfl
theorem dmaMem2VramVsram (codeLow : Bool) : Statement (.dmaMem2VramVsram codeLow) := of_none rfl
theorem dmaConfigError (code : BitVec 2) (m : AccessMode) : Statement (.dmaConfigError code m) := of_none rfl

end Sys2Proof.Laws.EncodingLength
end

