-- ==== Sys2Proof/Laws/Timing.lean ====
section
/-! SUPPORT. The laws of the raster counters: what each of the five steps of ADVANCE_H leaves alone, the value a counter
steps to, and what a well-formed timing record bounds. -/

namespace Sys2Proof.Machine

open Sys2Proof

/-- A mode that has a record has a well-formed one (spec/10_state.md R24). -/
theorem timingOf_wf {cfg : Config} {m : VideoMode} {p : TimingParams} (h : timingOf cfg m = some p) :
    paramsWf p = true := by
  unfold timingOf at h
  split at h
  · split at h <;> simp_all
  · cases h

/-- The look-up of a record is the library's look-up in a list of pairs. -/
theorem findTiming_eq_lookup (m : VideoMode) (l : List (VideoMode × TimingParams)) : findTiming m l = l.lookup m := by
  induction l with
  | nil => rfl
  | cons c rest ih =>
    obtain ⟨k, p⟩ := c
    by_cases h : k = m
    · simp [findTiming, List.lookup, h]
    · have hb : (m == k) = false := by simp [Ne.symm h]
      simp [findTiming, List.lookup, h, hb, ih]

/-- Membership in a counter's set, as R22 writes it. -/
theorem inCounterSet_iff (trigger total x : Nat) :
    inCounterSet trigger total x = true ↔ x < trigger ∨ (1 + 0x1FF + trigger - total ≤ x ∧ x ≤ 0x1FF) := by
  simp only [inCounterSet, Bool.or_eq_true, Bool.and_eq_true, decide_eq_true_eq]
  simp only [jumpTarget, counterLimit]

/-- The bounds of a well-formed record (spec/10_state.md R24). -/
theorem paramsWf_bounds {p : TimingParams} (h : paramsWf p = true) :
    (1 ≤ p.hJumpTrigger ∧ p.hJumpTrigger ≤ 511 ∧ p.hJumpTrigger + 1 ≤ p.hTotal ∧ p.hTotal ≤ 512) ∧
      (1 ≤ p.vJumpTrigger ∧ p.vJumpTrigger ≤ 511 ∧ p.vJumpTrigger + 1 ≤ p.vTotal ∧ p.vTotal ≤ 512) ∧
      p.hBlankSet ≠ p.hBlankClear ∧ p.vCounterIncrementOn + 2 ≤ 511 ∧ 1 ≤ p.vBlankSet ∧ p.vBlankSet < p.vJumpTrigger := by
  simp [paramsWf, counterWf, eventsWf, counterLimit] at h
  omega

/-- The value a counter steps to, where its total lies above its trigger (spec/10_state.md R24). -/
theorem nextCounter_toNat (trigger total : Nat) (c : Counter) (h : trigger + 1 ≤ total) :
    (nextCounter trigger total c).toNat =
      if (c.toNat + 1) % 512 = trigger then jumpTarget trigger total else (c.toNat + 1) % 512 := by
  have hn : (c + 1#9).toNat = (c.toNat + 1) % 512 := by simp [BitVec.toNat_add]
  simp only [nextCounter, hn]
  split
  · simp [jumpTarget, counterLimit]
    omega
  · rw [hn]

/-- Step 5 changes `v_int_pending` only. -/
theorem stepVint_eq (p : TimingParams) (cs : CounterState) :
    stepVint p cs = { cs with
      vIntPending := cs.vIntPending || decide (cs.hCounter = 2 ∧ cs.vCounter.toNat = p.vBlankSet) } := by
  obtain ⟨h, v, hb, vb, vi, hi, hl⟩ := cs
  unfold stepVint
  split <;> rename_i hc <;> simp_all

@[simp] theorem stepHint_hCounter (p : TimingParams) (r : Byte) (cs : CounterState) :
    (stepHint p r cs).hCounter = cs.hCounter := by
  unfold stepHint
  split <;> rfl

@[simp] theorem stepHint_vCounter (p : TimingParams) (r : Byte) (cs : CounterState) :
    (stepHint p r cs).vCounter = cs.vCounter := by
  unfold stepHint
  split <;> rfl

@[simp] theorem stepHint_hBlankSet (p : TimingParams) (r : Byte) (cs : CounterState) :
    (stepHint p r cs).hBlankSet = cs.hBlankSet := by
  unfold stepHint
  split <;> rfl

@[simp] theorem stepHint_vBlankSet (p : TimingParams) (r : Byte) (cs : CounterState) :
    (stepHint p r cs).vBlankSet = cs.vBlankSet := by
  unfold stepHint
  split <;> rfl

@[simp] theorem stepHint_vIntPending (p : TimingParams) (r : Byte) (cs : CounterState) :
    (stepHint p r cs).vIntPending = cs.vIntPending := by
  unfold stepHint
  split <;> rfl

@[simp] theorem stepV_hCounter (p : TimingParams) (cs : CounterState) : (stepV p cs).hCounter = cs.hCounter := by
  unfold stepV
  split <;> rfl

@[simp] theorem stepV_hBlankSet (p : TimingParams) (cs : CounterState) : (stepV p cs).hBlankSet = cs.hBlankSet := by
  unfold stepV
  split <;> rfl

@[simp] theorem stepV_vIntPending (p : TimingParams) (cs : CounterState) :
    (stepV p cs).vIntPending = cs.vIntPending := by
  unfold stepV
  split <;> rfl

@[simp] theorem stepV_hIntPending (p : TimingParams) (cs : CounterState) :
    (stepV p cs).hIntPending = cs.hIntPending := by
  unfold stepV
  split <;> rfl

@[simp] theorem stepV_hLinePassed (p : TimingParams) (cs : CounterState) :
    (stepV p cs).hLinePassed = cs.hLinePassed := by
  unfold stepV
  split <;> rfl

/-- The new `h` of ADVANCE_H. -/
@[simp] theorem advanceCounters_hCounter (p : TimingParams) (r : Byte) (cs : CounterState) :
    (advanceCounters p r cs).hCounter = nextCounter p.hJumpTrigger p.hTotal cs.hCounter := by
  simp [advanceCounters, stepVint_eq, stepHBlank, stepH]

/-- The new `v` of ADVANCE_H: it moves only where the new `h` is `v_counter_increment_on`. -/
@[simp] theorem advanceCounters_vCounter (p : TimingParams) (r : Byte) (cs : CounterState) :
    (advanceCounters p r cs).vCounter =
      if (nextCounter p.hJumpTrigger p.hTotal cs.hCounter).toNat = p.vCounterIncrementOn then
        nextCounter p.vJumpTrigger p.vTotal cs.vCounter
      else cs.vCounter := by
  simp only [advanceCounters, stepVint_eq, stepHint_vCounter]
  unfold stepV
  split <;> rename_i h <;> simp only [stepHBlank, stepH] at h <;> simp [stepHBlank, stepH, h]

end Sys2Proof.Machine
end

