-- ==== Sys2Proof/Tests/Slice0.lean ====
section
/-! SUPPORT. Tests of the model. Expected values come from spec/95_test_vectors.md (the vector is named at each test) and
from the encodings of spec/30_encoding.md; none is the model's own answer. -/

namespace Sys2Proof.Tests

open Sys2Proof Sys2Proof.Machine

/-- The next state of an outcome meets a test. -/
def nextIs (o : Host.Outcome State Fault Refusal) (f : State → Bool) : Bool :=
  match o with
  | .next t => f t
  | .fault _ => false
  | .refused _ => false

/-- The outcome is a given fault. -/
def faultIs (o : Host.Outcome State Fault Refusal) (f : Fault) : Bool :=
  match o with
  | .fault g => decide (g = f)
  | .next _ => false
  | .refused _ => false

/-- The outcome is a given refusal. -/
def refusedIs (o : Host.Outcome State Fault Refusal) (r : Refusal) : Bool :=
  match o with
  | .refused q => decide (q = r)
  | .next _ => false
  | .fault _ => false

/-- The reset state with a record changed. -/
def withVdp (f : Record → Record) : State := State.reset.setVdp (f State.reset.vdp)

/-- The reset state with the raster at `(h, v)`. -/
def at_ (h v : Counter) : State :=
  withVdp fun r => { r with cs := { r.cs with hCounter := h, vCounter := v } }

/-- The toy mode T1 of spec/95_test_vectors.md. -/
def toyParams : TimingParams :=
  { hTotal := 8, hJumpTrigger := 5, hBlankSet := 4, hBlankClear := 1, vCounterIncrementOn := 1,
    vTotal := 6, vJumpTrigger := 4, vBlankSet := 3 }

/-- The standard configuration with toy mode T1 for H32/V28/PAL. -/
def toyConfig : Config := { standardConfig with timing := [(⟨.h32, .v28, .pal⟩, toyParams)] }

/-- The state that configuration resets to, with a record changed. -/
def toy (f : Record → Record) : State :=
  { State.reset with cfg := toyConfig, vdp := f (resetRecord toyConfig toyParams 0) }

/-- A transfer of a mode to VRAM at an address. -/
def transferTo (mode : DmaMode) (dest : Word) (fill : Option Word) (started : Bool) : Transfer :=
  { mode := mode, destAddress := dest, destRamType := .vram, fillData := fill, fillStarted := started }

/-- A record with a live transfer, a length and an increment. -/
def withTransfer (t : Transfer) (len : Word) (inc : Byte) (r : Record) : Record :=
  setDmaLength len ((r.setDma (some t) true).setReg 15 inc)

/-! Well-formedness: the one check refuses its ill-formed term. -/

theorem test_wf_config_error_row : (Instr.dmaConfigError 0b10#2 0b0011#4).wf = true := by decide

theorem test_wf_refuses_pair_of_an_earlier_row : (Instr.dmaConfigError 0b11#2 0b0000#4).wf = false := by decide

theorem test_step_refuses_ill_formed_call :
    refusedIs (step (State.reset.setInbox [.call (.dmaConfigError 0b11#2 0b0000#4)])) .badOperand = true := by decide

/-! Decoding: each operation's bytes, written out from spec/30_encoding.md R93 (selector, then operands big-endian). -/

theorem test_decode_set_mode : decode [0x01, 0x0B] = .ok (.setMode ⟨.h40, .v30, .ntscU⟩, []) := by decide
theorem test_decode_reset_counters : decode [0x02, 0xFF] = .ok (.resetCounters, [0xFF]) := by decide
theorem test_decode_advance_h : decode [0x03] = .ok (.advanceH, []) := by decide
theorem test_decode_read_counters : decode [0x04] = .ok (.readCounters, []) := by decide
theorem test_decode_fifo_push :
    decode [0x10, 0x01, 0x80, 0x00, 0x12, 0x34] = .ok (.fifoPush 1 0x8000 0x1234, []) := by decide
theorem test_decode_fifo_pop : decode [0x11] = .ok (.fifoPop, []) := by decide
theorem test_decode_fifo_is_empty : decode [0x12] = .ok (.fifoIsEmpty, []) := by decide
theorem test_decode_fifo_is_full : decode [0x13] = .ok (.fifoIsFull, []) := by decide
theorem test_decode_fifo_drain_one : decode [0x14] = .ok (.fifoDrainOne, []) := by decide
theorem test_decode_dma_setup :
    decode [0x20, 0x01, 0x40, 0x00, 0x00, 0x82, 0x00] = .ok (.dmaSetup 1 0x40000082 false, []) := by decide
theorem test_decode_dma_fill_start : decode [0x21, 0x12, 0x34] = .ok (.dmaFillStart 0x1234, []) := by decide
theorem test_decode_do_dma : decode [0x22, 0x06, 0x01] = .ok (.doDma ⟨.h32, .v30, .ntscJ⟩ true, []) := by decide
theorem test_decode_decrease_length : decode [0x23, 0x00, 0x00] = .ok (.decreaseLength 0, []) := by decide
theorem test_decode_poll_primary : decode [0x30, 0x01, 0x00] = .ok (.pollPrimary true false, []) := by decide
theorem test_decode_ack_primary : decode [0x31, 0x06] = .ok (.ackPrimary 6, []) := by decide
theorem test_decode_poll_coprocessor :
    decode [0x32, 0x01, 0x00, 0x01] = .ok (.pollCoprocessor true false true, []) := by decide
theorem test_decode_new_frame : decode [0x33] = .ok (.newFrame, []) := by decide
theorem test_decode_primary_level : decode [0x34] = .ok (.primaryLevel, []) := by decide
theorem test_decode_tick :
    decode [0x40, 0x01, 0x00, 0x01, 0x00, 0x00] = .ok (.tick true false true false false, []) := by decide
theorem test_decode_reg_write : decode [0x41, 0x0C, 0x01] = .ok (.regWrite 12 1, []) := by decide
theorem test_decode_reg_read : decode [0x42, 0x18] = .ok (.regRead 24, []) := by decide
theorem test_decode_control_write_pair :
    decode [0x43, 0x40, 0x00, 0x00, 0x82] = .ok (.controlWritePair 0x4000 0x0082, []) := by decide
theorem test_decode_data_write :
    decode [0x44, 0x01, 0x10, 0x00, 0xAB, 0xCD] = .ok (.dataWrite 1 0x1000 0xABCD, []) := by decide
theorem test_decode_reset_system : decode [0x47] = .ok (.resetSystem, []) := by decide
/-- V-P17. -/
theorem test_decode_bad_selectors :
    decode [0x05] = .error .badSelector ∧ decode [0x15] = .error .badSelector ∧ decode [0x48] = .error .badSelector := by
  decide
/-- V-T17, V-P18, and bits 7:4 of a ram_mode. -/
theorem test_decode_bad_operands :
    decode [0x01, 0x0C] = .error .badOperand ∧ decode [0x01, 0x10] = .error .badOperand ∧
      decode [0x30, 0x02, 0x00] = .error .badOperand ∧ decode [0x10, 0x11, 0, 0, 0, 0] = .error .badOperand := by decide
/-- V-P19. -/
theorem test_decode_snapshot_and_restore_bytes :
    decode [0x45] = .error .notSerialized ∧ decode [0x46] = .error .notSerialized := by decide
theorem test_decode_truncated : decode [0x21, 0x12] = .error .truncated := by decide
/-- R87, R90: `CD = 100001`, `A = 0x8000`. -/
theorem test_decode_command_words :
    decodeCommand 0x40000082 = .cmdDmaRequest 0b00001 0x8000 0 0 ∧
      decodeCommand 0x40000002 = .cmdAddressOnly 0b00001 0x8000 0 0 := by decide
/-- R91, one word for each row. -/
theorem test_decode_selection_rows :
    decodeSelect 0x35 = .dmaCopy 5 ∧ decodeSelect 0x21 = .dmaFill ∧ decodeSelect 0x11 = .dmaMem2VramVram true ∧
      decodeSelect 0x03 = .dmaMem2VramCram false ∧ decodeSelect 0x15 = .dmaMem2VramVsram true ∧
      decodeSelect 0x23 = .dmaConfigError 0b10 0b0011 := by decide
theorem test_encode_ticks :
    encodeTicks 2 false false true false true = [0x40, 0, 0, 1, 0, 1, 0x40, 0, 0, 1, 0, 1] := by decide
/-- E-9. -/
theorem test_destination_decode :
    commandDest 0x40000082 = 0x8000 ∧ commandDest 0x7FFF0083 = 0xFFFF ∧ commandDest 0x10010080 = 0x1001 := by decide

/-! The table's words, as the host asks for them. -/

theorem test_table_word_runs :
    nextIs (step (State.reset.withFetchWord 8 0x03)) (fun t => decide (t.result = .counter 1)) = true := by decide
theorem test_table_word_command :
    decodeTableWord 32 0x80 = some (.cmdDmaRequest 0 0 0 0) ∧ decodeTableWord 8 0x05 = some (.dmaMem2VramVsram false) ∧
      decodeTableWord 8 0x46 = none := by decide
theorem test_table_word_snapshot :
    nextIs (step (State.reset.withFetchWord 8 0x45)) (fun t => decide (t.result = .record State.reset.vdp)) = true := by
  decide

/-! Timing counters. -/

/-- V-T15. -/
theorem test_set_mode :
    nextIs (exec (.setMode ⟨.h40, .v28, .pal⟩) (at_ 0x50 0x30))
      (fun t => decide (t.vdp.curMode = ⟨.h40, .v28, .pal⟩) && decide (t.vdp.cs.hCounter = 0) &&
        decide (t.vdp.cs.vCounter = 0)) = true := by decide
/-- V-T16: no NTSC V30 record. -/
theorem test_set_mode_refused :
    refusedIs (exec (.setMode ⟨.h32, .v30, .ntscJ⟩) State.reset) .modeUnsupported = true := by decide
/-- V-T14. -/
theorem test_reset_counters :
    nextIs (exec .resetCounters (withVdp fun r => ({ r with cs := { r.cs with vIntPending := true } }).setReg 10 5))
      (fun t => decide (t.vdp.cs = ⟨0, 0, false, false, false, false, 5⟩)) = true := by decide
/-- V-T2. -/
theorem test_advance_h_jump :
    nextIs (exec .advanceH (at_ 0x127 0)) (fun t => decide (t.result = .counter 0x1D2)) = true := by decide
/-- V-T5. -/
theorem test_advance_v_jump :
    nextIs (exec .advanceH (at_ 0x109 0x102))
      (fun t => decide (t.vdp.cs.hCounter = 0x10A) && decide (t.vdp.cs.vCounter = 0x1CA)) = true := by decide
/-- V-T9: line 0 counts down to -1 and reloads without a HINT. -/
theorem test_advance_hint_line_zero :
    nextIs (exec .advanceH (at_ 0x10B 0))
      (fun t => decide (t.vdp.cs.hLinePassed = 0) && !t.vdp.cs.hIntPending) = true := by decide
/-- V-T19 call 18: VINT on the toy mode's line 3. -/
theorem test_advance_vint_toy :
    nextIs (exec .advanceH (toy fun r => { r with cs := { r.cs with hCounter := 1, vCounter := 3 } }))
      (fun t => t.vdp.cs.vIntPending) = true := by decide
/-- V-T18. -/
theorem test_read_counters :
    nextIs (exec .readCounters State.reset)
      (fun t => decide (t.result = .counters ⟨0, 0, false, false, false, false, 0⟩)) = true := by decide

/-! FIFO. -/

/-- The FIFO holding one entry. -/
def oneEntry (e : FifoEntry) : State :=
  withVdp fun r => { r with fifo := { r.fifo with slots := r.fifo.slots.set 0 e, count := 1 } }

/-- V-F1. -/
theorem test_fifo_push :
    nextIs (exec (.fifoPush 1 0x8000 0x1234) State.reset)
      (fun t => decide (t.result = .ok) && decide (t.vdp.fifo.count = 1)) = true := by decide
/-- V-F3: the mode check comes before the full test. -/
theorem test_fifo_push_bad_mode :
    faultIs (exec (.fifoPush 7 0 0) (withVdp fun r => { r with fifo := { r.fifo with count := 4 } })) .badRamMode = true := by
  decide
theorem test_fifo_pop :
    nextIs (exec .fifoPop (oneEntry ⟨1, 2, 3⟩))
      (fun t => decide (t.result = .entry ⟨1, 2, 3⟩) && decide (t.vdp.fifo.head = 1)) = true := by decide
/-- V-F4, V-F5. -/
theorem test_fifo_is_empty : nextIs (exec .fifoIsEmpty State.reset) (fun t => decide (t.result = .bool true)) = true := by
  decide
theorem test_fifo_is_full :
    nextIs (exec .fifoIsFull (withVdp fun r => { r with fifo := { r.fifo with count := 4 } }))
      (fun t => decide (t.result = .bool true)) = true := by decide
/-- V-F9: an odd address swaps the lanes. -/
theorem test_fifo_drain_odd_address :
    nextIs (exec .fifoDrainOne (oneEntry ⟨1, 0x1001, 0x1234⟩))
      (fun t => decide (t.vdp.vram.read 0x1000 = 0x34) && decide (t.vdp.vram.read 0x1001 = 0x12)) = true := by decide
/-- V-F10, V-F11. -/
theorem test_fifo_drain_cram_and_dropped_vsram :
    nextIs (exec .fifoDrainOne (oneEntry ⟨3, 0x0081, 0xCCDD⟩))
        (fun t => decide (t.vdp.cram.read 0 = 0xCC) && decide (t.vdp.cram.read 1 = 0xDD)) = true ∧
      nextIs (exec .fifoDrainOne (oneEntry ⟨5, 0x0050, 0xAAAA⟩))
        (fun t => decide (t.result = .bool true) && decide (t.vdp.vsram.cells = [])) = true := by decide

/-! DMA. -/

/-- V-D3. -/
theorem test_dma_setup_fill :
    nextIs (exec (.dmaSetup 1 0x40000082 true) (withVdp fun r => r.setReg 23 0x80))
      (fun t => decide (t.result = .dmaMode .vramFill) && t.vdp.dmaBusy && !cpuStall t.vdp &&
        decide (t.vdp.dma = some (transferTo .vramFill 0x8000 none false))) = true := by decide
/-- V-D1 and V-D2. -/
theorem test_dma_setup_declined_and_error :
    nextIs (exec (.dmaSetup 1 0x40000082 false) State.reset) (fun t => decide (t.vdp.log = [.dmaDeclined])) = true ∧
      nextIs (exec (.dmaSetup 3 0xC0000080 true) (withVdp fun r => r.setReg 23 0x80))
        (fun t => decide (t.vdp.log = [.dmaConfigError]) && !t.vdp.dmaBusy) = true := by decide
/-- E-3: the fill's first byte. -/
theorem test_dma_fill_start :
    nextIs (exec (.dmaFillStart 0x68AC) (withVdp (withTransfer (transferTo .vramFill 0x8000 none false) 4 2)))
      (fun t => decide (t.vdp.vram.cells = [(0x8001, 0x68)]) && cpuStall t.vdp) = true := by decide
/-- V-D9. -/
theorem test_dma_fill_start_fault : faultIs (exec (.dmaFillStart 0x1234) State.reset) .noFillTransfer = true := by decide
/-- E-3: four units. -/
theorem test_do_dma_fill :
    nextIs (exec (.doDma ⟨.h32, .v28, .pal⟩ false)
        (withVdp (withTransfer (transferTo .vramFill 0x8000 (some 0x68AC) true) 4 2)))
      (fun t => decide (t.vdp.vram.cells = [(0x8000, 0xAC), (0x8002, 0xAC), (0x8004, 0xAC), (0x8006, 0xAC)]) &&
        decide (t.vdp.dma = none) && decide (srcLow t.vdp = 4) && decide (t.result = .bool true)) = true := by decide
/-- V-D12: an overlapping copy moves forward. -/
theorem test_do_dma_copy_overlap :
    nextIs (exec (.doDma ⟨.h32, .v28, .pal⟩ false)
        (withVdp fun r => withTransfer (transferTo .vramCopy 0x1001 none false) 3 1
          (setSrcLow 0x1000 { r with vram := { r.vram with cells := [(0x1000, 0x5A), (0x1001, 0x11), (0x1002, 0x22), (0x1003, 0x33)] } })))
      (fun t => decide (t.vdp.vram.cells = [(0x1000, 0x5A), (0x1001, 0x5A), (0x1002, 0x5A), (0x1003, 0x5A)]) &&
        decide (srcLow t.vdp = 0x1003)) = true := by decide
/-- V-D6: source, length and register 23 of a MemToVram; the words themselves are free. -/
theorem test_do_dma_mem_registers :
    nextIs (exec (.doDma ⟨.h32, .v28, .pal⟩ false)
        (withVdp fun r => withTransfer { transferTo .memToVram 0 none false with destRamType := .cram } 2 2
          ((setSrcLow 0x1234 r).setReg 23 0x01)))
      (fun t => decide (srcLow t.vdp = 0x1236) && decide (t.vdp.reg 23 = 0x01) && decide (dmaLength t.vdp = 0) &&
        decide (t.vdp.cram.cells.map (fun c => c.1) = [0, 1, 2, 3])) = true := by decide
/-- R173's example: the bus address. -/
theorem test_bus_address :
    busAddress ((setSrcLow 0x0010 State.reset.vdp).setReg 23 0x01) = 0x020020 := by decide
/-- E-2. -/
theorem test_decrease_length :
    nextIs (exec (.decreaseLength 0) State.reset) (fun t => decide (t.result = .length 0xFFFF)) = true ∧
      nextIs (exec (.decreaseLength 0x8000) State.reset) (fun t => decide (t.result = .length 0x7FFF)) = true := by decide

/-! Arbiter. -/

/-- VINT pending and enabled, with a primary channel state. -/
def vint (c : Channel) : State :=
  withVdp fun r => ({ r with prim := c, cs := { r.cs with vIntPending := true } }).setReg 1 0x20

/-- V-A4, V-A5. -/
theorem test_poll_primary_one_transition :
    nextIs (exec (.pollPrimary true false) (vint .none))
        (fun t => decide (t.vdp.prim = .pending) && decide (t.cpuCalls = [])) = true ∧
      nextIs (exec (.pollPrimary true true) (vint .pending))
        (fun t => decide (t.vdp.prim = .pending) && decide (t.cpuCalls = [])) = true := by decide
theorem test_poll_primary_asserts :
    nextIs (exec (.pollPrimary true false) (vint .pending))
      (fun t => decide (t.vdp.prim = .asserted) && decide (t.cpuCalls = [.raiseInterrupt 6])) = true := by decide
/-- V-A7, V-A9. -/
theorem test_ack_primary :
    nextIs (exec (.ackPrimary 6) (vint .asserted))
        (fun t => decide (t.vdp.prim = .acked) && !t.vdp.cs.vIntPending) = true ∧
      nextIs (exec (.ackPrimary 5) (vint .asserted))
        (fun t => decide (t.vdp.log = [.ackIgnored]) && decide (t.vdp.prim = .asserted) && t.vdp.cs.vIntPending) = true := by
  decide
/-- V-A13, V-A15. -/
theorem test_poll_coprocessor :
    nextIs (exec (.pollCoprocessor true false true) (at_ 0 0xE0))
        (fun t => decide (t.vdp.cop = .pending) && t.vdp.frameExpired) = true ∧
      nextIs (exec (.pollCoprocessor false false true) (withVdp fun r => { r with cop := .asserted }))
        (fun t => decide (t.vdp.cop = .acked) && decide (t.cpuCalls = [.interrupt false])) = true := by decide
/-- V-A17. -/
theorem test_new_frame :
    nextIs (exec .newFrame (withVdp fun r => { r with frameExpired := true, curMode := ⟨.h32, .v30, .pal⟩ }))
      (fun t => !t.vdp.frameExpired && decide (t.vdp.copTriggerLine = 0xF0)) = true := by decide
/-- V-A1, V-A3. -/
theorem test_primary_level :
    nextIs (exec .primaryLevel (vint .none)) (fun t => decide (t.result = .level 6)) = true ∧
      nextIs (exec .primaryLevel (withVdp fun r => { r with cs := { r.cs with vIntPending := true } }))
        (fun t => decide (t.result = .level 0)) = true := by decide

/-! Tick and ports. -/

/-- V-P14. -/
theorem test_tick_new_frame :
    nextIs (exec (.tick false false false false false)
        (withVdp fun r => { r with frameExpired := true, cs := { r.cs with hCounter := 0x109, vCounter := 0x1FF } }))
      (fun t => decide (t.vdp.cs.vCounter = 0) && !t.vdp.frameExpired) = true := by decide
/-- The line-boundary tick runs the DMA slot (P-1, tick 266). -/
theorem test_tick_dma_slot :
    nextIs (exec (.tick false false false false false)
        (withVdp fun r => withTransfer (transferTo .vramFill 0x8000 (some 0x68AC) true) 4 2
          { r with cs := { r.cs with hCounter := 0x109 } }))
      (fun t => decide (t.vdp.dma = none) && decide (t.vdp.vram.read 0x8006 = 0xAC)) = true := by decide
/-- V-P5 and V-P6; then the two cases of log 26, where `cur_mode` is not the mode the registers select. -/
theorem test_reg_write_mode :
    nextIs (exec (.regWrite 12 1) (at_ 0x50 0x30))
        (fun t => decide (t.vdp.curMode = ⟨.h40, .v28, .pal⟩) && decide (t.vdp.cs.hCounter = 0)) = true ∧
      nextIs (exec (.regWrite 1 0x20) (at_ 0x50 0x30)) (fun t => decide (t.vdp.cs.hCounter = 0x50)) = true ∧
      nextIs (andThen (exec (.setMode ⟨.h40, .v28, .pal⟩) State.reset) (exec (.regWrite 12 0)))
        (fun t => decide (t.vdp.curMode = ⟨.h32, .v28, .pal⟩)) = true ∧
      nextIs (exec (.regWrite 12 1) (withVdp fun r =>
          { r with curMode := ⟨.h40, .v28, .pal⟩, cs := { r.cs with hCounter := 5, vIntPending := true } }))
        (fun t => decide (t.vdp.cs.hCounter = 5) && t.vdp.cs.vIntPending) = true := by decide
/-- V-P3 and V-P4. -/
theorem test_reg_write_faults :
    faultIs (exec (.regWrite 30 0) (withVdp (withTransfer (transferTo .vramCopy 0 none false) 4 2))) .stalledAccess = true ∧
      faultIs (exec (.regWrite 24 0) State.reset) .badRegIndex = true := by decide
/-- V-P1, V-P2. -/
theorem test_reg_read :
    faultIs (exec (.regRead 24) State.reset) .badRegIndex = true ∧
      nextIs (exec (.regRead 19) (withVdp (withTransfer (transferTo .vramCopy 0 none false) 4 2)))
        (fun t => decide (t.result = .register 4)) = true := by decide
/-- V-P8, V-P9. -/
theorem test_control_write_pair :
    nextIs (exec (.controlWritePair 0x4000 0x0082) (withVdp fun r => (r.setReg 23 0x80).setReg 1 0x10))
        (fun t => decide (t.vdp.dma = some (transferTo .vramFill 0x8000 none false)) && decide (t.result = .noResult)) =
        true ∧
      nextIs (exec (.controlWritePair 0x4000 0x0002) State.reset) (fun t => decide (t.vdp = State.reset.vdp)) = true := by
  decide
/-- V-P11, V-P12. -/
theorem test_data_write :
    nextIs (exec (.dataWrite 0 0xFFFF 0x68AC) (withVdp (withTransfer (transferTo .vramFill 0x8000 none false) 4 2)))
        (fun t => decide (t.result = .ok) && cpuStall t.vdp) = true ∧
      nextIs (exec (.dataWrite 1 0x1000 0xABCD) State.reset) (fun t => decide (t.vdp.fifo.count = 1)) = true := by decide
/-- R233's example. -/
theorem test_restore_of_snapshot :
    nextIs (exec .snapshot State.reset) (fun t => decide (t.result = .record State.reset.vdp)) = true ∧
      nextIs (exec (.restore State.reset.vdp) State.reset) (fun t => decide (t.vdp = State.reset.vdp)) = true := by decide
theorem test_restore_fault :
    faultIs (exec (.restore { State.reset.vdp with dmaBusy := true }) State.reset) .badRestore = true := by decide
/-- V-R2. -/
theorem test_reset_system :
    nextIs (exec .resetSystem (withVdp fun r => withTransfer (transferTo .memToVram 0 none false) 4 2 { r with prim := .asserted }))
      (fun t => decide (t.vdp.dma = none) && !t.vdp.dmaBusy && decide (t.vdp.prim = .none) &&
        decide (t.vdp.regs = State.reset.vdp.regs)) = true := by decide

/-! The rows that are no selector. -/

theorem test_ticks :
    nextIs (exec (.ticks 3 false false false false false) State.reset) (fun t => decide (t.vdp.cs.hCounter = 3)) = true := by
  decide
/-- V-P10. -/
theorem test_cmd_dma_request :
    nextIs (exec (.cmdDmaRequest 1 0x8000 0 0) State.reset) (fun t => decide (t.vdp.log = [.dmaDeclined])) = true := by decide
theorem test_cmd_address_only :
    nextIs (exec (.cmdAddressOnly 1 0x8000 0xFF 3) State.reset) (fun t => decide (t.vdp = State.reset.vdp)) = true := by decide
/-- The table of SelectMode. -/
theorem test_selection_rows :
    nextIs (exec (.dmaCopy 0b0100) State.reset) (fun t => decide (t.result = .dmaMode .vramCopy)) = true ∧
      nextIs (exec .dmaFill State.reset) (fun t => decide (t.result = .dmaMode .vramFill)) = true ∧
      nextIs (exec (.dmaMem2VramVram true) State.reset) (fun t => decide (t.result = .dmaMode .memToVram)) = true ∧
      nextIs (exec (.dmaMem2VramCram false) State.reset) (fun t => decide (t.result = .dmaMode .memToVram)) = true ∧
      nextIs (exec (.dmaMem2VramVsram true) State.reset) (fun t => decide (t.result = .dmaMode .memToVram)) = true := by decide
theorem test_config_error_row :
    nextIs (exec (.dmaConfigError 0b10 0b0011) State.reset) (fun t => decide (t.vdp.log = [.dmaConfigError])) = true := by decide

/-! Witnesses: for each statement with hypotheses, states and operands that meet them, each clause at a boundary of its
range. The statement is named at each. -/

/-- A state with a running VRAM copy: the primary CPU is stalled. -/
def stalled : State := withVdp (withTransfer (transferTo .vramCopy 0x2000 none false) 4 1)

/-- A state with an armed fill. -/
def armed : State := withVdp (withTransfer (transferTo .vramFill 0x8000 none false) 4 2)

/-- A state with a started fill of a length; the standard budget gives 16 units a call. -/
def filling (len : Word) : State := withVdp (withTransfer (transferTo .vramFill 0x8000 (some 0x68AC) true) len 2)

/-- The reset state with a number of queued VRAM writes. -/
def queued (n : Nat) : State :=
  withVdp fun r => { r with fifo := { r.fifo with slots := List.replicate 4 ⟨1, 2, 3⟩, count := n } }

/-- The coprocessor channel in a state, on its trigger line. -/
def copOn (c : Channel) : State :=
  withVdp fun r => { r with cop := c, frameExpired := true, cs := { r.cs with vCounter := 0xE0 } }

/-- The reset state of an NTSC machine, where V30 has no record. -/
def ntsc : State := { State.reset with cfg := { standardConfig with region := .ntscJ } }

/-- EncodedOperationsDecodeToThemselves. -/
theorem witness_encoded :
    encode (.doDma ⟨.h32, .v30, .ntscJ⟩ true) = some [0x22, 0x06, 0x01] ∧
      encode (.fifoPush 15 0xFFFF 0) = some [0x10, 0x0F, 0xFF, 0xFF, 0, 0] := by decide
/-- DecodedBytesAreTheOperationsForm. -/
theorem witness_decoded : decode [0x41, 0xFF, 0xFF, 0x03] = .ok (.regWrite 0xFF 0xFF, [0x03]) := by decide
/-- CommandAndSelectionWordsRoundTrip. -/
theorem witness_words :
    encodeCommand (.cmdDmaRequest 0 0x8000 0 0) = some 0x00000082 ∧
      encodeCommand (.cmdAddressOnly 0b11111 0xFFFF 0xFF 0b11) = some 0xFFFFFF7F ∧
      (Instr.dmaConfigError 0b10#2 0b0011#4).wf = true ∧ encodeSelect (.dmaConfigError 0b10#2 0b0011#4) = some 0x23 := by
  decide
/-- BytesThatSpellNoOperationAreRefused: the least byte of each clause, after bytes that are good and bad themselves. -/
theorem witness_refused_bytes :
    (0x00#8 ∉ [0x01#8, 0x02#8, 0x03#8, 0x04#8, 0x10#8, 0x11#8, 0x12#8, 0x13#8, 0x14#8, 0x20#8, 0x21#8, 0x22#8, 0x23#8,
        0x30#8, 0x31#8, 0x32#8, 0x33#8, 0x34#8, 0x40#8, 0x41#8, 0x42#8, 0x43#8, 0x44#8, 0x45#8, 0x46#8, 0x47#8]) ∧
      (0x46#8 = 0x45#8 ∨ 0x46#8 = 0x46#8) ∧ 1 < (2#8).toNat ∧ 12 ≤ (12#8).toNat ∧ 16 ≤ (16#8).toNat ∧
      decode [0x22, 0x0B, 2] = .error .badOperand ∧ decode [0x22, 12, 1] = .error .badOperand ∧
      decode [0x40, 1, 0, 1, 0, 2] = .error .badOperand ∧ decode [0x20, 16, 0, 0, 0, 0, 1] = .error .badOperand := by decide
/-- A table word shorter than the longest operation leaves its zero bytes, which the next step refuses (log 25). -/
theorem test_table_word_padding :
    nextIs (step (State.reset.withFetchWord 8 0x11)) (fun t => refusedIs (step t) .badSelector) = true := by decide
/-- StepRunsTheDecodedOperation. -/
theorem witness_step :
    (Instr.ackPrimary 6).wf = true ∧ decode [0x31, 0x06, 0x33] = .ok (.ackPrimary 6, [0x33]) := by decide
/-- SetModeSelectsTheModeAndResetsTheCounters: a mode with a record and one without, and a record of TIMING that breaks
the last condition of R24 alone. -/
theorem witness_set_mode :
    timingOf State.reset.cfg ⟨.h40, .v30, .pal⟩ = some (h40Params 313 0x10B 0xF0) ∧
      timingOf State.reset.cfg ⟨.h32, .v30, .ntscU⟩ = none ∧
      State.reset.cfg.timing.lookup ⟨.h40, .v30, .pal⟩ = some (h40Params 313 0x10B 0xF0) ∧
      (let p : TimingParams := { toyParams with hTotal := 511, vCounterIncrementOn := 4 }
       let cfg : Config := { standardConfig with timing := [({ hRes := .h32, lines := .v28, region := .pal }, p)] }
       cfg.timing.lookup ⟨.h32, .v28, .pal⟩ = some p ∧ eventsWf p = true ∧ oneRunWf p = false ∧
         timingOf cfg ⟨.h32, .v28, .pal⟩ = none) := by decide
/-- The statements on ADVANCE_H and NEW_FRAME: P, and the horizontal events at a jump, at the wrap and between them. -/
theorem witness_params :
    paramsOf (at_ 0x127 0) = some (h32Params 313 0x103 0xE0) ∧ (h32Params 313 0x103 0xE0).hTotal < 512 ∧
      paramsOf (toy id) = some toyParams ∧
      nextIs (exec .advanceH (at_ 0x1FF 0)) (fun t => decide (t.vdp.cs.hCounter = 0)) = true ∧
      nextIs (exec .advanceH (at_ 0x125 0)) (fun t => t.vdp.cs.hBlankSet) = true := by decide
/-- VerticalCounterStepsAndSetsItsBlankFlag, both clauses, with `v` at 0x1FF and off the vertical step. -/
theorem witness_vertical :
    nextIs (exec .advanceH (at_ 0x109 0x1FE))
        (fun t => decide (t.vdp.cs.hCounter.toNat = 0x10A) && decide (t.vdp.cs.vCounter = 0x1FF)) = true ∧
      nextIs (exec .advanceH (at_ 0x10A 0x1FE)) (fun t => decide (t.vdp.cs.hCounter.toNat ≠ 0x10A)) = true := by decide
/-- LineCountdownFiresHintAndReloads: HINT on line 1 and on `v_blank_set`, none on line 0, and another column. -/
theorem witness_countdown :
    nextIs (exec .advanceH (at_ 0x10B 1)) (fun t => t.vdp.cs.hIntPending) = true ∧
      nextIs (exec .advanceH (at_ 0x10B 0xE0)) (fun t => t.vdp.cs.hIntPending) = true ∧
      nextIs (exec .advanceH (at_ 0x10B 0xE1)) (fun t => !t.vdp.cs.hIntPending) = true ∧
      nextIs (exec .advanceH (at_ 0x10C 1)) (fun t => decide (t.vdp.cs.hCounter.toNat ≠ 0x10C)) = true := by decide
/-- VintRisesOnlyAtTheVblankLine. -/
theorem witness_vint_rises :
    (at_ 1 0xE0).vdp.cs.vIntPending = false ∧ replacesRecord .advanceH = false ∧
      nextIs (exec .advanceH (at_ 1 0xE0)) (fun t => t.vdp.cs.vIntPending) = true := by decide
/-- CountersReturnAfterExactlyOneFrame. -/
theorem witness_frame :
    (toy id).vdp.cs.hCounter = 0 ∧ (toy id).vdp.cs.vCounter = 0 ∧ 1 < toyParams.hTotal * toyParams.vTotal ∧
      nextIs (repeatOp 1 .advanceH (toy id)) (fun t => decide (t.vdp.cs.hCounter = 1)) = true := by decide
/-- FifoPushQueuesOrReportsFull, each clause: a read code, the threshold, one below it. -/
theorem witness_push :
    (0b0100#4 ∉ [0b0001#4, 0b0011#4, 0b0101#4]) ∧ (0b0101#4 ∈ [0b0001#4, 0b0011#4, 0b0101#4]) ∧
      (queued 4).cfg.fifoThreshold ≤ (queued 4).vdp.fifo.count ∧
      (queued 3).vdp.fifo.count < (queued 3).cfg.fifoThreshold := by decide
/-- FifoPopTakesTheHeadEntry, and the drain's head entry. -/
theorem witness_pop :
    State.reset.vdp.fifo.count = 0 ∧ (queued 1).vdp.fifo.count ≠ 0 ∧
      (queued 1).vdp.fifo.slots[(queued 1).vdp.fifo.head]? = some ⟨1, 2, 3⟩ := by decide
/-- FifoBufferIsAnOrderedQueue, both clauses: one below the threshold, and full. -/
theorem witness_queue :
    configWf (queued 3).cfg = true ∧ fifoValid (queued 3).cfg (queued 3).vdp.fifo = true ∧ isWriteCode 3 = true ∧
      (queued 3).vdp.fifo.count < (queued 3).cfg.fifoThreshold ∧
      fifoValid (queued 4).cfg (queued 4).vdp.fifo = true ∧ 0 < (queued 4).vdp.fifo.count := by decide
/-- DrainWritesTheHeadEntryUnlessGated, each clause. -/
theorem witness_drain :
    stalled.vdp.dma ≠ none ∧ State.reset.vdp.fifo.count = 0 ∧ (queued 1).vdp.dma = none ∧
      writeTargetOf 1 = some .vram := by decide
/-- The two statements on where a drained word lands: VRAM, CRAM, and VSRAM offsets on both sides of VSRAM_SIZE. -/
theorem witness_drained :
    (oneEntry ⟨0b0001#4, 0xFFFF, 0x1234⟩).vdp.dma = none ∧ (oneEntry ⟨0b0001#4, 0xFFFF, 0x1234⟩).vdp.fifo.count ≠ 0 ∧
      (oneEntry ⟨0b0001#4, 0xFFFF, 0x1234⟩).vdp.fifo.slots[0]? = some ⟨0b0001#4, 0xFFFF, 0x1234⟩ ∧
      (oneEntry ⟨0b0011#4, 0x7F, 1⟩).vdp.fifo.slots[0]? = some ⟨0b0011#4, 0x7F, 1⟩ ∧
      (oneEntry ⟨0b0101#4, 0x4F, 1⟩).vdp.fifo.slots[0]? = some ⟨0b0101#4, 0x4F, 1⟩ ∧
      ((0x4F#16 &&& 0x7E#16).toNat < State.reset.cfg.vsramSize) ∧
      State.reset.cfg.vsramSize ≤ (0x50#16 &&& 0x7E#16).toNat := by decide
/-- SelectionRowsReturnTheirMode and DmaSetupDeclinesErrsOrStarts: busy, declined, in error, and each mode selected. -/
theorem witness_setup :
    selectMode 0b10 0b0011 = none ∧ stalled.vdp.dma ≠ none ∧ State.reset.vdp.dma = none ∧
      selectMode ((State.reset.vdp.reg 23).extractLsb' 6 2) 0b0000 = none ∧
      selectMode ((State.reset.vdp.reg 23).extractLsb' 6 2) 0b0101 = some .memToVram ∧
      selectMode (((State.reset.vdp.setReg 23 0xC0).reg 23).extractLsb' 6 2) 0b1111 = some .vramCopy := by decide
/-- FillStartWritesOneByteAndHoldsTheWord and DoDmaWithoutWorkChangesNothing, each clause. -/
theorem witness_fill_start :
    armed.vdp.dma = some (transferTo .vramFill 0x8000 none false) ∧ State.reset.vdp.dma = none ∧
      (filling 4).vdp.dma = some (transferTo .vramFill 0x8000 (some 0x68AC) true) ∧
      stalled.vdp.dma = some (transferTo .vramCopy 0x2000 none false) ∧
      (transferTo .vramCopy 0x2000 none false).mode ≠ .vramFill := by decide
/-- DoDmaRunsUnitsUntilTheLengthIsUsedUp: a length of exactly the units of a call, one more, and the length 0. -/
theorem witness_do_dma :
    slotBudget State.reset.cfg .h32 false .vramFill = 16 ∧ unitsAsked ((filling 16).vdp.reg 20 ++ (filling 16).vdp.reg 19) = 16 ∧
      unitsAsked ((filling 17).vdp.reg 20 ++ (filling 17).vdp.reg 19) = 17 ∧
      unitsAsked ((filling 0).vdp.reg 20 ++ (filling 0).vdp.reg 19) = 0x10000 ∧
      (∀ tr, (filling 0).vdp.dma = some tr → tr.mode = .vramFill → tr.fillStarted = true) := by
  refine ⟨by decide, by decide, by decide, by decide, ?_⟩
  intro tr h _
  cases h
  rfl
/-- DmaUnitsWriteTheirDestinationsOnly: a fill of 4 by 2 from 0x8000 leaves 0x8001 and 0x8008 alone. -/
theorem witness_destinations :
    (∀ j, j < 4 → 0x8001 ≠ (0x8000#16 + BitVec.ofNat 16 (j * 2)).toNat) ∧
      ∀ j, j < 4 → 0x8008 ≠ (0x8000#16 + BitVec.ofNat 16 (j * 2)).toNat := by decide
/-- CopyUnitsMoveOneByteEach and MemUnitsWriteTheBusWords: a transfer of each mode, with at least one unit in a call. -/
theorem witness_units :
    stalled.vdp.dma = some (transferTo .vramCopy 0x2000 none false) ∧
      0 < slotBudget stalled.cfg .h32 false .vramCopy ∧
      (withVdp (withTransfer (transferTo .memToVram 0 none false) 1 2)).vdp.dma = some (transferTo .memToVram 0 none false) ∧
      0 < slotBudget State.reset.cfg .h32 false .memToVram / 2 := by decide
/-- TransfersEndOnlyWithTheirLength: the last unit of a fill. -/
theorem witness_transfer_ends :
    (filling 1).vdp.dma ≠ none ∧ replacesRecord (.doDma ⟨.h32, .v28, .pal⟩ false) = false ∧
      nextIs (exec (.doDma ⟨.h32, .v28, .pal⟩ false) (filling 1)) (fun t => decide (t.vdp.dma = none)) = true := by decide
/-- PrimaryPollMakesOneTransition and MaskedRequestStaysPendingUntilAccepted: the channel states, with and without a level. -/
theorem witness_primary :
    State.reset.vdp.prim = .none ∧ levelNow State.reset.vdp = 0 ∧ (vint .pending).vdp.prim = .pending ∧
      levelNow (vint .pending).vdp ≠ 0 ∧ (vint .asserted).vdp.prim = .asserted ∧ (vint .acked).vdp.prim = .acked ∧
      levelNow ({ (vint .pending).vdp with cs := State.reset.vdp.cs }) = 0 := by decide
/-- AckClearsTheFlagOfItsLevel: levels beside 4 and 6. -/
theorem witness_ack : (5#8 ≠ 6#8 ∧ 5#8 ≠ 4#8) ∧ (7#8 ≠ 6#8 ∧ 7#8 ≠ 4#8) ∧ (3#8 ≠ 6#8 ∧ 3#8 ≠ 4#8) := by decide
/-- CoprocessorPollMakesOneTransition and CoprocessorFiresAtMostOnceAFrame: on the trigger line and off it. -/
theorem witness_coprocessor :
    (copOn .pending).vdp.cs.vCounter = (copOn .pending).vdp.copTriggerLine ∧ (copOn .none).vdp.frameExpired = true ∧
      State.reset.vdp.cs.vCounter ≠ State.reset.vdp.copTriggerLine ∧ (copOn .asserted).vdp.cop = .asserted ∧
      nextIs (exec (.pollCoprocessor true true true) (copOn .pending)) (fun t => decide (t.vdp.cop = .pending)) = true ∧
      replacesRecord (.pollCoprocessor true true true) = false := by decide
/-- ChannelsAreIndependent: two states that agree on what each channel reads and differ elsewhere. -/
theorem witness_independent :
    State.reset.vdp ≠ (copOn .pending).vdp ∧ State.reset.vdp.prim = (copOn .pending).vdp.prim ∧
      State.reset.vdp.cs.vIntPending = (copOn .pending).vdp.cs.vIntPending ∧
      State.reset.vdp.cs.hIntPending = (copOn .pending).vdp.cs.hIntPending ∧
      vie State.reset.vdp = vie (copOn .pending).vdp ∧ hie State.reset.vdp = hie (copOn .pending).vdp ∧
      State.reset.vdp ≠ (vint .pending).vdp ∧ State.reset.vdp.cop = (vint .pending).vdp.cop ∧
      State.reset.vdp.cs.vCounter = (vint .pending).vdp.cs.vCounter ∧
      State.reset.vdp.copTriggerLine = (vint .pending).vdp.copTriggerLine ∧
      State.reset.vdp.frameExpired = (vint .pending).vdp.frameExpired := by decide
/-- The invariant holds on the last column of a line, with a full FIFO, and in the middle of a fill. -/
theorem witness_invariant : StateInv (at_ 0x1FF 0x1FF) ∧ StateInv (queued 4) ∧ StateInv (filling 4) := by
  unfold StateInv
  decide
/-- TickIsItsSubStepsInOrder and TicksNeverStopUnderTheInvariant: a tick that answers a next state. -/
theorem witness_tick :
    nextIs (exec (.tick false false false false false) (filling 4)) (fun t => decide (t.vdp.cs.hCounter = 1)) = true := by
  decide
/-- RegisterReadReturnsTheRegister: the last register and the first index beyond. -/
theorem witness_reg_read : (23#8).toNat < 24 ∧ 24 ≤ (24#8).toNat := by decide
/-- RegisterWriteStoresAndMaySetTheMode: stalled, index 24, register 12 with and without a change of the mode, and a mode
with no record. -/
theorem witness_reg_write :
    cpuStall stalled.vdp = true ∧ cpuStall State.reset.vdp = false ∧
      modeFromBits .pal ((State.reset.vdp.setReg 12 1).reg 1) ((State.reset.vdp.setReg 12 1).reg 12) ≠ State.reset.vdp.curMode ∧
      modeFromBits .pal ((State.reset.vdp.setReg 12 2).reg 1) ((State.reset.vdp.setReg 12 2).reg 12) = State.reset.vdp.curMode ∧
      (timingOf State.reset.cfg ⟨.h40, .v28, .pal⟩).isSome = true ∧
      modeFromBits .ntscJ ((ntsc.vdp.setReg 1 8).reg 1) ((ntsc.vdp.setReg 1 8).reg 12) ≠ ntsc.vdp.curMode ∧
      timingOf ntsc.cfg ⟨.h32, .v30, .ntscJ⟩ = none := by decide
/-- ControlPairRequestsADmaSetup and CommandFormsActAsTheirControlPair: both values of `CD[5]`, and a setup of each end. -/
theorem witness_control :
    (0x007F#16).getLsbD 7 = false ∧ (0x0080#16).getLsbD 7 = true ∧ cpuStall armed.vdp = false ∧
      faultIs (exec (.dmaSetup 0 0x00000080 false) armed) .setupWhileBusy = true ∧
      nextIs (exec (.dmaSetup 0 0x00000080 false) State.reset) (fun t => decide (t.result = .absent)) = true ∧
      m1Enabled (State.reset.vdp.setReg 1 0x10) = true ∧
      selectMode (dmaTypeCode (State.reset.vdp.setReg 1 0x10)) ((0x0080#16).extractLsb' 4 2 ++ (0x4000#16).extractLsb' 14 2) =
        some .memToVram ∧
      selectMode (dmaTypeCode (State.reset.vdp.setReg 1 0x10)) ((0b10011#5).extractLsb' 0 4) = some .memToVram ∧
      encodeCommand (.cmdDmaRequest 0b00001 0x8000 0 0) = some (0x4000#16 ++ 0x0082#16) ∧
      encodeCommand (.cmdAddressOnly 0b00001 0x8000 0 0) = some (0x4000#16 ++ 0x0002#16) := by decide
/-- DataWriteStartsTheFillOrQueues and StalledBusCallsFault. -/
theorem witness_data_write :
    cpuStall stalled.vdp = true ∧ cpuStall armed.vdp = false ∧ State.reset.vdp.dma = none ∧
      armed.vdp.dma = some (transferTo .vramFill 0x8000 none false) ∧ isWriteCode 5 = true ∧
      (queued 3).vdp.fifo.count < (queued 3).cfg.fifoThreshold ∧ cpuStall (filling 4).vdp = true := by
  decide
/-- RestoreReplacesValidRecordsOnly, the conditions as the statement spells them, at a countdown of -1; a countdown of -2
and a FIFO beyond its threshold each break one. -/
theorem witness_restore_conditions :
    let r := { State.reset.vdp with cs := { State.reset.vdp.cs with hLinePassed := -1 } }
    (timingOf standardConfig r.curMode = some (h32Params 313 0x103 0xE0) ∧ r.cs.hCounter.toNat < 0x128 ∧
        r.cs.vCounter.toNat < 0x103) ∧
      (-1 ≤ r.cs.hLinePassed.toInt ∧ r.cs.hLinePassed.toInt ≤ 255) ∧ (r.fifo.head < 4 ∧ r.fifo.count ≤ 4) ∧
      r.fifo.count = 0 ∧ (r.dmaBusy = true ↔ r.dma ≠ none) ∧ r.dma = none ∧ r.fifo.slots.length = 4 ∧
      (r.vram.cells = [] ∧ r.cram.cells = [] ∧ r.vsram.cells = []) ∧
      ¬(-1 ≤ (-2#32).toInt) ∧ ¬((queued 5).vdp.fifo.count ≤ standardConfig.fifoThreshold) := by decide
/-- RestoreReplacesValidRecordsOnly: the ends of the countdown's range and a full FIFO, and one beyond each. -/
theorem witness_restore :
    restoreValid standardConfig ({ State.reset.vdp with cs := { State.reset.vdp.cs with hLinePassed := -1 } }) = true ∧
      restoreValid standardConfig ({ State.reset.vdp with cs := { State.reset.vdp.cs with hLinePassed := 255 } }) = true ∧
      restoreValid standardConfig ({ State.reset.vdp with cs := { State.reset.vdp.cs with hLinePassed := -2 } }) = false ∧
      restoreValid standardConfig ({ State.reset.vdp with cs := { State.reset.vdp.cs with hLinePassed := 256 } }) = false ∧
      restoreValid standardConfig (queued 4).vdp = true ∧ restoreValid standardConfig (queued 5).vdp = false ∧
      restoreValid standardConfig ({ State.reset.vdp with dmaBusy := true }) = false ∧
      restoreValid standardConfig ({ State.reset.vdp with cs := { State.reset.vdp.cs with hCounter := 0x128 } }) = false := by
  decide
/-- RESTORE of a copy that carries a fill word, which R36 gives to a fill only, faults; of the same fill it completes. -/
theorem test_restore_fill_word :
    faultIs (exec (.restore (withTransfer (transferTo .vramCopy 0x2000 (some 7) false) 4 1 State.reset.vdp)) State.reset)
        .badRestore = true ∧
      nextIs (exec (.restore (withTransfer (transferTo .vramFill 0x2000 (some 7) true) 4 1 State.reset.vdp)) State.reset)
        (fun t => t.vdp.dmaBusy) = true := by decide
/-- SystemResetLeavesTheResetValues: REG_INIT that selects a mode with a record, and one that selects none. -/
theorem witness_reset :
    timingOf standardConfig (resetMode standardConfig) = some (h32Params 313 0x103 0xE0) ∧
      refusedIs (exec .resetSystem { ntsc with cfg := { ntsc.cfg with regInit := ntsc.cfg.regInit.set 1 8 } })
        .modeUnsupported = true := by decide
/-- EveryStepKeepsTheInvariant: a step from a state of the invariant that answers a next state. -/
theorem witness_step_invariant :
    nextIs (step ((queued 4).setInbox [.call .fifoDrainOne])) (fun t => decide (t.vdp.fifo.count = 3)) = true := by decide
/-- CountdownStaysInRangeWithoutRestore, at both ends of the range. -/
theorem witness_countdown_range :
    CountdownInRange (withVdp fun r => { r with cs := { r.cs with hLinePassed := 255 } }) ∧ CountdownInRange (at_ 0x10B 0) := by
  unfold CountdownInRange
  decide
/-- EveryStepKeepsTheCountdownAboveMinusTwo: a countdown of -1, which RESTORE admits. -/
theorem witness_countdown_below :
    StateInv (toy fun r => { r with cs := { r.cs with hCounter := 2, vCounter := 1, hLinePassed := -1 } }) ∧
      (-1#32).toInt = -1 := by
  unfold StateInv
  decide
/-- The frames over all operations: one operation for each premise. -/
theorem witness_frames :
    replacesRecord (.regWrite 23 0) = false ∧ mayWriteVideoMemory (.regWrite 23 0) = false ∧
      mayMoveCounters (.ackPrimary 6) = false ∧
      nextIs (exec (.regWrite 23 7) State.reset) (fun t => decide (t.vdp.reg 23 = 7)) = true ∧
      nextIs (exec (.ackPrimary 6) (vint .asserted)) (fun t => decide (t.vdp.cs.hCounter = 0)) = true := by decide

end Sys2Proof.Tests
end

