-- ==== Sys2Proof/Proofs/TimingCounters.lean ====
section
/-! PROOFS. The timing counters (spec/40_timing_counters.md R114 to R118). First what each step of ADVANCE_H does to
CounterState, then what ADVANCE_H does to one part of it, in the counters it has just written, then the statements. -/

namespace Sys2Proof.Machine

open Sys2Proof

/-! ### The steps of ADVANCE_H -/

@[simp] theorem stepH_hBlankSet (p : TimingParams) (cs : CounterState) : (stepH p cs).hBlankSet = cs.hBlankSet := rfl

/-- The fields that the two horizontal steps leave alone (R113, R114). -/
@[simp] theorem stepHBlank_stepH_vBlankSet (p : TimingParams) (cs : CounterState) :
    (stepHBlank p (stepH p cs)).vBlankSet = cs.vBlankSet := rfl
@[simp] theorem stepHBlank_stepH_vIntPending (p : TimingParams) (cs : CounterState) :
    (stepHBlank p (stepH p cs)).vIntPending = cs.vIntPending := rfl
@[simp] theorem stepHBlank_stepH_hIntPending (p : TimingParams) (cs : CounterState) :
    (stepHBlank p (stepH p cs)).hIntPending = cs.hIntPending := rfl
@[simp] theorem stepHBlank_stepH_hLinePassed (p : TimingParams) (cs : CounterState) :
    (stepHBlank p (stepH p cs)).hLinePassed = cs.hLinePassed := rfl

@[simp] theorem stepHBlank_hCounter (p : TimingParams) (cs : CounterState) :
    (stepHBlank p cs).hCounter = cs.hCounter := rfl

/-- Step 2: where the thresholds meet, the clear wins (R114). -/
theorem stepHBlank_hBlankSet (p : TimingParams) (cs : CounterState) :
    (stepHBlank p cs).hBlankSet =
      if cs.hCounter.toNat = p.hBlankClear then false
      else if cs.hCounter.toNat = p.hBlankSet then true else cs.hBlankSet := rfl

/-- Step 3 is idle off its column (R115). -/
theorem stepV_of_ne {p : TimingParams} {cs : CounterState} (h : cs.hCounter.toNat ≠ p.vCounterIncrementOn) :
    stepV p cs = cs := if_neg h

/-- Step 3 on its column reads the vertical counter it has just moved (R115). -/
theorem stepV_vBlankSet_of_eq {p : TimingParams} {cs : CounterState} (h : cs.hCounter.toNat = p.vCounterIncrementOn) :
    (stepV p cs).vBlankSet =
      if (stepV p cs).vCounter.toNat = 0x1FF then false
      else if (stepV p cs).vCounter.toNat = p.vBlankSet then true else cs.vBlankSet := by
  simp [stepV, h, counterLimit]

/-- HINT fires on a line past line 0 whose countdown has reached -1 (R117). -/
theorem hintFires_iff (cs : CounterState) (passed : BitVec 32) :
    hintFires cs passed = true ↔ 0 < cs.vCounter.toNat ∧ passed = -1 := by
  simp [hintFires]

/-- Step 4 is idle off its column (R116, R117). -/
theorem stepHint_of_ne {p : TimingParams} {r : Byte} {cs : CounterState}
    (h : cs.hCounter.toNat ≠ p.vCounterIncrementOn + 2) : stepHint p r cs = cs := if_neg h

/-- Step 4 where HINT fires: the countdown is reloaded whatever the line (R117). -/
theorem stepHint_of_fires {p : TimingParams} {r : Byte} {cs : CounterState}
    (h : cs.hCounter.toNat = p.vCounterIncrementOn + 2) (hf : hintFires cs (countdown p cs) = true) :
    stepHint p r cs = { cs with hIntPending := true, hLinePassed := r.setWidth 32 } := by
  simp [stepHint, h, hf]

/-- Step 4 where HINT does not fire: only line 0 and the lines past `v_blank_set` reload (R117). -/
theorem stepHint_of_not_fires {p : TimingParams} {r : Byte} {cs : CounterState}
    (h : cs.hCounter.toNat = p.vCounterIncrementOn + 2) (hf : ¬hintFires cs (countdown p cs) = true) :
    stepHint p r cs = { cs with
      hLinePassed := if cs.vCounter = 0 ∨ p.vBlankSet < cs.vCounter.toNat then r.setWidth 32 else countdown p cs } := by
  simp [stepHint, h, hf]

@[simp] theorem stepVint_hCounter (p : TimingParams) (cs : CounterState) :
    (stepVint p cs).hCounter = cs.hCounter := by rw [stepVint_eq]
@[simp] theorem stepVint_vCounter (p : TimingParams) (cs : CounterState) :
    (stepVint p cs).vCounter = cs.vCounter := by rw [stepVint_eq]
@[simp] theorem stepVint_hBlankSet (p : TimingParams) (cs : CounterState) :
    (stepVint p cs).hBlankSet = cs.hBlankSet := by rw [stepVint_eq]
@[simp] theorem stepVint_vBlankSet (p : TimingParams) (cs : CounterState) :
    (stepVint p cs).vBlankSet = cs.vBlankSet := by rw [stepVint_eq]
@[simp] theorem stepVint_hIntPending (p : TimingParams) (cs : CounterState) :
    (stepVint p cs).hIntPending = cs.hIntPending := by rw [stepVint_eq]
@[simp] theorem stepVint_hLinePassed (p : TimingParams) (cs : CounterState) :
    (stepVint p cs).hLinePassed = cs.hLinePassed := by rw [stepVint_eq]

/-! ### ADVANCE_H -/

/-- Where P is given, ADVANCE_H completes and its CounterState is the five steps' (R112). -/
theorem exec_advanceH_cs {s : State} {p : TimingParams} (hp : paramsOf s = some p) :
    ∃ t, exec .advanceH s = .next t ∧ t.vdp.cs = advanceCounters p (s.vdp.reg 10) s.vdp.cs :=
  ⟨_, withParams_some hp _, rfl⟩

/-- The horizontal blank flag in the new `h` (R114). -/
theorem advanceCounters_hBlankSet (p : TimingParams) (r : Byte) (cs : CounterState) :
    (advanceCounters p r cs).hBlankSet =
      if (advanceCounters p r cs).hCounter.toNat = p.hBlankClear then false
      else if (advanceCounters p r cs).hCounter.toNat = p.hBlankSet then true else cs.hBlankSet := by
  simp only [advanceCounters, stepVint_hBlankSet, stepHint_hBlankSet, stepV_hBlankSet, stepVint_hCounter,
    stepHint_hCounter, stepV_hCounter, stepHBlank_hCounter, stepHBlank_hBlankSet, stepH_hBlankSet]

/-- Off the vertical step's column the vertical flag stays (R115). -/
theorem advanceCounters_vBlankSet_of_ne {p : TimingParams} {r : Byte} {cs : CounterState}
    (h : (advanceCounters p r cs).hCounter.toNat ≠ p.vCounterIncrementOn) :
    (advanceCounters p r cs).vBlankSet = cs.vBlankSet := by
  simp only [advanceCounters, stepVint_hCounter, stepHint_hCounter, stepV_hCounter] at h
  simp [advanceCounters, stepV_of_ne h]

/-- On the vertical step's column the vertical flag follows the new `v` (R115). -/
theorem advanceCounters_vBlankSet_of_eq {p : TimingParams} {r : Byte} {cs : CounterState}
    (h : (advanceCounters p r cs).hCounter.toNat = p.vCounterIncrementOn) :
    (advanceCounters p r cs).vBlankSet =
      if (advanceCounters p r cs).vCounter.toNat = 0x1FF then false
      else if (advanceCounters p r cs).vCounter.toNat = p.vBlankSet then true else cs.vBlankSet := by
  simp only [advanceCounters, stepVint_hCounter, stepHint_hCounter, stepV_hCounter] at h
  simp only [advanceCounters, stepVint_vBlankSet, stepHint_vBlankSet, stepVint_vCounter, stepHint_vCounter,
    stepV_vBlankSet_of_eq h, stepHBlank_stepH_vBlankSet]

/-- The VINT flag in the new `h` and `v` (R118). -/
theorem advanceCounters_vIntPending (p : TimingParams) (r : Byte) (cs : CounterState) :
    (advanceCounters p r cs).vIntPending =
      (cs.vIntPending ||
        decide ((advanceCounters p r cs).hCounter = 2 ∧ (advanceCounters p r cs).vCounter.toNat = p.vBlankSet)) := by
  simp only [advanceCounters, stepVint_eq, stepHint_vIntPending, stepV_vIntPending, stepHBlank_stepH_vIntPending]

/-- The three cases of step 4: off its column, HINT firing, HINT not firing (R116, R117). -/
theorem stepHint_cases (p : TimingParams) (r : Byte) (c : CounterState) :
    (c.hCounter.toNat ≠ p.vCounterIncrementOn + 2 →
      (stepHint p r c).hLinePassed = c.hLinePassed ∧ (stepHint p r c).hIntPending = c.hIntPending) ∧
    (c.hCounter.toNat = p.vCounterIncrementOn + 2 →
      (0 < c.vCounter.toNat ∧ countdown p c = -1 →
        (stepHint p r c).hIntPending = true ∧ (stepHint p r c).hLinePassed = r.setWidth 32) ∧
      (¬(0 < c.vCounter.toNat ∧ countdown p c = -1) →
        (stepHint p r c).hIntPending = c.hIntPending ∧
        (stepHint p r c).hLinePassed =
          if c.vCounter = 0 ∨ p.vBlankSet < c.vCounter.toNat then r.setWidth 32 else countdown p c)) := by
  simp only [← hintFires_iff]
  refine ⟨fun h => ?_, fun h => ⟨fun hf => ?_, fun hf => ?_⟩⟩
  · simp [stepHint_of_ne h]
  · simp [stepHint_of_fires h hf]
  · simp [stepHint_of_not_fires h hf]

/-! ### The statements -/

/-- Settles O11: steps 3 to 5 leave the horizontal flag and the new `h` as step 2 has them. -/
theorem horizontalBlankFlagFollowsItsThresholds : Obligations.HorizontalBlankFlagFollowsItsThresholds := by
  intro s p hp
  obtain ⟨t, ht, hcs⟩ := exec_advanceH_cs hp
  exact ⟨t, ht, hcs ▸ advanceCounters_hBlankSet p _ _⟩

/-- Settles O12: step 3 is idle off its column, and on it the value of `v` is R24's, since `v_total` lies above the
jump trigger. -/
theorem verticalCounterStepsAndSetsItsBlankFlag : Obligations.VerticalCounterStepsAndSetsItsBlankFlag := by
  intro s p hp
  obtain ⟨t, ht, hcs⟩ := exec_advanceH_cs hp
  obtain ⟨-, ⟨-, -, htotal, -⟩, -⟩ := paramsWf_bounds (timingOf_wf hp)
  refine ⟨t, ht, ?_⟩
  rw [hcs]
  refine ⟨fun h => ⟨?_, advanceCounters_vBlankSet_of_ne h⟩, fun h => ⟨?_, advanceCounters_vBlankSet_of_eq h⟩⟩
  · rw [advanceCounters_hCounter] at h
    rw [advanceCounters_vCounter, if_neg h]
  · rw [advanceCounters_hCounter] at h
    rw [advanceCounters_vCounter, if_pos h, nextCounter_toNat _ _ _ htotal, jumpTarget, counterLimit]

/-- Settles O13: step 5 leaves what step 4 writes, and steps 1 to 3 leave the old countdown and HINT flag to it. -/
theorem lineCountdownFiresHintAndReloads : Obligations.LineCountdownFiresHintAndReloads := by
  intro s p hp
  obtain ⟨t, ht, hcs⟩ := exec_advanceH_cs hp
  obtain ⟨hoff, hon⟩ := stepHint_cases p (s.vdp.reg 10) (stepV p (stepHBlank p (stepH p s.vdp.cs)))
  refine ⟨t, ht, ?_⟩
  simp only [hcs, advanceCounters, stepVint_hCounter, stepVint_vCounter, stepVint_hIntPending, stepVint_hLinePassed,
    stepHint_hCounter, stepHint_vCounter]
  simp only [stepV_hLinePassed, stepV_hIntPending, stepHBlank_stepH_hLinePassed, stepHBlank_stepH_hIntPending]
    at hoff hon
  exact ⟨hoff, fun h => ⟨_, by simp [countdown], hon h⟩⟩

/-- Settles O14: step 5 reads the counters only, and no other step writes the VINT flag. -/
theorem vintIsSetAtTheVblankLine : Obligations.VintIsSetAtTheVblankLine := by
  intro s p hp
  obtain ⟨t, ht, hcs⟩ := exec_advanceH_cs hp
  exact ⟨t, ht, hcs ▸ advanceCounters_vIntPending p _ _⟩

end Sys2Proof.Machine
end

