-- ==== Sys2Proof/Proofs/FifoQueue.lean ====
section
/-! PROOFS. The FIFO queue (spec/41_fifo.md R141). -/

namespace Sys2Proof.Machine

open Sys2Proof

/-- A slot that exists is read as it stands, without the empty entry of log 11. -/
theorem Fifo.slotAt_of_getElem? {f : Fifo} {i : Nat} {e : FifoEntry} (h : f.slots[i]? = some e) : f.slotAt i = e := by
  rw [Fifo.slotAt, List.getD_eq_getElem?_getD, h, Option.getD_some]

/-- FIFO_POP on an empty queue only answers `None` (R141). -/
theorem exec_fifoPop_of_empty {s : State} (h : s.vdp.fifo.count = 0) :
    exec .fifoPop s = .next (s.setResult .absent) :=
  if_pos h

/-- FIFO_POP on a queue that holds an entry answers the head slot and drops it (R141). -/
theorem exec_fifoPop_of_nonempty {s : State} (h : s.vdp.fifo.count ≠ 0) :
    exec .fifoPop s = .next ((s.setVdp (s.vdp.setFifo (fifoDrop s.cfg s.vdp.fifo))).setResult
      (.entry (s.vdp.fifo.slotAt s.vdp.fifo.head))) :=
  if_neg h

/-- Settles O18: FIFO_POP's two branches; on the second, the entry it answers is the one the head slot holds. -/
theorem fifoPopTakesTheHeadEntry : Obligations.FifoPopTakesTheHeadEntry := by
  intro s
  refine ⟨fun hempty => exec_fifoPop_of_empty hempty, fun e hne hslot => ?_⟩
  rw [exec_fifoPop_of_nonempty hne, Fifo.slotAt_of_getElem? hslot]
  rfl

end Sys2Proof.Machine
end

