-- ==== Sys2Proof/Proofs/DmaSelection.lean ====
section
/-! PROOFS. The length decrement and the mode selection of the DMA engine (spec/42_dma.md R156, R168). -/

namespace Sys2Proof.Machine

open Sys2Proof

/-! ### The length decrement -/

/-- Away from 0 no borrow reaches the mask, so the 16-bit decrement is that of the number (R168). -/
theorem decreaseLength_of_ne_zero {len : Word} (h : len ≠ 0) : decreaseLength len = BitVec.ofNat 16 (len.toNat - 1) := by
  unfold decreaseLength
  bv_omega

/-- DECREASE_LENGTH answers the decremented word and changes nothing else (R168). -/
theorem exec_decreaseLength (len : Word) (s : State) :
    exec (.decreaseLength len) s = .next (s.setResult (.length (decreaseLength len))) := rfl

/-- Settles O23: the result is the masked decrement, by whether the length is the one that wraps. -/
theorem decreaseLengthWrapsAtZero : Obligations.DecreaseLengthWrapsAtZero := by
  intro len s
  rw [exec_decreaseLength]
  by_cases hzero : len = 0
  · subst hzero
    rfl
  · rw [if_neg hzero, decreaseLength_of_ne_zero hzero]
    rfl

/-! ### The mode selection -/

/-- The write codes are those of VRAM, CRAM and VSRAM (R88). -/
theorem isWriteCode_iff (m : AccessMode) : isWriteCode m = true ↔ m = 0b0001 ∨ m = 0b0011 ∨ m = 0b0101 := by
  revert m
  decide

/-- Code `0b11` selects a copy whatever the addressing mode, a read code or an invalid one included (R156). -/
theorem selectMode_copy (m : AccessMode) : selectMode 0b11 m = some .vramCopy := if_pos rfl

/-- Code `0b10` selects a fill for a VRAM write only: the row of the transfers from memory does not take it (R156). -/
theorem selectMode_fill (m : AccessMode) : selectMode 0b10 m = if m = 0b0001 then some .vramFill else none := by
  simp [selectMode, codeVramWrite]

/-- Codes `0b00` and `0b01` select a transfer from memory for every write code (R156). -/
theorem selectMode_mem {code : BitVec 2} (h : code = 0b00 ∨ code = 0b01) (m : AccessMode) :
    selectMode code m = if m = 0b0001 ∨ m = 0b0011 ∨ m = 0b0101 then some .memToVram else none := by
  obtain rfl | rfl := h <;> simp [selectMode, isWriteCode_iff]

/-- Settles O24: one row per code, the two codes of a transfer from memory by the same lemma. -/
theorem modeSelectionFollowsTheTable : Obligations.ModeSelectionFollowsTheTable := fun m =>
  ⟨selectMode_copy m, selectMode_fill m, selectMode_mem (.inl rfl) m,
    (selectMode_mem (.inr rfl) m).trans (selectMode_mem (.inl rfl) m).symm⟩

end Sys2Proof.Machine
end

