-- ==== Sys2Proof/Proofs/InterruptChannels.lean ====
section
/-! PROOFS. The independence of the two interrupt channels (spec/43_interrupts.md R200). A poll is written as a function
of what R200 says its channel reads; two states that agree on that are then polled alike. -/

namespace Sys2Proof.Machine

open Sys2Proof

/-! ### What a poll does, from what its channel reads -/

/-- The next state of the primary channel and the calls made, from the channel and the level (R190, R194). -/
def primaryMove (acc stp : Bool) (level : Byte) : Channel → Channel × List CpuCall
  | .none => if level = 0#8 then (.none, []) else (.pending, [])
  | .pending =>
    if level = 0#8 then (.none, [])
    else if stp then (.pending, [])
    else (if acc then .asserted else .pending, [.raiseInterrupt level])
  | .asserted => (.asserted, [])
  | .acked => (.none, [])

/-- The next state of the coprocessor channel, the next latch and the calls made, from the channel, the latch and whether
the trigger line is reached (R195, R196). -/
def coprocessorMove (acc stp en onLine latch : Bool) : Channel → Channel × Bool × List CpuCall
  | .none => if onLine && !latch && en then (.pending, true, []) else (.none, latch, [])
  | .pending =>
    if onLine = false then (.none, latch, [])
    else if stp then (.pending, latch, [])
    else (if acc then .asserted else .pending, latch, [.interrupt true])
  | .asserted => if onLine then (.asserted, latch, []) else (.acked, latch, [.interrupt false])
  | .acked => (.none, latch, [])

/-- The state after a move of the primary channel: nothing else is written (R200). -/
def applyPrimary (m : Channel × List CpuCall) (s : State) : State :=
  { s with vdp := { s.vdp with prim := m.1 }, cpuCalls := s.cpuCalls ++ m.2 }

/-- The state after a move of the coprocessor channel: nothing but the channel and its latch is written (R200). -/
def applyCoprocessor (m : Channel × Bool × List CpuCall) (s : State) : State :=
  { s with vdp := { s.vdp with cop := m.1, frameExpired := m.2.1 }, cpuCalls := s.cpuCalls ++ m.2.2 }

/-! ### Moves that make no call -/

theorem applyPrimary_silent (c : Channel) (s : State) : applyPrimary (c, []) s = setPrim c s := by
  simp [applyPrimary, setPrim, State.setVdp, Record.setPrim]

theorem applyPrimary_idle {c : Channel} {s : State} (h : s.vdp.prim = c) : applyPrimary (c, []) s = s := by
  subst h
  exact applyPrimary_silent _ s

theorem applyCoprocessor_fire (s : State) : applyCoprocessor (.pending, true, []) s = s.setVdp (copFire s.vdp) := by
  simp [applyCoprocessor, copFire, State.setVdp, Record.setCop]

theorem applyCoprocessor_silent (c : Channel) (s : State) :
    applyCoprocessor (c, s.vdp.frameExpired, []) s = setCop c s := by
  simp [applyCoprocessor, setCop, State.setVdp, Record.setCop]

theorem applyCoprocessor_idle {c : Channel} {s : State} (h : s.vdp.cop = c) :
    applyCoprocessor (c, s.vdp.frameExpired, []) s = s := by
  subst h
  exact applyCoprocessor_silent _ s

/-! ### The polls -/

/-- A poll of the primary channel reads the channel and the level only (R200). -/
theorem pollPrimary_eq_applyPrimary (acc stp : Bool) (s : State) :
    pollPrimary acc stp s = applyPrimary (primaryMove acc stp (levelNow s.vdp) s.vdp.prim) s := by
  cases hc : s.vdp.prim <;> simp only [pollPrimary, primaryMove, hc]
  case none =>
    split
    · exact (applyPrimary_idle hc).symm
    · exact (applyPrimary_silent _ s).symm
  case pending =>
    split
    · exact (applyPrimary_silent _ s).symm
    · split
      · exact (applyPrimary_idle hc).symm
      · cases acc
        · simp [applyPrimary, ← hc, State.addCall]
        · rfl
  case asserted => exact (applyPrimary_idle hc).symm
  case acked => exact (applyPrimary_silent _ s).symm

/-- A poll of the coprocessor channel reads the channel, its latch and whether the trigger line is reached only
(R200). -/
theorem pollCoprocessor_eq_applyCoprocessor (acc stp en : Bool) (s : State) :
    pollCoprocessor acc stp en s =
      applyCoprocessor (coprocessorMove acc stp en (onTriggerLine s.vdp) s.vdp.frameExpired s.vdp.cop) s := by
  cases hc : s.vdp.cop <;> simp only [pollCoprocessor, coprocessorMove, hc]
  case none =>
    split
    · exact (applyCoprocessor_fire s).symm
    · exact (applyCoprocessor_idle hc).symm
  case pending =>
    split
    · exact (applyCoprocessor_silent _ s).symm
    · split
      · exact (applyCoprocessor_idle hc).symm
      · cases acc
        · simp [applyCoprocessor, ← hc, State.addCall]
        · rfl
  case asserted =>
    split
    · exact (applyCoprocessor_idle hc).symm
    · rfl
  case acked => exact (applyCoprocessor_silent _ s).symm

theorem exec_pollPrimary (acc stp : Bool) (s : State) :
    exec (.pollPrimary acc stp) s =
      .next ((applyPrimary (primaryMove acc stp (levelNow s.vdp) s.vdp.prim) s).setResult .noResult) := by
  rw [← pollPrimary_eq_applyPrimary]
  rfl

theorem exec_pollCoprocessor (acc stp en : Bool) (s : State) :
    exec (.pollCoprocessor acc stp en) s =
      .next ((applyCoprocessor (coprocessorMove acc stp en (onTriggerLine s.vdp) s.vdp.frameExpired s.vdp.cop)
        s).setResult .noResult) := by
  rw [← pollCoprocessor_eq_applyCoprocessor]
  rfl

/-! ### The reads of R200 -/

/-- The level is read off the two pending flags and their enables (R191). -/
theorem levelNow_congr {v w : Record} (hvp : v.cs.vIntPending = w.cs.vIntPending)
    (hhp : v.cs.hIntPending = w.cs.hIntPending) (hvie : vie v = vie w) (hhie : hie v = hie w) :
    levelNow v = levelNow w := by
  simp only [levelNow, hvp, hhp, hvie, hhie]

theorem onTriggerLine_congr {v w : Record} (hv : v.cs.vCounter = w.cs.vCounter)
    (hl : v.copTriggerLine = w.copTriggerLine) : onTriggerLine v = onTriggerLine w := by
  simp only [onTriggerLine, hv, hl]

/-- An ack leaves the coprocessor channel alone, whatever its level (R192, R200). -/
theorem ackPrimary_coprocessor (l : Byte) (v : Record) :
    (ackPrimary l v).cop = v.cop ∧ (ackPrimary l v).frameExpired = v.frameExpired ∧
      (ackPrimary l v).copTriggerLine = v.copTriggerLine := by
  obtain ⟨vp, hp, c, k, h, -⟩ := ackPrimary_frame l v
  simp [h]

/-- Settles O41: each poll applies the move of what its channel reads, which is the same move in both states. -/
theorem channelsAreIndependent : Obligations.ChannelsAreIndependent := by
  refine ⟨fun acc stp s u hprim hvp hhp hvie hhie => ?_, fun acc stp en s u hcop hv hl hf => ?_, fun l s => ?_⟩
  · rw [exec_pollPrimary, exec_pollPrimary, levelNow_congr hvp hhp hvie hhie, hprim]
    exact ⟨_, _, rfl, rfl⟩
  · rw [exec_pollCoprocessor, exec_pollCoprocessor, onTriggerLine_congr hv hl, hf, hcop]
    exact ⟨_, _, _, rfl, rfl⟩
  · exact ⟨_, rfl, ackPrimary_coprocessor l s.vdp⟩

end Sys2Proof.Machine
end

