-- ==== Sys2Proof/Proofs/Encoding.lean ====
section
/-! PROOFS. The encodings (spec/30_encoding.md): a serialized operation is decoded to itself and to nothing else, the
command words and selection words are their forms, and the bytes of no operation are refused by name. -/

namespace Sys2Proof.Machine

open Sys2Proof

/-! ### One operand -/

/-- A sequence of operands is read where each of them is. -/
theorem andTake_eq_ok {α β : Type} {t : Taken α} {f : α → List Byte → Taken β} {y : β × List Byte} :
    andTake t f = .ok y ↔ ∃ x r, t = .ok (x, r) ∧ f x r = .ok y := by
  rcases t with e | ⟨x, r⟩ <;> simp [andTake]

theorem takeByte_eq_ok {bs r : List Byte} {b : Byte} : takeByte bs = .ok (b, r) ↔ bs = b :: r := by
  cases bs <;> simp [takeByte]

theorem wordBytes_append (hi lo : Byte) : wordBytes (hi ++ lo) = [hi, lo] :=
  congrArg₂ (fun x y => [x, y]) BitVec.extractLsb'_append_eq_left BitVec.extractLsb'_append_eq_right

theorem takeWord_eq_ok {bs r : List Byte} {w : Word} : takeWord bs = .ok (w, r) ↔ bs = wordBytes w ++ r := by
  constructor
  · intro h
    unfold takeWord at h
    split at h <;> cases h
    rw [wordBytes_append]
    rfl
  · rintro rfl
    simp [takeWord, wordBytes, word_halves]

theorem commandBytes_append (b3 b2 b1 b0 : Byte) : commandBytes (b3 ++ b2 ++ b1 ++ b0) = [b3, b2, b1, b0] := by
  simp only [commandBytes, List.cons.injEq, and_true]
  refine ⟨?_, ?_, ?_, BitVec.extractLsb'_append_eq_right⟩
  · exact (BitVec.extractLsb'_append_eq_of_le (by decide)).trans <|
      (BitVec.extractLsb'_append_eq_of_le (by decide)).trans BitVec.extractLsb'_append_eq_left
  · exact (BitVec.extractLsb'_append_eq_of_le (by decide)).trans <|
      (BitVec.extractLsb'_append_eq_of_le (by decide)).trans BitVec.extractLsb'_append_eq_right
  · exact (BitVec.extractLsb'_append_eq_of_le (by decide)).trans BitVec.extractLsb'_append_eq_right

/-- The four bytes of a command word, joined again. -/
theorem command_quarters (c : Command) :
    c.extractLsb' 24 8 ++ c.extractLsb' 16 8 ++ c.extractLsb' 8 8 ++ c.extractLsb' 0 8 = c := by
  rw [BitVec.extractLsb'_append_extractLsb'_eq_extractLsb' (show 24 = 16 + 8 from rfl),
    BitVec.extractLsb'_append_extractLsb'_eq_extractLsb' (show 16 = 8 + 8 from rfl),
    BitVec.extractLsb'_append_extractLsb'_eq_extractLsb' (show 8 = 0 + 8 from rfl)]
  exact BitVec.extractLsb'_eq_self

theorem takeCommand_eq_ok {bs r : List Byte} {c : Command} :
    takeCommand bs = .ok (c, r) ↔ bs = commandBytes c ++ r := by
  constructor
  · intro h
    unfold takeCommand at h
    split at h <;> cases h
    rw [commandBytes_append]
    rfl
  · rintro rfl
    simp [takeCommand, commandBytes, command_quarters]

theorem takeBool_eq_ok {bs r : List Byte} {b : Bool} : takeBool bs = .ok (b, r) ↔ bs = boolByte b :: r := by
  cases bs with
  | nil => simp [takeBool]
  | cons x xs =>
    simp only [takeBool]
    split
    · cases b <;> simp_all [boolByte]
    · split <;> cases b <;> simp_all [boolByte]

/-- An addressing-mode byte is its four bits under four zeros (R95). -/
theorem eq_accessByte_iff (b : Byte) (m : AccessMode) :
    b = accessByte m ↔ b.extractLsb' 4 4 = 0#4 ∧ b.extractLsb' 0 4 = m := by
  revert b m
  decide

theorem takeAccess_eq_ok {bs r : List Byte} {m : AccessMode} :
    takeAccess bs = .ok (m, r) ↔ bs = accessByte m :: r := by
  cases bs with
  | nil => simp [takeAccess]
  | cons x xs =>
    simp only [takeAccess, List.cons.injEq, eq_accessByte_iff]
    split <;> simp_all

/-- A byte spells a mode exactly where it is that mode's `mode_id` (R92). -/
theorem modeOfId_eq_some (b : Byte) (m : VideoMode) : modeOfId b = some m ↔ b = modeId m := by
  obtain ⟨h, l, r⟩ := m
  cases h <;> cases l <;> cases r <;> revert b <;> decide

theorem takeVideoMode_eq_ok {bs r : List Byte} {m : VideoMode} :
    takeVideoMode bs = .ok (m, r) ↔ bs = modeId m :: r := by
  cases bs with
  | nil => simp [takeVideoMode]
  | cons x xs =>
    simp only [takeVideoMode, List.cons.injEq, ← modeOfId_eq_some]
    split <;> simp_all

/-! ### A whole operation -/

@[simp] theorem andTake_ok {α β : Type} (x : α) (r : List Byte) (f : α → List Byte → Taken β) :
    andTake (.ok (x, r)) f = f x r := rfl
@[simp] theorem takeByte_cons (b : Byte) (r : List Byte) : takeByte (b :: r) = .ok (b, r) := rfl
@[simp] theorem takeWord_wordBytes (w : Word) (r : List Byte) : takeWord (wordBytes w ++ r) = .ok (w, r) :=
  takeWord_eq_ok.mpr rfl
@[simp] theorem takeCommand_commandBytes (c : Command) (r : List Byte) :
    takeCommand (commandBytes c ++ r) = .ok (c, r) :=
  takeCommand_eq_ok.mpr rfl
@[simp] theorem takeBool_boolByte (b : Bool) (r : List Byte) : takeBool (boolByte b :: r) = .ok (b, r) :=
  takeBool_eq_ok.mpr rfl
@[simp] theorem takeAccess_accessByte (m : AccessMode) (r : List Byte) : takeAccess (accessByte m :: r) = .ok (m, r) :=
  takeAccess_eq_ok.mpr rfl
@[simp] theorem takeVideoMode_modeId (m : VideoMode) (r : List Byte) : takeVideoMode (modeId m :: r) = .ok (m, r) :=
  takeVideoMode_eq_ok.mpr rfl

/-- Settles O1: by operation, each operand being read back as it was written. -/
theorem encodedOperationsDecodeToThemselves : Obligations.EncodedOperationsDecodeToThemselves := by
  intro i bs rest h
  cases i <;> cases h <;> simp [decode, decodeOperands]

/-- Settles O2: by selector, each operand read being the bytes it stands for. -/
theorem decodedBytesAreTheOperationsForm : Obligations.DecodedBytesAreTheOperationsForm := by
  intro i bs rest h
  cases bs with
  | nil => cases h
  | cons sel r =>
    simp only [decode] at h
    unfold decodeOperands at h
    split at h <;> simp only [andTake_eq_ok, takeByte_eq_ok, takeWord_eq_ok, takeCommand_eq_ok, takeBool_eq_ok,
      takeAccess_eq_ok, takeVideoMode_eq_ok, Except.ok.injEq, Prod.mk.injEq, reduceCtorEq] at h
    case h_1 | h_11 | h_13 | h_15 | h_21 =>
      obtain ⟨x, r, rfl, rfl, rfl⟩ := h
      exact ⟨_, rfl, by simp⟩
    case h_12 | h_14 | h_20 | h_22 =>
      obtain ⟨x, r, rfl, y, r, rfl, rfl, rfl⟩ := h
      exact ⟨_, rfl, by simp⟩
    case h_5 | h_10 | h_16 | h_23 =>
      obtain ⟨x, r, rfl, y, r, rfl, z, r, rfl, rfl, rfl⟩ := h
      exact ⟨_, rfl, by simp⟩
    case h_19 =>
      obtain ⟨a0, r, rfl, s0, r, rfl, a1, r, rfl, s1, r, rfl, e, r, rfl, rfl, rfl⟩ := h
      exact ⟨_, rfl, by simp⟩
    all_goals
      obtain ⟨rfl, rfl⟩ := h
      exact ⟨_, rfl, rfl⟩

/-! ### Command words and selection words -/

/-- The fields of a command word, joined again, are the word (R87). -/
theorem commandWord_fields (cmd : Command) :
    commandWord (commandCd cmd) (cmd.extractLsb' 0 2 ++ cmd.extractLsb' 16 14) (cmd.extractLsb' 8 8)
      (cmd.extractLsb' 2 2) = cmd := by
  have cdLow : (commandCd cmd).extractLsb' 0 2 = cmd.extractLsb' 30 2 := BitVec.extractLsb'_append_eq_right
  have cdHigh : (commandCd cmd).extractLsb' 2 4 = cmd.extractLsb' 4 4 := BitVec.extractLsb'_append_eq_left
  have aLow : (cmd.extractLsb' 0 2 ++ cmd.extractLsb' 16 14 : Word).extractLsb' 0 14 = cmd.extractLsb' 16 14 :=
    BitVec.extractLsb'_append_eq_right
  have aHigh : (cmd.extractLsb' 0 2 ++ cmd.extractLsb' 16 14 : Word).extractLsb' 14 2 = cmd.extractLsb' 0 2 :=
    BitVec.extractLsb'_append_eq_left
  rw [commandWord, cdLow, cdHigh, aLow, aHigh,
    BitVec.extractLsb'_append_extractLsb'_eq_extractLsb' (show 30 = 16 + 14 from rfl),
    BitVec.extractLsb'_append_extractLsb'_eq_extractLsb' (show 16 = 8 + 8 from rfl),
    BitVec.extractLsb'_append_extractLsb'_eq_extractLsb' (show 8 = 4 + 4 from rfl),
    BitVec.extractLsb'_append_extractLsb'_eq_extractLsb' (show 4 = 2 + 2 from rfl),
    BitVec.extractLsb'_append_extractLsb'_eq_extractLsb' (show 2 = 0 + 2 from rfl)]
  exact BitVec.extractLsb'_eq_self

section Fields

variable (cd : BitVec 6) (a : Word) (hi : Byte) (lo : BitVec 2)

/-- The fields read from a command word are those it was joined of (R87, R89). -/
theorem commandCd_commandWord : commandCd (commandWord cd a hi lo) = cd := by
  have high : (commandWord cd a hi lo).extractLsb' 4 4 = cd.extractLsb' 2 4 :=
    (BitVec.extractLsb'_append_eq_of_le (by decide)).trans <|
      (BitVec.extractLsb'_append_eq_of_le (by decide)).trans BitVec.extractLsb'_append_eq_right
  have low : (commandWord cd a hi lo).extractLsb' 30 2 = cd.extractLsb' 0 2 :=
    (BitVec.extractLsb'_append_eq_of_le (by decide)).trans <|
      (BitVec.extractLsb'_append_eq_of_le (by decide)).trans <|
      (BitVec.extractLsb'_append_eq_of_le (by decide)).trans <|
      (BitVec.extractLsb'_append_eq_of_le (by decide)).trans BitVec.extractLsb'_append_eq_left
  rw [commandCd, high, low, BitVec.extractLsb'_append_extractLsb'_eq_extractLsb' (show 2 = 0 + 2 from rfl)]
  exact BitVec.extractLsb'_eq_self

theorem commandWord_address :
    (commandWord cd a hi lo).extractLsb' 0 2 ++ (commandWord cd a hi lo).extractLsb' 16 14 = a := by
  have high : (commandWord cd a hi lo).extractLsb' 0 2 = a.extractLsb' 14 2 := BitVec.extractLsb'_append_eq_right
  have low : (commandWord cd a hi lo).extractLsb' 16 14 = a.extractLsb' 0 14 :=
    (BitVec.extractLsb'_append_eq_of_le (by decide)).trans <|
      (BitVec.extractLsb'_append_eq_of_le (by decide)).trans <|
      (BitVec.extractLsb'_append_eq_of_le (by decide)).trans <|
      (BitVec.extractLsb'_append_eq_of_le (by decide)).trans BitVec.extractLsb'_append_eq_right
  rw [high, low, BitVec.extractLsb'_append_extractLsb'_eq_extractLsb' (show 14 = 0 + 14 from rfl)]
  exact BitVec.extractLsb'_eq_self

theorem commandWord_ignoredHi : (commandWord cd a hi lo).extractLsb' 8 8 = hi :=
  (BitVec.extractLsb'_append_eq_of_le (by decide)).trans <|
    (BitVec.extractLsb'_append_eq_of_le (by decide)).trans <|
    (BitVec.extractLsb'_append_eq_of_le (by decide)).trans BitVec.extractLsb'_append_eq_right

theorem commandWord_ignoredLo : (commandWord cd a hi lo).extractLsb' 2 2 = lo :=
  (BitVec.extractLsb'_append_eq_of_le (by decide)).trans BitVec.extractLsb'_append_eq_right

/-- A command word is decoded to the form `CD[5]` tells, with the fields it was joined of (R87, R90). -/
theorem decodeCommand_commandWord :
    decodeCommand (commandWord cd a hi lo) =
      if cd.getLsbD 5 then .cmdDmaRequest (cd.extractLsb' 0 5) a hi lo
      else .cmdAddressOnly (cd.extractLsb' 0 5) a hi lo := by
  simp only [decodeCommand, commandRequestsDma, commandCd_commandWord, commandWord_address, commandWord_ignoredHi,
    commandWord_ignoredLo]

end Fields

/-- `CD` is its topmost bit and the five below (R87). -/
theorem command_cd_split : ∀ cd : BitVec 6, BitVec.ofBool (cd.getLsbD 5) ++ cd.extractLsb' 0 5 = cd := by decide

/-- `CD[5]` is bit 7 of the command word (R87, R90). -/
theorem commandRequestsDma_eq (cmd : Command) : commandRequestsDma cmd = cmd.getLsbD 7 := by
  have h : (cmd.extractLsb' 4 4 ++ cmd.extractLsb' 30 2).getLsbD 5 = (cmd.extractLsb' 4 4).getLsbD 3 :=
    BitVec.getLsbD_append
  exact h.trans (by simp)

theorem encodeCommand_decodeCommand (cmd : Command) : encodeCommand (decodeCommand cmd) = some cmd := by
  have hsplit := command_cd_split (commandCd cmd)
  cases hbit : (commandCd cmd).getLsbD 5 <;> rw [hbit] at hsplit <;>
    simp only [decodeCommand, commandRequestsDma, hbit, if_true, Bool.false_eq_true, if_false, encodeCommand,
      Option.some.injEq]
  · exact (congrArg (commandWord · _ _ _) hsplit).trans (commandWord_fields cmd)
  · exact (congrArg (commandWord · _ _ _) hsplit).trans (commandWord_fields cmd)

theorem decodeCommand_of_encodeCommand {i : Instr} {cmd : Command} (h : encodeCommand i = some cmd) :
    decodeCommand cmd = i := by
  cases i <;> cases h
  case cmdDmaRequest cd a hi lo =>
    have bits : ∀ cd : BitVec 5, (1#1 ++ cd : BitVec 6).getLsbD 5 = true ∧ (1#1 ++ cd : BitVec 6).extractLsb' 0 5 = cd := by
      decide
    rw [decodeCommand_commandWord, if_pos (bits cd).1, (bits cd).2]
  case cmdAddressOnly cd a hi lo =>
    have bits : ∀ cd : BitVec 5, (0#1 ++ cd : BitVec 6).getLsbD 5 ≠ true ∧ (0#1 ++ cd : BitVec 6).extractLsb' 0 5 = cd := by
      decide
    rw [decodeCommand_commandWord, if_neg (bits cd).1, (bits cd).2]

/-- A selection row is told by its word (R91). -/
theorem decodeSelect_of_encodeSelect {i : Instr} {w : BitVec 6} (hwf : i.wf = true) (h : encodeSelect i = some w) :
    decodeSelect w = i := by
  cases i <;> cases h
  case dmaCopy m => revert m; decide
  case dmaFill => decide
  case dmaMem2VramVram c => revert c; decide
  case dmaMem2VramCram c => revert c; decide
  case dmaMem2VramVsram c => revert c; decide
  case dmaConfigError code m => revert code m; decide

/-- Settles O3: a command word is the join of its fields, `CD[5]` its topmost one; a selection word is one of 64. -/
theorem commandAndSelectionWordsRoundTrip : Obligations.CommandAndSelectionWordsRoundTrip :=
  ⟨fun cmd => ⟨encodeCommand_decodeCommand cmd, commandRequestsDma_eq cmd⟩, fun _ _ => decodeCommand_of_encodeCommand,
    by decide, fun _ _ => decodeSelect_of_encodeSelect⟩

/-! ### The step -/

/-- Settles O4: each word is decoded as it stands. -/
theorem sampleWordsDecode : Obligations.SampleWordsDecode := by
  unfold Obligations.SampleWordsDecode
  decide

/-- A step on a byte program that decodes runs the operation and leaves the bytes after it (log 1). -/
theorem step_of_decode {i : Instr} {bs rest : List Byte} (h : decode bs = .ok (i, rest)) (s : State)
    (q : List Request) :
    step { s with inbox := .bytes bs :: q } = exec i { s with inbox := .bytes rest :: q } := by
  cases bs with
  | nil => cases h
  | cons b r => simp [step, nextRequest, h, State.setInbox]

/-- A step on a byte program that does not decode is refused by the name of the error (R94, R96). -/
theorem step_of_decode_error {e : DecodeError} {b : Byte} {r : List Byte} (h : decode (b :: r) = .error e) (s : State)
    (q : List Request) : step { s with inbox := .bytes (b :: r) :: q } = .refused (refusalOf e) := by
  simp [step, nextRequest, h]

/-- Settles O6: the front of the inbox is a byte program, a call, or nothing. -/
theorem stepRunsTheDecodedOperation : Obligations.StepRunsTheDecodedOperation := by
  intro s i q hwf
  refine ⟨fun bs rest h => step_of_decode h s q, ?_, rfl⟩
  simp [step, nextRequest, hwf, State.setInbox]

/-! ### Bytes of no operation -/

/-- A Boolean operand's byte is read, or refused as a bad operand: it is never missing. -/
theorem takeBool_cons (b : Byte) (r : List Byte) :
    takeBool (b :: r) = .error .badOperand ∨ ∃ x, takeBool (b :: r) = .ok (x, r) := by
  simp only [takeBool]
  split
  · exact .inr ⟨_, rfl⟩
  · split
    · exact .inr ⟨_, rfl⟩
    · exact .inl rfl

theorem takeAccess_cons (b : Byte) (r : List Byte) :
    takeAccess (b :: r) = .error .badOperand ∨ ∃ x, takeAccess (b :: r) = .ok (x, r) := by
  simp only [takeAccess]
  split
  · exact .inr ⟨_, rfl⟩
  · exact .inl rfl

theorem takeVideoMode_cons (b : Byte) (r : List Byte) :
    takeVideoMode (b :: r) = .error .badOperand ∨ ∃ x, takeVideoMode (b :: r) = .ok (x, r) := by
  simp only [takeVideoMode]
  split
  · exact .inr ⟨_, rfl⟩
  · exact .inl rfl

/-- Where what follows an operand is refused as a bad operand, so is the operation, whatever the operand's byte is. -/
theorem andTake_badOperand {α β : Type} {t : Taken α} {r : List Byte} {f : α → List Byte → Taken β}
    (ht : t = .error .badOperand ∨ ∃ x, t = .ok (x, r)) (hf : ∀ x, f x r = .error .badOperand) :
    andTake t f = .error .badOperand := by
  obtain rfl | ⟨x, rfl⟩ := ht
  · rfl
  · exact hf x

theorem andTake_error {α β : Type} {t : Taken α} {e : DecodeError} {f : α → List Byte → Taken β} (ht : t = .error e) :
    andTake t f = .error e := by
  rw [ht]
  rfl

theorem takeBool_badOperand {b : Byte} (h : 1 < b.toNat) (r : List Byte) : takeBool (b :: r) = .error .badOperand := by
  have h0 : b ≠ 0x00#8 := by rintro rfl; exact absurd h (by decide)
  have h1 : b ≠ 0x01#8 := by rintro rfl; exact absurd h (by decide)
  simp [takeBool, h0, h1]

theorem takeAccess_badOperand {b : Byte} (h : 16 ≤ b.toNat) (r : List Byte) :
    takeAccess (b :: r) = .error .badOperand := by
  have hb : b.extractLsb' 4 4 ≠ 0#4 := by revert b; decide
  simp [takeAccess, hb]

theorem takeVideoMode_badOperand {b : Byte} (h : 12 ≤ b.toNat) (r : List Byte) :
    takeVideoMode (b :: r) = .error .badOperand := by
  have hb : modeOfId b = none := by revert b; decide
  simp [takeVideoMode, hb]

theorem decode_badSelector {b : Byte} (r : List Byte)
    (h : b ∉ [0x01#8, 0x02#8, 0x03#8, 0x04#8, 0x10#8, 0x11#8, 0x12#8, 0x13#8, 0x14#8, 0x20#8, 0x21#8, 0x22#8, 0x23#8,
      0x30#8, 0x31#8, 0x32#8, 0x33#8, 0x34#8, 0x40#8, 0x41#8, 0x42#8, 0x43#8, 0x44#8, 0x45#8, 0x46#8, 0x47#8]) :
    decode (b :: r) = .error .badSelector := by
  simp only [decode]
  unfold decodeOperands
  split
  case h_27 => rfl
  all_goals exact absurd h (by decide)

/-- Settles O5: the selector first, then each operand that can be bad, after operands that are read or bad themselves. -/
theorem bytesThatSpellNoOperationAreRefused : Obligations.BytesThatSpellNoOperationAreRefused := by
  intro s b r q
  refine ⟨fun h => step_of_decode_error (decode_badSelector r h) s q, ?_, ?_⟩
  · rintro (rfl | rfl)
    · exact step_of_decode_error (e := .notSerialized) rfl s q
    · exact step_of_decode_error (e := .notSerialized) rfl s q
  intro badOperand
  have refuse : ∀ sel l, decode (sel :: (l ++ r)) = .error .badOperand → badOperand (sel :: l) :=
    fun sel l h => step_of_decode_error h s q
  refine ⟨fun h => ?_, fun h => ?_, fun h o1 o2 o3 o4 o5 => ?_⟩
  · have bad := takeVideoMode_badOperand h r
    exact ⟨refuse _ _ (andTake_error bad), refuse _ _ (andTake_error bad)⟩
  · have bad := takeAccess_badOperand h r
    exact ⟨refuse _ _ (andTake_error bad), refuse _ _ (andTake_error bad), refuse _ _ (andTake_error bad)⟩
  · have bad := takeBool_badOperand h r
    have skip := fun (o : Byte) (l : List Byte) => takeBool_cons o l
    refine ⟨⟨refuse _ _ ?_, refuse _ _ ?_⟩, ⟨refuse _ _ ?_, refuse _ _ ?_, refuse _ _ ?_⟩, refuse _ _ ?_, refuse _ _ ?_,
      refuse _ _ ?_, refuse _ _ ?_, refuse _ _ ?_, refuse _ _ ?_, refuse _ _ ?_⟩
    · exact andTake_error bad
    · exact andTake_badOperand (skip _ _) fun _ => andTake_error bad
    · exact andTake_error bad
    · exact andTake_badOperand (skip _ _) fun _ => andTake_error bad
    · exact andTake_badOperand (skip _ _) fun _ => andTake_badOperand (skip _ _) fun _ => andTake_error bad
    · exact andTake_badOperand (takeAccess_cons _ _) fun _ =>
        (andTake_error bad : andTake (takeBool (b :: r)) _ = _)
    · exact andTake_badOperand (takeVideoMode_cons _ _) fun _ => andTake_error bad
    · exact andTake_error bad
    · exact andTake_badOperand (skip _ _) fun _ => andTake_error bad
    · exact andTake_badOperand (skip _ _) fun _ => andTake_badOperand (skip _ _) fun _ => andTake_error bad
    · exact andTake_badOperand (skip _ _) fun _ => andTake_badOperand (skip _ _) fun _ =>
        andTake_badOperand (skip _ _) fun _ => andTake_error bad
    · exact andTake_badOperand (skip _ _) fun _ => andTake_badOperand (skip _ _) fun _ =>
        andTake_badOperand (skip _ _) fun _ => andTake_badOperand (skip _ _) fun _ => andTake_error bad

end Sys2Proof.Machine
end

