-- ==== Sys2Proof/Proofs/Moves.lean ====
section
/-! PROOFS. What an operation can do: every operation that answers a next state gets there by the moves below, each an
update of one part of the state behind the check that guards it. A claim about all operations is then proved move by
move. -/

namespace Sys2Proof.Machine

open Sys2Proof

/-- The operation calls ADVANCE_H: the call itself and the ticks (R112, R220). -/
def advancesRaster (i : Instr) : Bool :=
  match i with
  | .advanceH | .tick _ _ _ _ _ | .ticks _ _ _ _ _ _ => true
  | _ => false

/-- The operation calls NEW_FRAME: the call itself and the ticks (R197, R220). -/
def startsFrames (i : Instr) : Bool :=
  match i with
  | .newFrame | .tick _ _ _ _ _ | .ticks _ _ _ _ _ _ => true
  | _ => false

/-- One update that the operation `i` makes, from a state to the next. -/
inductive Move (i : Instr) : State → State → Prop where
  | answer (s : State) (r : Result) : Move i s (s.setResult r)
  | addLog (s : State) (k : LogKind) : Move i s (s.setVdp (s.vdp.addLog k))
  | primary (s : State) (c : Channel) (calls : List CpuCall) :
      Move i s { s with vdp := { s.vdp with prim := c }, cpuCalls := s.cpuCalls ++ calls }
  | coprocessor {s : State} {c : Channel} {f : Bool} (calls : List CpuCall)
      (hlatch : s.vdp.frameExpired = true → f = true ∧ (c = .pending → s.vdp.cop = .pending)) :
      Move i s { s with vdp := { s.vdp with cop := c, frameExpired := f }, cpuCalls := s.cpuCalls ++ calls }
  | ack {s : State} {vp : Bool} (hp : Bool) (c : Channel) (k : List LogKind)
      (hvp : vp = true → s.vdp.cs.vIntPending = true) :
      Move i s (s.setVdp { s.vdp with
        cs := { s.vdp.cs with vIntPending := vp, hIntPending := hp }, prim := c, log := s.vdp.log ++ k })
  | newFrame {s : State} {p : TimingParams} (hi : startsFrames i = true) (hp : paramsOf s = some p) :
      Move i s (s.setVdp (newFrame p s.vdp))
  | setMode {s : State} {m : VideoMode} {p : TimingParams} (hi : mayMoveCounters i = true)
      (hp : timingOf s.cfg m = some p) : Move i s (s.setVdp (resetCounters { s.vdp with curMode := m }))
  | resetCounters {s : State} (hi : mayMoveCounters i = true) : Move i s (s.setVdp (resetCounters s.vdp))
  | advance {s : State} {p : TimingParams} {c : CounterState} (hi : advancesRaster i = true) (hp : paramsOf s = some p)
      (hc : c = advanceCounters p (lineCounter s.vdp) s.vdp.cs) : Move i s (s.setVdp (s.vdp.setCs c))
  | push {s : State} {e : FifoEntry} (he : isWriteCode e.ramMode = true) (hf : fifoFull s.cfg s.vdp.fifo = false) :
      Move i s (s.setVdp (s.vdp.setFifo (fifoAppend s.cfg e s.vdp.fifo)))
  | pop {s : State} (hc : s.vdp.fifo.count ≠ 0) : Move i s (s.setVdp (s.vdp.setFifo (fifoDrop s.cfg s.vdp.fifo)))
  | store {s : State} {g : Target} {a d : Word} {x y z : Memory} (hi : mayWriteVideoMemory i = true)
      (hw : writeTarget s.cfg g a d s.vdp = { s.vdp with vram := x, cram := y, vsram := z }) :
      Move i s (s.setVdp { s.vdp with vram := x, cram := y, vsram := z })
  | startTransfer {s : State} (hd : s.vdp.dma = none) (mode : DmaMode) (m : AccessMode) (cmd : Command) :
      Move i s (s.setVdp (s.vdp.setDma (some (newTransfer mode m cmd)) true))
  | clearTransfer {s : State} (hd : s.vdp.dma = none) : Move i s (s.setVdp (s.vdp.setDma none false))
  | startFill {s : State} {tr : Transfer} (hi : mayWriteVideoMemory i = true) (hd : s.vdp.dma = some tr)
      (ha : fillArmed (some tr) = true) (d : Word) :
      Move i s (s.setVdp ((vramWrite (tr.destAddress ^^^ 1#16) (d.extractLsb' 8 8) s.vdp).setDma
        (some { tr with fillData := some d, fillStarted := true }) s.vdp.dmaBusy))
  | unit {s : State} {tr : Transfer} (hi : mayRunUnits i = true) (hd : s.vdp.dma = some tr) : Move i s (dmaUnit tr s)
  | complete {s : State} (hi : mayRunUnits i = true) (hl : dmaLength s.vdp = 0#16) : Move i s (dmaComplete s)
  | setReg {s : State} {x b : Byte} {k : Fin numRegs} (hi : i = .regWrite x b) (hx : x.toNat = k.val) :
      Move i s (s.setVdp (s.vdp.setReg k b))
  | restore {s : State} {r : Record} (hi : i = .restore r) (hv : restoreValid s.cfg r = true) :
      Move i s ((s.setVdp r).setDraws (drawsAfter s.draws r))
  | reset {s : State} {p : TimingParams} (hi : i = .resetSystem) (hp : timingOf s.cfg (resetMode s.cfg) = some p) :
      Move i s ((s.setVdp (resetRecord s.cfg p s.draws)).setDraws (s.draws + 3))

/-- Moves of an operation, one after the other. -/
abbrev Moves (i : Instr) : State → State → Prop := Relation.ReflTransGen (Move i)

theorem Moves.answer {i : Instr} {s t : State} (h : Moves i s t) (r : Result) : Moves i s (t.setResult r) :=
  h.tail (.answer t r)

/-! ### The shared operations, as moves -/

theorem move_pollPrimary (i : Instr) (acc stp : Bool) (s : State) : Move i s (pollPrimary acc stp s) := by
  obtain ⟨c, calls, h⟩ := pollPrimary_frame acc stp s
  rw [h]
  exact .primary s c calls

theorem move_pollCoprocessor (i : Instr) (acc stp en : Bool) (s : State) :
    Move i s (pollCoprocessor acc stp en s) := by
  obtain ⟨c, f, calls, h, hlatch⟩ := pollCoprocessor_frame acc stp en s
  rw [h]
  exact .coprocessor calls hlatch

theorem move_ackPrimary (i : Instr) (l : Byte) (s : State) : Move i s (s.setVdp (ackPrimary l s.vdp)) := by
  obtain ⟨vp, hp, c, k, h, hvp⟩ := ackPrimary_frame l s.vdp
  rw [h]
  exact .ack hp c k hvp

theorem move_writeTarget {i : Instr} (hi : mayWriteVideoMemory i = true) (g : Target) (a d : Word) (s : State) :
    Move i s (s.setVdp (writeTarget s.cfg g a d s.vdp)) := by
  obtain ⟨x, y, z, h⟩ := writeTarget_memories s.cfg g a d s.vdp
  rw [h]
  exact .store hi h

theorem moves_fifoPush {i : Instr} {m : AccessMode} {a d : Word} {s t : State} (h : fifoPush m a d s = .next t) :
    Moves i s t := by
  obtain ⟨hm, ⟨-, rfl⟩ | ⟨hf, rfl⟩⟩ := fifoPush_eq_next h
  · exact Moves.answer (.single (.addLog s _)) _
  · exact Moves.answer (.single (.push hm hf)) _

theorem moves_fifoDrainOne {i : Instr} (hi : mayWriteVideoMemory i = true) {s t : State}
    (h : fifoDrainOne s = .next t) : Moves i s t := by
  obtain ⟨-, rfl⟩ | ⟨-, hc, g, -, rfl⟩ := fifoDrainOne_eq_next h
  · exact .single (.answer s _)
  · exact Moves.answer (.tail (.single (.pop hc)) (move_writeTarget hi g _ _ _)) _

theorem moves_dmaSetup {i : Instr} {m : AccessMode} {cmd : Command} {m1 : Bool} {s t : State}
    (h : dmaSetup m cmd m1 s = .next t) : Moves i s t := by
  obtain ⟨hd, ⟨-, rfl⟩ | ⟨-, -, rfl⟩ | ⟨mode, -, -, rfl⟩⟩ := dmaSetup_eq_next h
  · exact Moves.answer (.single (.addLog s _)) _
  · exact Moves.answer (.tail (.single (.addLog s _)) (.clearTransfer hd)) _
  · exact Moves.answer (.single (.startTransfer hd mode m cmd)) _

theorem moves_dmaFillStart {i : Instr} (hi : mayWriteVideoMemory i = true) {d : Word} {s t : State}
    (h : dmaFillStart d s = .next t) : Moves i s t := by
  obtain ⟨tr, hd, ha, rfl⟩ := dmaFillStart_eq_next h
  exact .single (.startFill hi hd ha d)

theorem moves_doDma {i : Instr} (hi : mayRunUnits i = true) (h : HRes) (b : Bool) (s : State) :
    Moves i s (doDma h b s) :=
  doDma_induct (Moves i) (fun s r => .single (.answer s r)) (fun _ _ hd => .single (.unit hi hd))
    (fun _ hl => .single (.complete hi hl)) (fun _ _ _ => .trans) h b s

theorem moves_controlCommand {i : Instr} {cmd : Command} {s t : State} (h : controlCommand cmd s = .next t) :
    Moves i s t := by
  obtain ⟨-, rfl⟩ | ⟨-, u, hu, rfl⟩ := controlCommand_eq_next h
  · exact .single (.answer s _)
  · exact (moves_dmaSetup hu).answer _

theorem moves_selected {i : Instr} (code : BitVec 2) (m : AccessMode) (s : State) : Moves i s (selected code m s) := by
  unfold selected
  split <;> exact .single (.answer s _)

theorem moves_tickAdvance {i : Instr} (ha : advancesRaster i = true) (hf : startsFrames i = true) {s : State}
    {p : TimingParams} (hp : paramsOf s = some p) : Moves i s (s.setVdp (tickAdvance p s.vdp)) := by
  unfold tickAdvance
  simp only
  split
  · exact .tail (.single (.advance ha hp rfl)) (.newFrame hf hp)
  · exact .single (.advance ha hp rfl)

theorem moves_tickDma {i : Instr} (hi : mayRunUnits i = true) (p : TimingParams) (s : State) :
    Moves i s (tickDma p s) := by
  unfold tickDma
  split
  · exact moves_doDma hi _ _ s
  · exact .refl

theorem moves_tickOnce {i : Instr} (ha : advancesRaster i = true) (hf : startsFrames i = true)
    (hw : mayWriteVideoMemory i = true) (hu : mayRunUnits i = true) {a0 s0 a1 s1 e : Bool} {s t : State}
    (h : tickOnce a0 s0 a1 s1 e s = .next t) : Moves i s t := by
  obtain ⟨p, u, hp, hdrain, rfl⟩ := tickOnce_eq_next h
  have polls : Moves i s (tickPolls a0 s0 a1 s1 e s) :=
    .tail (.single (move_pollPrimary i a0 s0 s)) (move_pollCoprocessor i a1 s1 e _)
  have hp' : paramsOf (tickPolls a0 s0 a1 s1 e s) = some p := by
    obtain ⟨c, d, f, calls, hframe, -⟩ := tickPolls_frame a0 s0 a1 s1 e s
    rw [hframe]
    exact hp
  have drained : Moves i s u := (polls.trans (moves_tickAdvance ha hf hp')).trans (moves_fifoDrainOne hw hdrain)
  exact Moves.answer (drained.trans (moves_tickDma hu p u)) _

/-! ### Every operation -/

/-- Every operation that answers a next state makes moves of its own. -/
theorem exec_moves {i : Instr} {s t : State} (h : exec i s = .next t) : Moves i s t := by
  cases i <;> simp only [exec] at h
  case setMode m =>
    obtain ⟨u, hu, hr⟩ := (andThen_eq_next _ _ _).mp h
    obtain ⟨p, hp, rfl⟩ := setMode_eq_next.mp hu
    cases hr
    exact Moves.answer (.single (.setMode rfl hp)) _
  case resetCounters =>
    cases h
    exact Moves.answer (.single (.resetCounters rfl)) _
  case advanceH =>
    obtain ⟨p, hp, hr⟩ := (withParams_eq_next _ _ _).mp h
    cases hr
    exact Moves.answer (.single (.advance rfl hp rfl)) _
  case fifoPush => exact moves_fifoPush h
  case fifoPop =>
    unfold execFifoPop at h
    split at h <;> cases h
    · exact .single (.answer s _)
    · rename_i hc
      exact Moves.answer (.single (.pop hc)) _
  case fifoDrainOne => exact moves_fifoDrainOne rfl h
  case dmaSetup => exact moves_dmaSetup h
  case dmaFillStart =>
    obtain ⟨u, hu, hr⟩ := (andThen_eq_next _ _ _).mp h
    cases hr
    exact (moves_dmaFillStart rfl hu).answer _
  case doDma =>
    cases h
    exact moves_doDma rfl _ _ s
  case pollPrimary acc stp =>
    cases h
    exact Moves.answer (.single (move_pollPrimary _ acc stp s)) _
  case ackPrimary l =>
    cases h
    exact Moves.answer (.single (move_ackPrimary _ l s)) _
  case pollCoprocessor acc stp en =>
    cases h
    exact Moves.answer (.single (move_pollCoprocessor _ acc stp en s)) _
  case newFrame =>
    obtain ⟨p, hp, hr⟩ := (withParams_eq_next _ _ _).mp h
    cases hr
    exact Moves.answer (.single (.newFrame rfl hp)) _
  case tick => exact moves_tickOnce rfl rfl rfl rfl h
  case regWrite x b =>
    obtain ⟨-, h⟩ := busCall_eq_next.mp h
    split at h
    · rename_i hx
      obtain ⟨u, hu, hr⟩ := (andThen_eq_next _ _ _).mp h
      cases hr
      have write : Moves (.regWrite x b) s (s.setVdp (s.vdp.setReg ⟨x.toNat, hx⟩ b)) := .single (.setReg rfl rfl)
      obtain rfl | ⟨-, p, hp, rfl⟩ := regWriteAt_eq_next hu
      · exact write.answer _
      · exact Moves.answer (write.tail (.setMode rfl hp)) _
    · cases h
  case regRead =>
    unfold execRegRead at h
    split at h <;> cases h
    exact .single (.answer s _)
  case controlWritePair => exact moves_controlCommand (busCall_eq_next.mp h).2
  case cmdDmaRequest => exact moves_controlCommand (busCall_eq_next.mp h).2
  case cmdAddressOnly => exact moves_controlCommand (busCall_eq_next.mp h).2
  case dataWrite =>
    obtain ⟨-, h⟩ := busCall_eq_next.mp h
    split at h
    · obtain ⟨u, hu, hr⟩ := (andThen_eq_next _ _ _).mp h
      cases hr
      exact (moves_dmaFillStart rfl hu).answer _
    · exact moves_fifoPush h
  case restore r =>
    obtain ⟨hv, rfl⟩ := execRestore_eq_next.mp h
    exact Moves.answer (.single (.restore rfl hv)) _
  case resetSystem =>
    unfold execResetSystem at h
    split at h <;> cases h
    rename_i p hp
    exact Moves.answer (.single (.reset rfl hp)) _
  case ticks => exact tickTimes_induct _ (fun _ => .refl) (fun _ _ _ => .trans) (fun _ _ => moves_tickOnce rfl rfl rfl rfl) h
  case dmaConfigError =>
    unfold execDmaConfigError at h
    split at h
    · cases h
    · split at h <;> cases h
      rename_i hd
      exact Moves.answer (.tail (.single (.addLog s _)) (.clearTransfer (by simpa using hd))) _
  case dmaCopy | dmaFill | dmaMem2VramVram | dmaMem2VramCram | dmaMem2VramVsram =>
    cases h
    exact moves_selected _ _ s
  case readCounters | fifoIsEmpty | fifoIsFull | decreaseLength | primaryLevel | snapshot =>
    cases h
    exact .single (.answer s _)

/-- What every move of an operation keeps, the operation keeps. -/
theorem exec_keeps {i : Instr} (P : State → Prop) (hm : ∀ s t, Move i s t → P s → P t) {s t : State}
    (h : exec i s = .next t) (hs : P s) : P t := by
  have hmoves := exec_moves h
  clear h
  induction hmoves with
  | refl => exact hs
  | tail _ hstep ih => exact hm _ _ hstep ih

/-- What every move of an operation leaves alone, the operation leaves alone. -/
theorem exec_keeps_eq {i : Instr} {α : Type} (f : State → α) (hm : ∀ s t, Move i s t → f t = f s) {s t : State}
    (h : exec i s = .next t) : f t = f s :=
  exec_keeps (fun u => f u = f s) (fun _ _ hmove hu => (hm _ _ hmove).trans hu) h rfl

end Sys2Proof.Machine
end

