-- ==== Sys2Proof/Proofs/FifoOperations.lean ====
section
/-! PROOFS. The FIFO operations (spec/41_fifo.md R140, R145, R146, R148): the circular buffer as a queue, and where a
drained word lands. -/

namespace Sys2Proof.Machine

open Sys2Proof

/-! ### The circular buffer as a queue -/

/-- What the FIFO's invariants say (spec/10_state.md R35), its entries as a queue. -/
theorem fifoValid_iff (cfg : Config) (f : Fifo) :
    fifoValid cfg f = true ↔ f.slots.length = cfg.fifoCapacity ∧ f.head < cfg.fifoCapacity ∧
      f.count ≤ cfg.fifoThreshold ∧ ∀ e ∈ queuedEntries cfg f, isWriteCode e.ramMode = true := by
  simp [fifoValid, entriesValid, queuedEntries, and_assoc]

theorem configWf_threshold_le {cfg : Config} (h : configWf cfg = true) : cfg.fifoThreshold ≤ cfg.fifoCapacity := by
  simp only [configWf, Bool.and_eq_true, decide_eq_true_eq] at h
  exact h.1.1.2

/-- Two of the first `capacity` offsets from the head name two slots. -/
theorem fifoIndex_ne {capacity : Nat} (f : Fifo) {k n : Nat} (hk : k < n) (hn : n < capacity) :
    fifoIndex capacity f k ≠ fifoIndex capacity f n := by
  intro h
  have hmod : k % capacity = n % capacity := Nat.ModEq.add_left_cancel' f.head h
  rw [Nat.mod_eq_of_lt (hk.trans hn), Nat.mod_eq_of_lt hn] at hmod
  omega

theorem fifoAppend_slotAt_self {cfg : Config} {f : Fifo} (e : FifoEntry) (h : f.slots.length = cfg.fifoCapacity)
    (hpos : 0 < cfg.fifoCapacity) :
    (fifoAppend cfg e f).slotAt (fifoIndex cfg.fifoCapacity f f.count) = e := by
  refine Fifo.slotAt_of_getElem? (List.getElem?_set_self ?_)
  rw [h]
  exact Nat.mod_lt _ hpos

theorem fifoAppend_slotAt_ne {cfg : Config} {f : Fifo} (e : FifoEntry) {j : Nat}
    (h : j ≠ fifoIndex cfg.fifoCapacity f f.count) : (fifoAppend cfg e f).slotAt j = f.slotAt j := by
  simp [Fifo.slotAt, fifoAppend, List.getElem?_set_ne h.symm]

/-- A push puts its entry behind the queued ones (R148). -/
theorem queuedEntries_fifoAppend {cfg : Config} {f : Fifo} (e : FifoEntry) (h : f.slots.length = cfg.fifoCapacity)
    (hc : f.count < cfg.fifoCapacity) :
    queuedEntries cfg (fifoAppend cfg e f) = queuedEntries cfg f ++ [e] := by
  have old : ∀ k ∈ List.range f.count, (fifoAppend cfg e f).slotAt (fifoIndex cfg.fifoCapacity f k) =
      f.slotAt (fifoIndex cfg.fifoCapacity f k) := fun k hk =>
    fifoAppend_slotAt_ne e (fifoIndex_ne f (List.mem_range.mp hk) hc)
  calc queuedEntries cfg (fifoAppend cfg e f)
      = (List.range (f.count + 1)).map fun k => (fifoAppend cfg e f).slotAt (fifoIndex cfg.fifoCapacity f k) := rfl
    _ = queuedEntries cfg f ++ [e] := by
      rw [List.range_succ, List.map_append, List.map_congr_left old, List.map_singleton,
        fifoAppend_slotAt_self e h (Nat.zero_lt_of_lt hc), queuedEntries]

/-- A pop takes the first of the queued entries, the one in the head slot (R148). -/
theorem queuedEntries_fifoDrop {cfg : Config} {f : Fifo} (hh : f.head < cfg.fifoCapacity) (hc : f.count ≠ 0) :
    queuedEntries cfg f = f.slotAt f.head :: queuedEntries cfg (fifoDrop cfg f) := by
  obtain ⟨n, hn⟩ := Nat.exists_eq_succ_of_ne_zero hc
  have hfront : fifoIndex cfg.fifoCapacity f 0 = f.head := Nat.mod_eq_of_lt hh
  have later : ∀ k, fifoIndex cfg.fifoCapacity f (k + 1) = fifoIndex cfg.fifoCapacity (fifoDrop cfg f) k := by
    intro k
    simp only [fifoIndex, fifoDrop, Nat.mod_add_mod]
    congr 1
    omega
  simp only [queuedEntries, hn, fifoDrop, Nat.succ_eq_add_one, Nat.add_sub_cancel, List.range_succ_eq_map,
    List.map_cons, List.map_map, hfront]
  congr 1
  exact List.map_congr_left fun k _ => congrArg f.slotAt (later k)

theorem fifoValid_fifoAppend {cfg : Config} {f : Fifo} {e : FifoEntry} (hcfg : configWf cfg = true)
    (hf : fifoValid cfg f = true) (he : isWriteCode e.ramMode = true) (hc : f.count < cfg.fifoThreshold) :
    fifoValid cfg (fifoAppend cfg e f) = true := by
  obtain ⟨hlen, hhead, -, hentries⟩ := (fifoValid_iff cfg f).mp hf
  refine (fifoValid_iff _ _).mpr ⟨by simpa [fifoAppend] using hlen, hhead, hc, ?_⟩
  rw [queuedEntries_fifoAppend e hlen (hc.trans_le (configWf_threshold_le hcfg))]
  intro x hx
  obtain hx | rfl := by simpa using hx
  · exact hentries x hx
  · exact he

theorem fifoValid_fifoDrop {cfg : Config} {f : Fifo} (hf : fifoValid cfg f = true) (hc : f.count ≠ 0) :
    fifoValid cfg (fifoDrop cfg f) = true := by
  obtain ⟨hlen, hhead, hcount, hentries⟩ := (fifoValid_iff cfg f).mp hf
  rw [queuedEntries_fifoDrop hhead hc] at hentries
  exact (fifoValid_iff _ _).mpr ⟨hlen, Nat.mod_lt _ (Nat.zero_lt_of_lt hhead), (Nat.sub_le _ _).trans hcount,
    fun e he => hentries e (List.mem_cons_of_mem _ he)⟩

/-- Under the FIFO's invariants the head slot of a queue that holds an entry is a write request (spec/10_state.md
R35). -/
theorem head_isWriteCode {cfg : Config} {f : Fifo} (hf : fifoValid cfg f = true) (hc : f.count ≠ 0) :
    isWriteCode (f.slotAt f.head).ramMode = true := by
  obtain ⟨-, hhead, -, hentries⟩ := (fifoValid_iff cfg f).mp hf
  rw [queuedEntries_fifoDrop hhead hc] at hentries
  exact hentries _ List.mem_cons_self

/-! ### The calls -/

theorem exec_fifoPush_of_bad {m : AccessMode} (h : isWriteCode m = false) (a d : Word) (s : State) :
    exec (.fifoPush m a d) s = .fault .badRamMode :=
  if_pos h

theorem exec_fifoPush_of_full {m : AccessMode} {s : State} (hm : isWriteCode m = true)
    (hf : s.cfg.fifoThreshold ≤ s.vdp.fifo.count) (a d : Word) :
    exec (.fifoPush m a d) s = .next ((s.setVdp (s.vdp.addLog .fifoFull)).setResult .full) := by
  simp [exec, execFifoPush, fifoPush, fifoFull, hm, hf]

theorem exec_fifoPush_of_room {m : AccessMode} {s : State} (hm : isWriteCode m = true)
    (hf : s.vdp.fifo.count < s.cfg.fifoThreshold) (a d : Word) :
    exec (.fifoPush m a d) s =
      .next ((s.setVdp (s.vdp.setFifo (fifoAppend s.cfg ⟨m, a, d⟩ s.vdp.fifo))).setResult .ok) := by
  simp [exec, execFifoPush, fifoPush, fifoFull, hm, Nat.not_le.mpr hf]

/-- Settles O17: the three ends of a push, by the mode check and then the threshold. -/
theorem fifoPushQueuesOrReportsFull : Obligations.FifoPushQueuesOrReportsFull := by
  intro m a d s
  have codes : m ∈ [0b0001#4, 0b0011#4, 0b0101#4] ↔ isWriteCode m = true := by simp [isWriteCode_iff]
  rw [codes, Bool.not_eq_true]
  exact ⟨fun hm => exec_fifoPush_of_bad hm a d s, fun hm hf => exec_fifoPush_of_full hm hf a d,
    fun hm hf => exec_fifoPush_of_room hm hf a d⟩

/-- Settles O19: the queue is the buffer read from the head, so a push appends and a pop takes the front. -/
theorem fifoBufferIsAnOrderedQueue : Obligations.FifoBufferIsAnOrderedQueue := by
  intro s hcfg hf
  obtain ⟨hlen, hhead, -, -⟩ := (fifoValid_iff _ _).mp hf
  refine ⟨fun m a d hm hc => ⟨_, exec_fifoPush_of_room hm hc a d, ?_, ?_⟩, fun hc => ?_⟩
  · exact queuedEntries_fifoAppend _ hlen (hc.trans_le (configWf_threshold_le hcfg))
  · exact fifoValid_fifoAppend hcfg hf hm hc
  · have hne := Nat.pos_iff_ne_zero.mp hc
    exact ⟨_, _, exec_fifoPop_of_nonempty hne, rfl, queuedEntries_fifoDrop hhead hne, fifoValid_fifoDrop hf hne⟩

/-- A drain waits while a transfer exists, and has nothing to do on an empty queue (R145, R146). -/
theorem exec_fifoDrainOne_of_gated {s : State} (h : s.vdp.dma ≠ none ∨ s.vdp.fifo.count = 0) :
    exec .fifoDrainOne s = .next (s.setResult (.bool false)) := by
  obtain hd | hc := h
  · exact if_pos (Option.isSome_iff_ne_none.mpr hd)
  · simp [exec, execFifoDrainOne, fifoDrainOne, hc]

/-- A drain that runs writes the head entry to the memory its mode names (R145). -/
theorem exec_fifoDrainOne_of_target {s : State} {g : Target} (hd : s.vdp.dma = none) (hc : s.vdp.fifo.count ≠ 0)
    (hg : writeTargetOf (s.vdp.fifo.slotAt s.vdp.fifo.head).ramMode = some g) :
    exec .fifoDrainOne s =
      .next ((s.setVdp (writeTarget s.cfg g (s.vdp.fifo.slotAt s.vdp.fifo.head).address
        (s.vdp.fifo.slotAt s.vdp.fifo.head).data (s.vdp.setFifo (fifoDrop s.cfg s.vdp.fifo)))).setResult
        (.bool true)) := by
  simp [exec, execFifoDrainOne, fifoDrainOne, hd, hc, hg]

/-- Settles O20: the gate, then the head slot's entry. -/
theorem drainWritesTheHeadEntryUnlessGated : Obligations.DrainWritesTheHeadEntryUnlessGated := by
  intro s
  refine ⟨exec_fifoDrainOne_of_gated, fun e g hd hc he hg => ?_⟩
  have hslot := Fifo.slotAt_of_getElem? he
  rw [exec_fifoDrainOne_of_target hd hc (by rw [hslot]; exact hg), hslot]
  rfl

/-! ### Where a drained word lands -/

/-- The state after a drain whose head entry is `⟨m, a, d⟩`. -/
theorem exec_fifoDrainOne_writes {s : State} {m : AccessMode} {a d : Word} {g : Target} (hd : s.vdp.dma = none)
    (hc : s.vdp.fifo.count ≠ 0) (he : s.vdp.fifo.slots[s.vdp.fifo.head]? = some ⟨m, a, d⟩)
    (hg : writeTargetOf m = some g) :
    ∃ t, exec .fifoDrainOne s = .next t ∧
      t.vdp = writeTarget s.cfg g a d (s.vdp.setFifo (fifoDrop s.cfg s.vdp.fifo)) :=
  ⟨_, (drainWritesTheHeadEntryUnlessGated s).2 _ g hd hc he hg, rfl⟩

/-- The two lanes of a VRAM word are two bytes (R62). -/
theorem xor_one_ne (a : Word) : (a ^^^ 1#16).toNat ≠ a.toNat := by
  intro h
  have hbit : (a ^^^ 1#16).getLsbD 0 = a.getLsbD 0 := by rw [BitVec.eq_of_toNat_eq h]
  simp at hbit

/-- A pair written at an offset: the high byte there, the low byte next to it, no other byte (R66). -/
theorem read_writePair (off : Nat) (w : Word) (m : Memory) (k : Nat) :
    (writePair off w m).read k =
      if k = off + 1 then w.extractLsb' 0 8 else if k = off then w.extractLsb' 8 8 else m.read k := by
  simp [writePair]

/-- A VRAM word: the low byte at `a ^ 1`, the high byte at `a`, no other byte (R62). -/
theorem read_vramWriteWord (a w : Word) (v : Record) (k : Nat) :
    (vramWriteWord a w v).vram.read k =
      if k = a.toNat then w.extractLsb' 8 8 else if k = (a ^^^ 1#16).toNat then w.extractLsb' 0 8 else v.vram.read k := by
  simp [vramWriteWord_eq]

/-- A VSRAM word below VSRAM_SIZE is written as a pair (R66). -/
theorem vsramWriteWord_of_lt {cfg : Config} {a : Word} (h : vsramOffset a < cfg.vsramSize) (w : Word) (v : Record) :
    vsramWriteWord cfg a w v = { v with vsram := writePair (vsramOffset a) w v.vsram } :=
  if_neg (Nat.not_le.mpr h)

/-- A VSRAM word at or beyond VSRAM_SIZE is dropped (R66). -/
theorem vsramWriteWord_of_le {cfg : Config} {a : Word} (h : cfg.vsramSize ≤ vsramOffset a) (w : Word) (v : Record) :
    vsramWriteWord cfg a w v = v :=
  if_pos h

/-- A word for VSRAM leaves the other two memories alone (R66, R67). -/
theorem vsramWriteWord_others (cfg : Config) (a w : Word) (v : Record) :
    (vsramWriteWord cfg a w v).vram = v.vram ∧ (vsramWriteWord cfg a w v).cram = v.cram := by
  unfold vsramWriteWord
  split <;> exact ⟨rfl, rfl⟩

/-- Settles O21: the low byte is written first, and to another address than the high byte. -/
theorem drainedVramWordPutsItsHighByteAtTheAddress : Obligations.DrainedVramWordPutsItsHighByteAtTheAddress := by
  intro s a d hd hc he
  obtain ⟨t, ht, hv⟩ := exec_fifoDrainOne_writes hd hc he (g := .vram) rfl
  refine ⟨t, ht, ?_⟩
  have hread := read_vramWriteWord a d (s.vdp.setFifo (fifoDrop s.cfg s.vdp.fifo))
  rw [hv]
  refine ⟨(hread _).trans (if_pos rfl), ?_, fun k hk hk' => ?_, fun k => rfl, fun k => rfl⟩
  · exact (hread _).trans ((if_neg (xor_one_ne a)).trans (if_pos rfl))
  · exact (hread k).trans ((if_neg hk).trans (if_neg hk'))

/-- Settles O22: the pair at the reduced offset, or nothing for a VSRAM offset beyond the memory. -/
theorem drainedColourAndScrollWordsLandAtTheirOffset : Obligations.DrainedColourAndScrollWordsLandAtTheirOffset := by
  intro s m a d hd hc he
  refine ⟨?_, ?_⟩
  · rintro rfl
    obtain ⟨t, ht, hv⟩ := exec_fifoDrainOne_writes hd hc he (g := .cram) rfl
    have hread := read_writePair (cramOffset s.cfg a) d s.vdp.cram
    refine ⟨t, ht, ?_⟩
    rw [hv]
    refine ⟨⟨?_, (hread _).trans (if_pos rfl), fun k hk hk' => ?_⟩, fun k => rfl, fun k => rfl⟩
    · exact (hread _).trans ((if_neg (Nat.ne_of_lt (Nat.lt_succ_self _))).trans (if_pos rfl))
    · exact (hread k).trans ((if_neg hk').trans (if_neg hk))
  · rintro rfl
    obtain ⟨t, ht, hv⟩ := exec_fifoDrainOne_writes hd hc he (g := .vsram) rfl
    have hread := read_writePair (vsramOffset a) d s.vdp.vsram
    obtain ⟨hvram, hcram⟩ := vsramWriteWord_others s.cfg a d (s.vdp.setFifo (fifoDrop s.cfg s.vdp.fifo))
    refine ⟨t, ht, ?_⟩
    rw [hv, writeTarget]
    refine ⟨⟨fun h => ?_, fun h k => ?_⟩, fun k => by rw [hvram]; rfl, fun k => by rw [hcram]; rfl⟩
    · rw [vsramWriteWord_of_lt h]
      refine ⟨?_, (hread _).trans (if_pos rfl), fun k hk hk' => ?_⟩
      · exact (hread _).trans ((if_neg (Nat.ne_of_lt (Nat.lt_succ_self _))).trans (if_pos rfl))
      · exact (hread k).trans ((if_neg hk').trans (if_neg hk))
    · rw [vsramWriteWord_of_le h]
      rfl

end Sys2Proof.Machine
end

