-- ==== Sys2Proof/Proofs/Raster.lean ====
section
/-! PROOFS. The timing counters (spec/40_timing_counters.md R110 to R113, R120): the mode selection, the reset of the
counters, one step of a raster counter, and the frame as its period. -/

namespace Sys2Proof.Machine

open Sys2Proof

/-! ### The mode selection and the reset of the counters -/

/-- A run of three columns lies below a bound, or above one, where its last, or its first, does (R24). -/
theorem run_lt_iff (a b : Nat) : (∀ k, k ≤ 2 → a + k < b) ↔ a + 2 < b :=
  ⟨fun h => h 2 (Nat.le_refl 2), fun h k hk => by omega⟩

theorem le_run_iff (a c : Nat) : (∀ k, k ≤ 2 → c ≤ a + k) ↔ c ≤ a :=
  ⟨fun h => h 0 (Nat.zero_le 2), fun h k _ => h.trans (Nat.le_add_right a k)⟩

/-- A mode has a record where TIMING supplies a well-formed one (R24). -/
theorem timingOf_eq_some {cfg : Config} {m : VideoMode} {p : TimingParams} :
    timingOf cfg m = some p ↔ cfg.timing.lookup m = some p ∧ paramsWf p = true := by
  rw [timingOf, findTiming_eq_lookup]
  cases cfg.timing.lookup m with
  | none => simp
  | some q =>
    simp only [Option.some.injEq]
    split
    · rename_i hq
      constructor
      · rintro h
        cases h
        exact ⟨rfl, hq⟩
      · rintro ⟨rfl, -⟩
        rfl
    · rename_i hq
      simp only [reduceCtorEq, false_iff]
      rintro ⟨rfl, h⟩
      exact hq h

/-- Settles O7: SET_MODE's two branches, and R24's conditions one by one. -/
theorem setModeSelectsTheModeAndResetsTheCounters : Obligations.SetModeSelectsTheModeAndResetsTheCounters := by
  intro m s
  refine ⟨fun p hp => ?_, fun h => ?_, fun p => ?_⟩
  · simp only [exec, execSetMode, setMode, hp, andThen_next]
    rfl
  · simp [exec, execSetMode, setMode, h]
  · simp only [run_lt_iff, le_run_iff, timingOf_eq_some]
    simp only [paramsWf, counterWf, eventsWf, oneRunWf, inHset, inVset, Bool.and_eq_true, Bool.or_eq_true,
      inCounterSet_iff, decide_eq_true_eq, and_assoc]
    simp only [jumpTarget, counterLimit]

/-- Settles O8: by evaluation of the one update. -/
theorem resetCountersClearsCounterState : Obligations.ResetCountersClearsCounterState := fun _ => rfl

/-- Settles O9: the update is of CounterState, and the result is read off it. -/
theorem advanceHWritesCounterStateOnly : Obligations.AdvanceHWritesCounterStateOnly := fun _ _ hp =>
  ⟨_, withParams_some hp _⟩

/-! ### One step of a counter -/

section Counter

variable {trigger total : Nat} (hb : 1 ≤ trigger ∧ trigger ≤ 511 ∧ trigger + 1 ≤ total ∧ total ≤ 512)
include hb

/-- The jump target lies between the trigger and the last value of the counter (R22, R24). -/
theorem jumpTarget_bounds : trigger ≤ 1 + 0x1FF + trigger - total ∧ 1 + 0x1FF + trigger - total ≤ 0x1FF := by
  omega

theorem nextCounter_toNat_of_wf (c : Counter) :
    (nextCounter trigger total c).toNat =
      if (c.toNat + 1) % 512 = trigger then 1 + 0x1FF + trigger - total else (c.toNat + 1) % 512 := by
  rw [nextCounter_toNat _ _ _ hb.2.2.1, jumpTarget, counterLimit]

theorem inCounterSet_zero : inCounterSet trigger total 0 = true := (inCounterSet_iff _ _ _).mpr (.inl hb.1)

/-- A counter stays in its set (spec/10_state.md R25). -/
theorem inCounterSet_nextCounter {c : Counter} (h : inCounterSet trigger total c.toNat = true) :
    inCounterSet trigger total (nextCounter trigger total c).toNat = true := by
  rw [inCounterSet_iff] at h ⊢
  rw [nextCounter_toNat_of_wf hb]
  split <;> omega

end Counter

/-- Settles O10: the value is that of one step, and R24 bounds the target. -/
theorem horizontalCounterStepsAndJumps : Obligations.HorizontalCounterStepsAndJumps := by
  intro s p hp
  obtain ⟨t, ht, hcs⟩ := exec_advanceH_cs hp
  obtain ⟨hb, -⟩ := paramsWf_bounds (timingOf_wf hp)
  have hstep := nextCounter_toNat_of_wf hb s.vdp.cs.hCounter
  obtain ⟨hlow, hhigh⟩ := jumpTarget_bounds hb
  refine ⟨t, ht, ?_⟩
  rw [hcs, advanceCounters_hCounter, hstep]
  refine ⟨rfl, hlow, hhigh, fun hless => ?_⟩
  split <;> omega

/-! ### The frame -/

/-- The place of a counter value in its cycle of `total` values: those below the trigger, then those from the jump
target on. -/
def counterPlace (trigger total x : Nat) : Nat := if x < trigger then x else x + total - 512

section Counter

variable {trigger total : Nat} (hb : 1 ≤ trigger ∧ trigger ≤ 511 ∧ trigger + 1 ≤ total ∧ total ≤ 512)
include hb

/-- Each step moves a counter on by one place, the last value back to the first. -/
theorem counterPlace_nextCounter {c : Counter} (h : inCounterSet trigger total c.toNat = true) :
    counterPlace trigger total (nextCounter trigger total c).toNat =
      (counterPlace trigger total c.toNat + 1) % total := by
  rw [inCounterSet_iff] at h
  rw [nextCounter_toNat_of_wf hb]
  by_cases hlast : c.toNat = 511
  · have hplace : counterPlace trigger total c.toNat + 1 = total := by
      unfold counterPlace
      split <;> omega
    rw [hplace, Nat.mod_self, hlast, if_neg (by omega)]
    exact if_pos hb.1
  · have hplace : counterPlace trigger total c.toNat + 1 < total := by
      unfold counterPlace
      split <;> omega
    rw [Nat.mod_eq_of_lt hplace]
    unfold counterPlace
    split <;> split <;> split <;> omega

/-- Two values of a counter's set have one place only where they are one. -/
theorem counterPlace_inj {x y : Nat} (hx : inCounterSet trigger total x = true)
    (hy : inCounterSet trigger total y = true) (h : counterPlace trigger total x = counterPlace trigger total y) :
    x = y := by
  rw [inCounterSet_iff] at hx hy
  unfold counterPlace at h
  split at h <;> split at h <;> omega

theorem counterPlace_lt {x : Nat} (hx : inCounterSet trigger total x = true) :
    counterPlace trigger total x < total := by
  rw [inCounterSet_iff] at hx
  unfold counterPlace
  split <;> omega

/-- Place 0 is the value 0. -/
theorem counterPlace_eq_zero_iff {c : Counter} (h : inCounterSet trigger total c.toNat = true) :
    counterPlace trigger total c.toNat = 0 ↔ c = 0 := by
  have hzero : counterPlace trigger total 0 = 0 := if_pos hb.1
  constructor
  · intro hplace
    exact BitVec.eq_of_toNat_eq (counterPlace_inj hb h (inCounterSet_zero hb) (hplace.trans hzero.symm))
  · rintro rfl
    exact hzero

end Counter

/-- How many of the first `n` calls of ADVANCE_H from column 0 move the vertical counter: those that arrive at
`v_counter_increment_on` (R115). -/
def lineSteps (p : TimingParams) (n : Nat) : Nat :=
  n.count (· ≡ counterPlace p.hJumpTrigger p.hTotal p.vCounterIncrementOn + p.hTotal - 1 [MOD p.hTotal])

/-- The raster stands where `n` calls of ADVANCE_H from `(0, 0)` leave it. -/
structure RasterAt (p : TimingParams) (n : Nat) (cs : CounterState) : Prop where
  hSet : inCounterSet p.hJumpTrigger p.hTotal cs.hCounter.toNat = true
  vSet : inCounterSet p.vJumpTrigger p.vTotal cs.vCounter.toNat = true
  hPlace : counterPlace p.hJumpTrigger p.hTotal cs.hCounter.toNat = n % p.hTotal
  vPlace : counterPlace p.vJumpTrigger p.vTotal cs.vCounter.toNat = lineSteps p n % p.vTotal

/-- The call that arrives at a place of the line, by the number of calls before it. -/
theorem arrives_iff {a n total : Nat} (ha : a < total) : (n + 1) % total = a ↔ n ≡ a + total - 1 [MOD total] := by
  have hshift : a + total - 1 + 1 = a + total := by omega
  rw [← Nat.ModEq.add_iff_right (Nat.ModEq.refl 1) (a := n), hshift, Nat.ModEq, Nat.add_mod_right, Nat.mod_eq_of_lt ha]

/-- The column of the vertical step is taken by the horizontal counter (R24, condition 3). -/
theorem paramsWf_vCounterIncrementOn {p : TimingParams} (h : paramsWf p = true) :
    inCounterSet p.hJumpTrigger p.hTotal p.vCounterIncrementOn = true := by
  simp only [paramsWf, eventsWf, inHset, Bool.and_eq_true] at h
  tauto

theorem RasterAt.origin {p : TimingParams} (hwf : paramsWf p = true) {cs : CounterState} (hh : cs.hCounter = 0)
    (hv : cs.vCounter = 0) : RasterAt p 0 cs := by
  obtain ⟨hb, vb, -⟩ := paramsWf_bounds hwf
  have hset : inCounterSet p.hJumpTrigger p.hTotal cs.hCounter.toNat = true := by rw [hh]; exact inCounterSet_zero hb
  have vset : inCounterSet p.vJumpTrigger p.vTotal cs.vCounter.toNat = true := by rw [hv]; exact inCounterSet_zero vb
  refine ⟨hset, vset, ?_, ?_⟩
  · rw [(counterPlace_eq_zero_iff hb hset).mpr hh, Nat.zero_mod]
  · rw [(counterPlace_eq_zero_iff vb vset).mpr hv, lineSteps, Nat.count_zero, Nat.zero_mod]

/-- One more call moves the raster to the next place (R113, R115). -/
theorem RasterAt.advance {p : TimingParams} (hwf : paramsWf p = true) {n : Nat} {cs : CounterState}
    (h : RasterAt p n cs) (r : Byte) : RasterAt p (n + 1) (advanceCounters p r cs) := by
  obtain ⟨hb, vb, -⟩ := paramsWf_bounds hwf
  have hcolumn := paramsWf_vCounterIncrementOn hwf
  have hset := inCounterSet_nextCounter hb h.hSet
  have hplace : counterPlace p.hJumpTrigger p.hTotal (nextCounter p.hJumpTrigger p.hTotal cs.hCounter).toNat =
      (n + 1) % p.hTotal := by
    rw [counterPlace_nextCounter hb h.hSet, h.hPlace, Nat.mod_add_mod]
  have harrive : (nextCounter p.hJumpTrigger p.hTotal cs.hCounter).toNat = p.vCounterIncrementOn ↔
      n ≡ counterPlace p.hJumpTrigger p.hTotal p.vCounterIncrementOn + p.hTotal - 1 [MOD p.hTotal] := by
    rw [← arrives_iff (counterPlace_lt hb hcolumn), ← hplace]
    exact ⟨congrArg _, counterPlace_inj hb hset hcolumn⟩
  have hlines := Nat.count_succ (· ≡ counterPlace p.hJumpTrigger p.hTotal p.vCounterIncrementOn + p.hTotal - 1
    [MOD p.hTotal]) n
  by_cases hcol : (nextCounter p.hJumpTrigger p.hTotal cs.hCounter).toNat = p.vCounterIncrementOn
  · rw [if_pos (harrive.mp hcol)] at hlines
    refine ⟨by simpa using hset, ?_, by simpa using hplace, ?_⟩ <;> rw [advanceCounters_vCounter, if_pos hcol]
    · exact inCounterSet_nextCounter vb h.vSet
    · rw [counterPlace_nextCounter vb h.vSet, h.vPlace, Nat.mod_add_mod]
      exact congrArg (· % p.vTotal) hlines.symm
  · rw [if_neg (mt harrive.mpr hcol), Nat.add_zero] at hlines
    refine ⟨by simpa using hset, ?_, by simpa using hplace, ?_⟩ <;> rw [advanceCounters_vCounter, if_neg hcol]
    · exact h.vSet
    · exact h.vPlace.trans (congrArg (· % p.vTotal) hlines.symm)

/-- ADVANCE_H, where P is given (R112). -/
theorem exec_advanceH {s : State} {p : TimingParams} (hp : paramsOf s = some p) :
    exec .advanceH s = .next ((s.setVdp (advance p s.vdp)).setResult
      (.counter ((advance p s.vdp).cs.hCounter.setWidth 16))) :=
  withParams_some hp _

/-- The mode decides P (R22), and the counters do not. -/
theorem paramsOf_setCs (s : State) (c : CounterState) (r : Result) :
    paramsOf ((s.setVdp (s.vdp.setCs c)).setResult r) = paramsOf s := rfl

/-- `n` calls of ADVANCE_H move the raster on by `n` places. -/
theorem RasterAt.repeatOp {p : TimingParams} {m : Nat} {s : State} (hp : paramsOf s = some p)
    (h : RasterAt p m s.vdp.cs) (n : Nat) :
    ∃ t, repeatOp n .advanceH s = .next t ∧ RasterAt p (m + n) t.vdp.cs := by
  induction n generalizing m s with
  | zero => exact ⟨s, rfl, h⟩
  | succ n ih =>
    have hnext : RasterAt p (m + 1) (Machine.advance p s.vdp).cs := h.advance (timingOf_wf hp) (lineCounter s.vdp)
    obtain ⟨t, ht, hlast⟩ := ih (s := (s.setVdp (Machine.advance p s.vdp)).setResult _)
      ((paramsOf_setCs s _ _).trans hp) hnext
    refine ⟨t, ?_, by rwa [Nat.add_assoc, Nat.add_comm 1] at hlast⟩
    rw [Machine.repeatOp, exec_advanceH hp, andThen_next, ht]

/-- The raster is at `(0, 0)` where both places are 0. -/
theorem RasterAt.at_origin_iff {p : TimingParams} (hwf : paramsWf p = true) {n : Nat} {cs : CounterState}
    (h : RasterAt p n cs) :
    cs.hCounter = 0 ∧ cs.vCounter = 0 ↔ n % p.hTotal = 0 ∧ lineSteps p n % p.vTotal = 0 := by
  obtain ⟨hb, vb, -⟩ := paramsWf_bounds hwf
  rw [← counterPlace_eq_zero_iff hb h.hSet, ← counterPlace_eq_zero_iff vb h.vSet, h.hPlace, h.vPlace]

/-- Whole lines of calls move the vertical counter once a line. -/
theorem lineSteps_of_mod_eq_zero {p : TimingParams} (hpos : 0 < p.hTotal) {n : Nat} (h : n % p.hTotal = 0) :
    lineSteps p n = n / p.hTotal := by
  rw [lineSteps, Nat.count_modEq_card n hpos, h]
  rfl

/-- Settles O16: with `n` calls made the raster is at place `n` of a line of `h_total` columns, and whole lines make
`n / h_total` steps of the `v_total` lines. -/
theorem countersReturnAfterExactlyOneFrame : Obligations.CountersReturnAfterExactlyOneFrame := by
  intro s p hp hh hv
  have hwf := timingOf_wf hp
  obtain ⟨hb, vb, -⟩ := paramsWf_bounds hwf
  have hpos : 0 < p.hTotal := by omega
  have reached : ∀ n, ∃ t, repeatOp n .advanceH s = .next t ∧ RasterAt p n t.vdp.cs := fun n => by
    simpa using (RasterAt.origin hwf hh hv).repeatOp hp n
  refine ⟨?_, fun n t hn hlt ht horigin => ?_⟩
  · obtain ⟨t, ht, hlast⟩ := reached (p.hTotal * p.vTotal)
    refine ⟨t, ht, (hlast.at_origin_iff hwf).mpr ⟨Nat.mul_mod_right _ _, ?_⟩⟩
    rw [lineSteps_of_mod_eq_zero hpos (Nat.mul_mod_right _ _), Nat.mul_div_cancel_left _ hpos, Nat.mod_self]
  · obtain ⟨u, hu, hlast⟩ := reached n
    cases hu.symm.trans ht
    obtain ⟨hmod, hlines⟩ := (hlast.at_origin_iff hwf).mp horigin
    rw [lineSteps_of_mod_eq_zero hpos hmod, Nat.mod_eq_of_lt (Nat.div_lt_of_lt_mul hlt)] at hlines
    have hdiv := Nat.div_add_mod n p.hTotal
    rw [hlines, hmod] at hdiv
    omega

end Sys2Proof.Machine
end

