-- ==== Sys2Proof/Proofs/Invariant.lean ====
section
/-! PROOFS. The invariant of the machine (spec/44_tick_and_ports.md R233; spec/10_state.md R25, R35, R36): every move of
every operation keeps it, and from it a tick completes. -/

namespace Sys2Proof.Machine

open Sys2Proof

/-! ### What the invariant says -/

theorem countersValid_iff (cfg : Config) (v : Record) :
    countersValid cfg v = true ↔ ∃ p, timingOf cfg v.curMode = some p ∧
      inCounterSet p.hJumpTrigger p.hTotal v.cs.hCounter.toNat = true ∧
      inCounterSet p.vJumpTrigger p.vTotal v.cs.vCounter.toNat = true := by
  unfold countersValid inHset inVset
  cases timingOf cfg v.curMode <;> simp

theorem dmaValid_iff (v : Record) :
    dmaValid v = true ↔ v.dmaBusy = v.dma.isSome ∧ ∀ tr, v.dma = some tr → transferValid tr = true := by
  unfold dmaValid
  cases v.dma <;> simp

theorem memoriesValid_iff (cfg : Config) (v : Record) :
    memoriesValid cfg v = true ↔
      v.vram.wf vramSize = true ∧ v.cram.wf cfg.cramSize = true ∧ v.vsram.wf cfg.vsramSize = true := by
  simp [memoriesValid, and_assoc]

theorem stateInv_iff (s : State) :
    StateInv s ↔ configWf s.cfg = true ∧ countersValid s.cfg s.vdp = true ∧ fifoValid s.cfg s.vdp.fifo = true ∧
      dmaValid s.vdp = true ∧ memoriesValid s.cfg s.vdp = true := by
  simp [StateInv, recordValid, and_assoc]

/-- Under the invariant P is given (spec/10_state.md R24). -/
theorem StateInv.params {s : State} (h : StateInv s) : ∃ p, paramsOf s = some p := by
  obtain ⟨-, hcounters, -⟩ := (stateInv_iff s).mp h
  obtain ⟨p, hp, -⟩ := (countersValid_iff _ _).mp hcounters
  exact ⟨p, hp⟩

/-! ### The moves that touch it -/

/-- Counters at `(0, 0)` are in the sets of every record (R111, spec/10_state.md R25). -/
theorem countersValid_resetCounters {cfg : Config} {v : Record} {p : TimingParams}
    (hp : timingOf cfg v.curMode = some p) : countersValid cfg (resetCounters v) = true := by
  obtain ⟨hb, vb, -⟩ := paramsWf_bounds (timingOf_wf hp)
  exact (countersValid_iff _ _).mpr ⟨p, hp, inCounterSet_zero hb, inCounterSet_zero vb⟩

theorem countersValid_advance {cfg : Config} {v : Record} {p : TimingParams} {c : CounterState}
    (hp : timingOf cfg v.curMode = some p) (hc : c = advanceCounters p (lineCounter v) v.cs)
    (h : countersValid cfg v = true) : countersValid cfg (v.setCs c) = true := by
  obtain ⟨hb, vb, -⟩ := paramsWf_bounds (timingOf_wf hp)
  obtain ⟨q, hq, hset, vset⟩ := (countersValid_iff _ _).mp h
  cases hp.symm.trans hq
  refine (countersValid_iff _ _).mpr ⟨p, hp, ?_, ?_⟩
  · rw [Record.setCs_cs, hc, advanceCounters_hCounter]
    exact inCounterSet_nextCounter hb hset
  · rw [Record.setCs_cs, hc, advanceCounters_vCounter]
    split
    · exact inCounterSet_nextCounter vb vset
    · exact vset

/-- The empty queue of a reset is within every threshold (spec/10_state.md R45). -/
theorem fifoValid_reset {cfg : Config} (h : configWf cfg = true) (p : TimingParams) (draw : Nat) :
    fifoValid cfg (resetRecord cfg p draw).fifo = true := by
  have hle := configWf_threshold_le h
  simp only [configWf, Bool.and_eq_true, decide_eq_true_eq] at h
  obtain ⟨⟨⟨hpos, -⟩, -⟩, -⟩ := h
  exact (fifoValid_iff _ _).mpr ⟨List.length_replicate, hpos.trans hle, Nat.zero_le _, by simp [queuedEntries, resetRecord]⟩

/-- A byte written to VRAM keeps the memories canonical (R61). -/
theorem memoriesValid_vramWrite {cfg : Config} {v : Record} (h : memoriesValid cfg v = true) (a : Word) (b : Byte) :
    memoriesValid cfg (vramWrite a b v) = true := by
  obtain ⟨hv, hc, hs⟩ := (memoriesValid_iff _ _).mp h
  exact (memoriesValid_iff _ _).mpr ⟨Memory.wf_write hv b a.isLt, hc, hs⟩

theorem memoriesValid_dmaMove {s : State} (hcfg : configWf s.cfg = true) (h : memoriesValid s.cfg s.vdp = true)
    (tr : Transfer) : memoriesValid s.cfg (dmaMove tr s).vdp = true := by
  unfold dmaMove
  split
  · exact memoriesValid_vramWrite h _ _
  · exact memoriesValid_vramWrite h _ _
  · exact writeTarget_memoriesValid hcfg h _ _ _

/-- Once its fill word has come, an armed fill is a started one (R160). -/
theorem transferValid_startFill {tr : Transfer} (h : transferValid tr = true) (ha : fillArmed (some tr) = true)
    (d : Word) : transferValid { tr with fillData := some d, fillStarted := true } = true := by
  obtain ⟨-, htarget, -⟩ := (transferValid_iff _).mp h
  simp only [fillArmed, Bool.and_eq_true, decide_eq_true_eq] at ha
  exact (transferValid_iff _).mpr ⟨fun _ => ha.1, htarget, fun _ => ha.1⟩

/-- A unit moves memory, registers and the destination of its transfer (R164). -/
theorem stateInv_dmaUnit {s : State} {tr : Transfer} (hs : StateInv s) (hd : s.vdp.dma = some tr) :
    StateInv (dmaUnit tr s) := by
  obtain ⟨hcfg, hcounters, hfifo, hdma, hmem⟩ := (stateInv_iff s).mp hs
  obtain ⟨hbusy, htr⟩ := (dmaValid_iff _).mp hdma
  have frame := dmaUnit_frame tr s
  obtain ⟨-, -, hdma', hbusy'⟩ := dmaUnit_spec tr s
  refine (stateInv_iff _).mpr ⟨by rwa [frame.cfg], ?_, by rwa [frame.cfg, frame.fifo], ?_, ?_⟩
  · rw [countersValid_iff] at hcounters ⊢
    rwa [frame.cfg, frame.curMode, frame.cs]
  · rw [dmaValid_iff, hdma', hbusy', hbusy, hd]
    refine ⟨rfl, fun u hu => ?_⟩
    cases hu
    exact htr tr hd
  · rw [frame.cfg]
    exact memoriesValid_dmaMove hcfg hmem tr

/-- Every move keeps the invariant. -/
theorem Move.keeps_stateInv {i : Instr} {s t : State} (h : Move i s t) (hs : StateInv s) : StateInv t := by
  obtain ⟨hcfg, hcounters, hfifo, hdma, hmem⟩ := (stateInv_iff s).mp hs
  cases h with
  | answer | addLog | primary | coprocessor | ack | newFrame | setReg => exact hs
  | setMode _ hp => exact (stateInv_iff _).mpr ⟨hcfg, countersValid_resetCounters hp, hfifo, hdma, hmem⟩
  | resetCounters =>
    obtain ⟨p, hp⟩ := hs.params
    exact (stateInv_iff _).mpr ⟨hcfg, countersValid_resetCounters hp, hfifo, hdma, hmem⟩
  | advance _ hp hc => exact (stateInv_iff _).mpr ⟨hcfg, countersValid_advance hp hc hcounters, hfifo, hdma, hmem⟩
  | push he hf =>
    have hroom : s.vdp.fifo.count < s.cfg.fifoThreshold := by simpa [fifoFull] using hf
    exact (stateInv_iff _).mpr ⟨hcfg, hcounters, fifoValid_fifoAppend hcfg hfifo he hroom, hdma, hmem⟩
  | pop hc => exact (stateInv_iff _).mpr ⟨hcfg, hcounters, fifoValid_fifoDrop hfifo hc, hdma, hmem⟩
  | store _ hw =>
    refine (stateInv_iff _).mpr ⟨hcfg, hcounters, hfifo, hdma, ?_⟩
    rw [State.setVdp_vdp, ← hw]
    exact writeTarget_memoriesValid hcfg hmem _ _ _
  | startTransfer _ mode m cmd =>
    refine (stateInv_iff _).mpr ⟨hcfg, hcounters, hfifo, (dmaValid_iff _).mpr ⟨rfl, fun tr htr => ?_⟩, hmem⟩
    cases htr
    exact newTransfer_valid mode m cmd
  | clearTransfer => exact (stateInv_iff _).mpr ⟨hcfg, hcounters, hfifo, rfl, hmem⟩
  | startFill _ hd ha d =>
    obtain ⟨hbusy, htr⟩ := (dmaValid_iff _).mp hdma
    rw [hd] at hbusy
    refine (stateInv_iff _).mpr ⟨hcfg, hcounters, hfifo, (dmaValid_iff _).mpr ⟨hbusy, fun u hu => ?_⟩,
      memoriesValid_vramWrite hmem _ _⟩
    cases hu
    exact transferValid_startFill (htr _ hd) ha d
  | unit _ hd => exact stateInv_dmaUnit hs hd
  | complete => exact (stateInv_iff _).mpr ⟨hcfg, hcounters, hfifo, rfl, hmem⟩
  | restore _ hv =>
    simp only [restoreValid, Bool.and_eq_true] at hv
    exact ⟨hcfg, hv.1⟩
  | reset _ hp =>
    obtain ⟨hb, vb, -⟩ := paramsWf_bounds (timingOf_wf hp)
    exact (stateInv_iff _).mpr ⟨hcfg,
      (countersValid_iff _ _).mpr ⟨_, hp, inCounterSet_zero hb, inCounterSet_zero vb⟩,
      fifoValid_reset hcfg _ _, rfl, (memoriesValid_iff _ _).mpr ⟨rfl, rfl, rfl⟩⟩

/-- Every operation keeps the invariant. -/
theorem exec_keeps_stateInv {i : Instr} {s t : State} (h : exec i s = .next t) (hs : StateInv s) : StateInv t :=
  exec_keeps StateInv (fun _ _ hmove => hmove.keeps_stateInv) h hs

/-- A step that answers a next state waited, or ran one operation on the state with a shorter inbox (log 1). -/
theorem step_eq_next {s t : State} (h : step s = .next t) : t = s ∨ ∃ i rest, exec i (s.setInbox rest) = .next t := by
  unfold step at h
  split at h
  · cases h
    exact .inl rfl
  · cases h
  · exact .inr ⟨_, _, h⟩

/-- Settles O55: a step is an operation, and every move of an operation keeps the invariant. -/
theorem everyStepKeepsTheInvariant : Obligations.EveryStepKeepsTheInvariant := by
  intro s t hs h
  obtain rfl | ⟨i, rest, h⟩ := step_eq_next h
  · exact hs
  · exact exec_keeps_stateInv h hs

/-- Settles O54: by evaluation of the reset state. -/
theorem resetStateMeetsTheInvariant : Obligations.ResetStateMeetsTheInvariant := by
  unfold Obligations.ResetStateMeetsTheInvariant StateInv CountdownInRange
  decide

/-! ### The tick -/

/-- A drain completes where the FIFO's invariants hold: the head entry has a write code (R145; log 11). -/
theorem fifoDrainOne_completes {s : State} (hf : fifoValid s.cfg s.vdp.fifo = true) :
    ∃ t, fifoDrainOne s = .next t := by
  by_cases hgate : s.vdp.dma ≠ none ∨ s.vdp.fifo.count = 0
  · exact ⟨_, exec_fifoDrainOne_of_gated hgate⟩
  · obtain ⟨hd, hc⟩ := not_or.mp hgate
    obtain ⟨g, hg⟩ := Option.isSome_iff_exists.mp (head_isWriteCode hf hc)
    exact ⟨_, exec_fifoDrainOne_of_target (not_not.mp hd) hc hg⟩

/-- The configuration, the mode and the FIFO are not touched before the drain of a tick (R220). -/
theorem tick_before_drain (a0 s0 a1 s1 e : Bool) (s : State) (p : TimingParams) :
    (tickPolls a0 s0 a1 s1 e s).cfg = s.cfg ∧ (tickPolls a0 s0 a1 s1 e s).vdp.curMode = s.vdp.curMode ∧
      (tickAdvance p (tickPolls a0 s0 a1 s1 e s).vdp).fifo = s.vdp.fifo := by
  obtain ⟨c, d, f, calls, hpolls, -⟩ := tickPolls_frame a0 s0 a1 s1 e s
  obtain ⟨f', l, hadvance⟩ := tickAdvance_frame p (tickPolls a0 s0 a1 s1 e s).vdp
  rw [hadvance, hpolls]
  exact ⟨rfl, rfl, rfl⟩

/-- Where a tick answers a next state, both ways (R220). -/
theorem tickOnce_eq_next_iff {a0 s0 a1 s1 e : Bool} {s t : State} :
    tickOnce a0 s0 a1 s1 e s = .next t ↔ ∃ p u, paramsOf s = some p ∧
      fifoDrainOne ((tickPolls a0 s0 a1 s1 e s).setVdp (tickAdvance p (tickPolls a0 s0 a1 s1 e s).vdp)) = .next u ∧
      t = (tickDma p u).setResult .noResult := by
  refine ⟨tickOnce_eq_next, ?_⟩
  rintro ⟨p, u, hp, hdrain, rfl⟩
  simp only [tickOnce, withParams_some hp, hdrain, andThen_next]

/-- From a state of the invariant a tick completes (R220, R247). -/
theorem tickOnce_completes {s : State} (hs : StateInv s) (a0 s0 a1 s1 e : Bool) :
    ∃ t, tickOnce a0 s0 a1 s1 e s = .next t := by
  obtain ⟨p, hp⟩ := hs.params
  obtain ⟨-, -, hfifo, -⟩ := (stateInv_iff s).mp hs
  obtain ⟨hcfg, -, hqueue⟩ := tick_before_drain a0 s0 a1 s1 e s p
  obtain ⟨u, hu⟩ := fifoDrainOne_completes
    (s := (tickPolls a0 s0 a1 s1 e s).setVdp (tickAdvance p (tickPolls a0 s0 a1 s1 e s).vdp))
    (by rw [State.setVdp_cfg, State.setVdp_vdp, hcfg, hqueue]; exact hfifo)
  exact ⟨_, tickOnce_eq_next_iff.mpr ⟨p, u, hp, hu, rfl⟩⟩

/-- TICKS is TICK repeated (spec/30_encoding.md R98). -/
theorem tickTimes_eq_repeatOp (n : Nat) (a0 s0 a1 s1 e : Bool) (s : State) :
    tickTimes n a0 s0 a1 s1 e s = repeatOp n (.tick a0 s0 a1 s1 e) s := by
  induction n generalizing s with
  | zero => rfl
  | succ n ih => exact congrArg (andThen (tickOnce a0 s0 a1 s1 e s)) (funext ih)

theorem tickTimes_completes {s : State} (hs : StateInv s) (n : Nat) (a0 s0 a1 s1 e : Bool) :
    ∃ t, tickTimes n a0 s0 a1 s1 e s = .next t := by
  induction n generalizing s with
  | zero => exact ⟨s, rfl⟩
  | succ n ih =>
    obtain ⟨u, hu⟩ := tickOnce_completes hs a0 s0 a1 s1 e
    obtain ⟨t, ht⟩ := ih (exec_keeps_stateInv (i := .tick a0 s0 a1 s1 e) hu hs)
    exact ⟨t, by rw [tickTimes, hu, andThen_next, ht]⟩

/-- Settles O43: a tick completes from the invariant and keeps it, so ticks do. -/
theorem ticksNeverStopUnderTheInvariant : Obligations.TicksNeverStopUnderTheInvariant := by
  intro n a0 s0 a1 s1 e s
  refine ⟨tickTimes_eq_repeatOp n a0 s0 a1 s1 e s, fun hs => ?_⟩
  obtain ⟨t, ht⟩ := tickTimes_completes hs n a0 s0 a1 s1 e
  exact ⟨t, ht, exec_keeps_stateInv (i := .ticks n a0 s0 a1 s1 e) ht hs⟩

/-! ### The sub-steps of a tick -/

/-- No operation of a tick reads the result of the one before (log 6). -/
theorem pollCoprocessor_setResult (acc stp en : Bool) (s : State) (r : Result) :
    pollCoprocessor acc stp en (s.setResult r) = (pollCoprocessor acc stp en s).setResult r := by
  rw [pollCoprocessor_eq_applyCoprocessor, pollCoprocessor_eq_applyCoprocessor]
  rfl

theorem exec_fifoDrainOne_setResult (s : State) (v : Record) (r q : Result) :
    exec .fifoDrainOne (((s.setResult r).setVdp v).setResult q) = fifoDrainOne (s.setVdp v) := rfl

theorem exec_pollCoprocessor_after_pollPrimary (a0 s0 a1 s1 e : Bool) (s : State) :
    exec (.pollCoprocessor a1 s1 e) ((pollPrimary a0 s0 s).setResult .noResult) =
      .next ((tickPolls a0 s0 a1 s1 e s).setResult .noResult) := by
  rw [exec, execPollCoprocessor, pollCoprocessor_setResult, State.setResult_setResult, tickPolls]

theorem tickAdvance_of_line_zero {p : TimingParams} {v : Record}
    (h : (advance p v).cs.vCounter = 0 ∧ v.cs.vCounter ≠ 0) : tickAdvance p v = newFrame p (advance p v) := if_pos h

theorem tickAdvance_of_not_line_zero {p : TimingParams} {v : Record}
    (h : ¬((advance p v).cs.vCounter = 0 ∧ v.cs.vCounter ≠ 0)) : tickAdvance p v = advance p v := if_neg h

/-- NEW_FRAME, where P is given (R197). -/
theorem exec_newFrame {s : State} {p : TimingParams} (hp : paramsOf s = some p) :
    exec .newFrame s = .next ((s.setVdp (newFrame p s.vdp)).setResult .noResult) :=
  withParams_some hp _

/-- ADVANCE_H, and then NEW_FRAME where `v` became 0, is the advance of the tick, but for the result (R220, decision
D15). -/
theorem advanceH_newFrame_iff {s : State} {p : TimingParams} (hp : paramsOf s = some p) :
    ∃ u q, exec .advanceH s = .next u ∧ ∀ t,
      (if u.vdp.cs.vCounter = 0 ∧ s.vdp.cs.vCounter ≠ 0 then exec .newFrame u = .next t else t = u) ↔
        t = (s.setVdp (tickAdvance p s.vdp)).setResult q := by
  have hp' : ∀ r, paramsOf ((s.setVdp (advance p s.vdp)).setResult r) = some p := fun r =>
    (paramsOf_setCs s _ r).trans hp
  by_cases hzero : (advance p s.vdp).cs.vCounter = 0 ∧ s.vdp.cs.vCounter ≠ 0
  · refine ⟨_, .noResult, exec_advanceH hp, fun t => ?_⟩
    rw [State.setResult_vdp, State.setVdp_vdp, if_pos hzero, tickAdvance_of_line_zero hzero, exec_newFrame (hp' _),
      Host.Outcome.next.injEq]
    exact eq_comm
  · refine ⟨_, .counter ((advance p s.vdp).cs.hCounter.setWidth 16), exec_advanceH hp, fun t => ?_⟩
    rw [State.setResult_vdp, State.setVdp_vdp, if_neg hzero, tickAdvance_of_not_line_zero hzero]

/-- DO_DMA on the line-boundary tick where a transfer exists, and nothing elsewhere, is the DMA slot (R220, R221). -/
theorem doDma_at_line_boundary_iff (p : TimingParams) (s t : State) :
    (if s.vdp.cs.hCounter.toNat = p.vCounterIncrementOn ∧ s.vdp.dma ≠ none then
        exec (.doDma s.vdp.curMode (s.vdp.cs.vBlankSet || !(s.vdp.reg 1).getLsbD 6)) s = .next t
      else t = s) ↔ t = tickDma p s := by
  unfold tickDma
  simp only [Option.isSome_iff_ne_none]
  split
  · rw [exec, execDoDma, Host.Outcome.next.injEq]
    exact eq_comm
  · exact Iff.rfl

/-- Settles O42: the operations of a tick differ from their calls in the result only, which none of them reads. -/
theorem tickIsItsSubStepsInOrder : Obligations.TickIsItsSubStepsInOrder := by
  intro a0 s0 a1 s1 e s
  refine ⟨fun hs => tickOnce_completes hs a0 s0 a1 s1 e, fun t => ?_⟩
  have hcop := exec_pollCoprocessor_after_pollPrimary a0 s0 a1 s1 e s
  have polled : ∀ {p}, paramsOf s = some p → paramsOf ((tickPolls a0 s0 a1 s1 e s).setResult .noResult) = some p := by
    intro p hp
    obtain ⟨hcfg, hmode, -⟩ := tick_before_drain a0 s0 a1 s1 e s p
    rwa [paramsOf, State.setResult_cfg, State.setResult_vdp, hcfg, hmode]
  constructor
  · intro ht
    obtain ⟨p, u, hp, hdrain, rfl⟩ := tickOnce_eq_next ht
    obtain ⟨u3, q, hadvance, hframe⟩ := advanceH_newFrame_iff (polled hp)
    exact ⟨p, _, _, u3, _, u, tickDma p u, hp, rfl, hcop, hadvance, (hframe _).mpr rfl,
      (exec_fifoDrainOne_setResult _ _ _ _).trans hdrain,
      (doDma_at_line_boundary_iff p u _).mpr rfl, rfl⟩
  · rintro ⟨p, u1, u2, u3, u4, u5, u6, hp, h1, h2, h3, h4, hdrain, hdma, rfl⟩
    cases h1
    cases hcop.symm.trans h2
    obtain ⟨u3', q, hadvance, hframe⟩ := advanceH_newFrame_iff (polled hp)
    cases hadvance.symm.trans h3
    obtain rfl := (hframe _).mp h4
    obtain rfl := (doDma_at_line_boundary_iff p u5 _).mp hdma
    exact tickOnce_eq_next_iff.mpr ⟨p, u5, hp, (exec_fifoDrainOne_setResult _ _ _ _).symm.trans hdrain, rfl⟩

/-! ### The countdown below its range -/

/-- A countdown of -1, which RESTORE accepts, one column before the HINT step of line 1 (log 13), with ADVANCE_H
called. -/
def countdownAtMinusOne : State :=
  { State.reset with
    vdp := { State.reset.vdp with
      cs := { State.reset.vdp.cs with hCounter := 0x10B, vCounter := 1, hLinePassed := -1 } }
    inbox := [.call .advanceH] }

/-- Refutes O57: on a line up to `v_blank_set` the HINT step lowers a countdown of -1 to -2, which fires nothing. -/
theorem not_everyStepKeepsTheCountdownAboveMinusTwo : ¬ Obligations.EveryStepKeepsTheCountdownAboveMinusTwo := by
  intro h
  have hinv : StateInv countdownAtMinusOne := by
    unfold StateInv
    decide
  exact absurd (h countdownAtMinusOne _ hinv (by decide) (by decide) rfl) (by decide)

end Sys2Proof.Machine
end

