-- ==== Sys2Proof/Proofs/Frames.lean ====
section
/-! PROOFS. What no operation, or only a named few, can change: each statement is proved move by move, the ticks apart
where a statement names a single tick. -/

namespace Sys2Proof.Machine

open Sys2Proof

/-! ### The classes of operations -/

theorem mayWriteVideoMemory_of_mayRunUnits {i : Instr} (h : mayRunUnits i = true) : mayWriteVideoMemory i = true := by
  revert h
  cases i <;> simp [mayRunUnits, mayWriteVideoMemory]

theorem mayMoveCounters_of_advancesRaster {i : Instr} (h : advancesRaster i = true) : mayMoveCounters i = true := by
  revert h
  cases i <;> simp [advancesRaster, mayMoveCounters]

/-! ### DMA -/

/-- A unit leaves its transfer there: only the completion test ends it (R163, R164). -/
theorem dmaUnit_dma_ne_none (tr : Transfer) (s : State) : (dmaUnit tr s).vdp.dma ≠ none := by
  obtain ⟨-, -, hdma, -⟩ := dmaUnit_spec tr s
  rw [hdma]
  exact Option.some_ne_none _

/-- Once a transfer exists it exists, or units of this operation have brought the length to 0 (R163). -/
theorem exec_transfer_or_length_zero {i : Instr} {s t : State} (h : exec i s = .next t)
    (hrep : replacesRecord i = false) (hd : s.vdp.dma ≠ none) :
    t.vdp.dma ≠ none ∨ (mayRunUnits i = true ∧ dmaLength t.vdp = 0#16) := by
  refine exec_keeps (fun u => u.vdp.dma ≠ none ∨ (mayRunUnits i = true ∧ dmaLength u.vdp = 0#16)) ?_ h (.inl hd)
  intro u w hmove hu
  cases hmove with
  | startTransfer | startFill => exact .inl (by simp)
  | unit => exact .inl (dmaUnit_dma_ne_none _ u)
  | complete hi hl => exact .inr ⟨hi, hl⟩
  | clearTransfer hnone => exact .inr (hu.resolve_left (not_not.mpr hnone))
  | setReg hi =>
    obtain hu | ⟨hunits, -⟩ := hu
    · exact .inl hu
    · rw [hi] at hunits
      cases hunits
  | restore hi | reset hi => rw [hi] at hrep; cases hrep
  | _ => exact hu

/-- Settles O33: the only way out of a transfer is the completion of its last unit. -/
theorem transfersEndOnlyWithTheirLength : Obligations.TransfersEndOnlyWithTheirLength := by
  intro i s t h hrep hd hnone
  exact (exec_transfer_or_length_zero h hrep hd).resolve_left (not_not.mpr hnone)

/-- Settles O58: a write changes its own register, a unit the four of the length and the source. -/
theorem registersChangeOnlyByWriteOrUnits : Obligations.RegistersChangeOnlyByWriteOrUnits := by
  intro i s t k h hrep
  refine exec_keeps (fun u => u.vdp.reg k = s.vdp.reg k ∨ (mayRunUnits i = true ∧ k ∈ [19, 20, 21, 22]) ∨
    ∃ x b, i = .regWrite x b ∧ x.toNat = k.val ∧ u.vdp.reg k = b) ?_ h (.inl rfl)
  intro u w hmove hu
  cases hmove with
  | setReg hi hx =>
    rw [State.setVdp_vdp, Record.reg_setReg]
    split
    · rename_i heq
      exact .inr (.inr ⟨_, _, hi, heq ▸ hx, rfl⟩)
    · exact hu
  | unit hi =>
    by_cases hk : k ∈ [19, 20, 21, 22]
    · exact .inr (.inl ⟨hi, hk⟩)
    · rw [(dmaUnit_frame _ u).regs k (by simpa [outsideDmaRegs, and_assoc] using hk)]
      exact hu
  | restore hi | reset hi => rw [hi] at hrep; cases hrep
  | _ => exact hu

/-- Settles O59: of the moves only a drained word, a fill start, a unit and a replacement touch the memories. -/
theorem videoMemoryChangesOnlyByDrainFillOrUnits : Obligations.VideoMemoryChangesOnlyByDrainFillOrUnits := by
  intro i s t a h hwrite
  have kept := exec_keeps_eq (fun u => (u.vdp.vram, u.vdp.cram, u.vdp.vsram)) (fun u w hmove => ?_) h
  · simp only [Prod.mk.injEq] at kept
    obtain ⟨hvram, hcram, hvsram⟩ := kept
    rw [hvram, hcram, hvsram]
    exact ⟨rfl, rfl, rfl⟩
  cases hmove with
  | store hi | startFill hi => exact absurd hi (by simp [hwrite])
  | unit hi => exact absurd (mayWriteVideoMemory_of_mayRunUnits hi) (by simp [hwrite])
  | restore hi | reset hi => rw [hi] at hwrite; cases hwrite
  | _ => rfl

/-! ### The configuration, the log and the raster -/

theorem exec_cfg {i : Instr} {s t : State} (h : exec i s = .next t) : t.cfg = s.cfg := by
  refine exec_keeps_eq State.cfg (fun u w hmove => ?_) h
  cases hmove with
  | unit => exact (dmaUnit_frame _ u).cfg
  | _ => rfl

theorem exec_inbox {i : Instr} {s t : State} (h : exec i s = .next t) : t.inbox = s.inbox := by
  refine exec_keeps_eq State.inbox (fun u w hmove => ?_) h
  cases hmove with
  | unit => exact (dmaUnit_frame _ u).inbox
  | _ => rfl

theorem exec_cpuCalls {i : Instr} {s t : State} (h : exec i s = .next t) : ∃ l, t.cpuCalls = s.cpuCalls ++ l := by
  refine exec_keeps (fun u => ∃ l, u.cpuCalls = s.cpuCalls ++ l) (fun u w hmove hu => ?_) h ⟨[], by simp⟩
  obtain ⟨l, hl⟩ := hu
  cases hmove with
  | primary _ calls | coprocessor calls => exact ⟨l ++ calls, by rw [hl, List.append_assoc]⟩
  | unit => exact ⟨l, (dmaUnit_frame _ u).cpuCalls.trans hl⟩
  | _ => exact ⟨l, hl⟩

theorem exec_log {i : Instr} {s t : State} (h : exec i s = .next t) (hrep : replacesRecord i = false) :
    ∃ l, t.vdp.log = s.vdp.log ++ l := by
  refine exec_keeps (fun u => ∃ l, u.vdp.log = s.vdp.log ++ l) (fun u w hmove hu => ?_) h ⟨[], by simp⟩
  obtain ⟨l, hl⟩ := hu
  cases hmove with
  | addLog k => exact ⟨l ++ [k], by rw [State.setVdp_vdp, Record.addLog_log, hl, List.append_assoc]⟩
  | ack _ _ k => exact ⟨l ++ k, by rw [State.setVdp_vdp, hl, List.append_assoc]⟩
  | unit => exact ⟨l, (dmaUnit_frame _ u).log.trans hl⟩
  | restore hi | reset hi => rw [hi] at hrep; cases hrep
  | _ => exact ⟨l, hl⟩

/-- What stays where the raster does not move: the counters, the blank flags, the countdown and the mode. -/
def rasterOf (v : Record) : Counter × Counter × Bool × Bool × BitVec 32 × VideoMode :=
  (v.cs.hCounter, v.cs.vCounter, v.cs.hBlankSet, v.cs.vBlankSet, v.cs.hLinePassed, v.curMode)

theorem exec_rasterOf {i : Instr} {s t : State} (h : exec i s = .next t) (hi : mayMoveCounters i = false) :
    rasterOf t.vdp = rasterOf s.vdp := by
  refine exec_keeps_eq (fun u => rasterOf u.vdp) (fun u w hmove => ?_) h
  cases hmove with
  | setMode h | resetCounters h => exact absurd h (by simp [hi])
  | advance h => exact absurd (mayMoveCounters_of_advancesRaster h) (by simp [hi])
  | unit => simp only [rasterOf, (dmaUnit_frame _ u).cs, (dmaUnit_frame _ u).curMode]
  | restore h | reset h => rw [h] at hi; cases hi
  | _ => rfl

/-- Settles O60: each part by the moves that touch it. -/
theorem configurationAndRasterAreKept : Obligations.ConfigurationAndRasterAreKept := by
  intro i s t h
  refine ⟨exec_cfg h, exec_inbox h, exec_cpuCalls h, exec_log h, fun hi => ?_⟩
  simpa [rasterOf] using exec_rasterOf h hi

/-! ### The countdown -/

theorem countdownInRange_iff (s : State) : CountdownInRange s ↔ s.vdp.cs.hLinePassed.toNat ≤ 255 := by
  have hlt := s.vdp.cs.hLinePassed.isLt
  rw [CountdownInRange, BitVec.toInt_eq_toNat_cond]
  split <;> omega

/-- The reload value is a byte (R117). -/
theorem reload_toNat_le (r : Byte) : (r.setWidth 32).toNat ≤ 255 := by
  have hlt := r.isLt
  rw [BitVec.toNat_setWidth]
  omega

/-- The HINT step keeps the countdown in range: it is reloaded where it would fall below 0 (R116, R117). -/
theorem stepHint_hLinePassed_le {p : TimingParams} {r : Byte} {c : CounterState} (h : c.hLinePassed.toNat ≤ 255) :
    (stepHint p r c).hLinePassed.toNat ≤ 255 := by
  obtain ⟨hoff, hon⟩ := stepHint_cases p r c
  by_cases hcol : c.hCounter.toNat = p.vCounterIncrementOn + 2
  · obtain ⟨hfires, hrest⟩ := hon hcol
    by_cases hfire : 0 < c.vCounter.toNat ∧ countdown p c = -1
    · rw [(hfires hfire).2]
      exact reload_toNat_le r
    · rw [(hrest hfire).2]
      split
      · exact reload_toNat_le r
      · rename_i hline
        obtain ⟨hv, hpast⟩ := not_or.mp hline
        have hpos : 0 < c.vCounter.toNat := Nat.pos_of_ne_zero fun h0 => hv (BitVec.eq_of_toNat_eq h0)
        have hfell : countdown p c = c.hLinePassed - 1#32 := if_pos (Nat.not_lt.mp hpast)
        have hne : c.hLinePassed - 1#32 ≠ -1#32 := fun he => hfire ⟨hpos, hfell.trans he⟩
        rw [hfell]
        bv_omega
  · rw [(hoff hcol).1]
    exact h

theorem advanceCounters_hLinePassed_le {p : TimingParams} {r : Byte} {cs : CounterState}
    (h : cs.hLinePassed.toNat ≤ 255) : (advanceCounters p r cs).hLinePassed.toNat ≤ 255 := by
  rw [advanceCounters, stepVint_hLinePassed]
  exact stepHint_hLinePassed_le (by rwa [stepV_hLinePassed])

/-- Settles O56: the counters' reset reloads the countdown, and the HINT step keeps its range. -/
theorem countdownStaysInRangeWithoutRestore : Obligations.CountdownStaysInRangeWithoutRestore := by
  intro i s t hs h hrestore
  refine exec_keeps CountdownInRange (fun u w hmove hu => ?_) h hs
  cases hmove with
  | setMode | resetCounters | reset => exact (countdownInRange_iff _).mpr (reload_toNat_le _)
  | advance _ _ hc =>
    rw [countdownInRange_iff, State.setVdp_vdp, Record.setCs_cs, hc]
    exact advanceCounters_hLinePassed_le ((countdownInRange_iff _).mp hu)
  | unit =>
    rw [countdownInRange_iff] at hu ⊢
    rwa [(dmaUnit_frame _ u).cs]
  | restore hi => exact absurd hi (hrestore _)
  | _ => exact hu

/-! ### The interrupt flags -/

theorem tickDma_frame (p : TimingParams) (s : State) : DmaFrame s (tickDma p s) := by
  unfold tickDma
  split
  · exact doDma_frame _ _ s
  · exact .refl s

/-- What one tick does to the raster and to the coprocessor channel (R220). -/
theorem tickOnce_frame {a0 s0 a1 s1 e : Bool} {s t : State} (h : tickOnce a0 s0 a1 s1 e s = .next t) :
    ∃ p, paramsOf s = some p ∧ paramsOf t = some p ∧
      t.vdp.cs = advanceCounters p (lineCounter s.vdp) s.vdp.cs ∧
      (s.vdp.frameExpired = true → t.vdp.cop = .pending → s.vdp.cop = .pending) := by
  obtain ⟨p, u, hp, hdrain, rfl⟩ := tickOnce_eq_next h
  obtain ⟨c, d, f, calls, hpolls, hlatch⟩ := tickPolls_frame a0 s0 a1 s1 e s
  obtain ⟨f', l, hadvance⟩ := tickAdvance_frame p (tickPolls a0 s0 a1 s1 e s).vdp
  obtain ⟨q, x, y, z, r, hu⟩ := fifoDrainOne_frame hdrain
  rw [hadvance, hpolls] at hu
  have frame := tickDma_frame p u
  rw [hu] at frame
  refine ⟨p, hp, ?_, ?_, fun hs hc => (hlatch hs).2 ?_⟩
  · rw [paramsOf, State.setResult_cfg, State.setResult_vdp, hu, frame.cfg, frame.curMode]
    exact hp
  · rw [State.setResult_vdp, hu]
    exact frame.cs
  · rw [State.setResult_vdp, hu] at hc
    exact frame.cop.symm.trans hc

/-- Off ADVANCE_H no move sets the VINT flag (R118, spec/60_exceptions.md R257). -/
theorem exec_vIntPending {i : Instr} {s t : State} (h : exec i s = .next t) (hi : advancesRaster i = false)
    (hrep : replacesRecord i = false) (ht : t.vdp.cs.vIntPending = true) : s.vdp.cs.vIntPending = true := by
  refine exec_keeps (fun u => u.vdp.cs.vIntPending = true → s.vdp.cs.vIntPending = true) (fun u w hmove hu => ?_) h id ht
  cases hmove with
  | setMode | resetCounters => exact fun hw => nomatch hw
  | advance h => exact absurd h (by simp [hi])
  | ack _ _ _ hvp => exact fun hw => hu (hvp hw)
  | unit => rwa [(dmaUnit_frame _ u).cs]
  | restore hi | reset hi => rw [hi] at hrep; cases hrep
  | _ => exact hu

/-- Where the five steps raise VINT, the new `(h, v)` is `(2, v_blank_set)` (R118). -/
theorem advanceCounters_raises_vint {p : TimingParams} {r : Byte} {cs : CounterState} (hs : cs.vIntPending = false)
    (ht : (advanceCounters p r cs).vIntPending = true) :
    (advanceCounters p r cs).hCounter = 2 ∧ (advanceCounters p r cs).vCounter.toNat = p.vBlankSet := by
  rw [advanceCounters_vIntPending, hs, Bool.false_or] at ht
  exact of_decide_eq_true ht

/-- Settles O15: ADVANCE_H and the tick by step 5, every other operation by its moves. -/
theorem vintRisesOnlyAtTheVblankLine : Obligations.VintRisesOnlyAtTheVblankLine := by
  intro i s t h hrep hticks hs ht
  cases hi : advancesRaster i with
  | false => exact absurd (exec_vIntPending h hi hrep ht) (by simp [hs])
  | true =>
    have hadvance : ∃ p r, paramsOf t = some p ∧ t.vdp.cs = advanceCounters p r s.vdp.cs := by
      cases i with
      | advanceH =>
        obtain ⟨p, hp, hnext⟩ := (withParams_eq_next _ _ _).mp h
        cases hnext
        exact ⟨p, _, hp, rfl⟩
      | tick =>
        obtain ⟨p, -, hp, hcs, -⟩ := tickOnce_frame h
        exact ⟨p, _, hp, hcs⟩
      | ticks => exact absurd rfl (hticks _ _ _ _ _ _)
      | _ => cases hi
    obtain ⟨p, r, hp, hcs⟩ := hadvance
    rw [hcs] at ht ⊢
    obtain ⟨hh, hv⟩ := advanceCounters_raises_vint hs ht
    exact ⟨hh, p, hp, hv⟩

/-- Off NEW_FRAME a set latch stays set, and the channel does not become PENDING (R198, R199). -/
theorem exec_keeps_latch {i : Instr} {s t : State} (h : exec i s = .next t) (hi : startsFrames i = false)
    (hrep : replacesRecord i = false) (hs : s.vdp.frameExpired = true) :
    t.vdp.frameExpired = true ∧ (t.vdp.cop = .pending → s.vdp.cop = .pending) := by
  refine exec_keeps (fun u => u.vdp.frameExpired = true ∧ (u.vdp.cop = .pending → s.vdp.cop = .pending))
    (fun u w hmove hu => ?_) h ⟨hs, id⟩
  cases hmove with
  | coprocessor _ hlatch =>
    obtain ⟨hf, hc⟩ := hlatch hu.1
    exact ⟨hf, fun hw => hu.2 (hc hw)⟩
  | newFrame h => exact absurd h (by simp [hi])
  | unit => rwa [(dmaUnit_frame _ u).frameExpired, (dmaUnit_frame _ u).cop]
  | restore hi | reset hi => rw [hi] at hrep; cases hrep
  | _ => exact hu

/-- Settles O39: NEW_FRAME leaves the channel, the tick polls before it starts a frame, no other operation starts one. -/
theorem coprocessorFiresAtMostOnceAFrame : Obligations.CoprocessorFiresAtMostOnceAFrame := by
  intro i s t h hrep hticks hs
  cases hi : startsFrames i with
  | false =>
    obtain ⟨hf, hc⟩ := exec_keeps_latch h hi hrep hs
    exact ⟨hc, fun _ _ => hf⟩
  | true =>
    cases i with
    | newFrame =>
      obtain ⟨p, -, hnext⟩ := (withParams_eq_next _ _ _).mp h
      cases hnext
      exact ⟨id, fun hne => absurd rfl hne⟩
    | tick =>
      obtain ⟨p, -, -, -, hc⟩ := tickOnce_frame h
      exact ⟨hc hs, fun _ hne => absurd rfl (hne _ _ _ _ _)⟩
    | ticks => exact absurd rfl (hticks _ _ _ _ _ _)
    | _ => cases hi

end Sys2Proof.Machine
end

