-- ==== Sys2Proof/Proofs/Arbiter.lean ====
section
/-! PROOFS. The interrupt arbiter (spec/43_interrupts.md R190 to R197): the moves of the two channels, row by row, the
acknowledge and the new frame. -/

namespace Sys2Proof.Machine

open Sys2Proof

/-! ### The primary channel -/

/-- Settles O34: the two pending flags under their enables, VINT first. -/
theorem primaryLevelPutsVintFirst : Obligations.PrimaryLevelPutsVintFirst := by
  intro s
  simp only [exec, execPrimaryLevel, levelNow, Bool.and_eq_true]
  rfl

section Level

variable {level : Byte} (h : level ≠ 0) (acc stp : Bool)
include h

/-- With a level an idle channel is requested, and a pending one asks a running CPU (R194). -/
theorem primaryMove_none_of_level : primaryMove acc stp level .none = (.pending, []) := if_neg h

theorem primaryMove_pending_of_level : primaryMove acc stp level .pending =
    if stp then (.pending, []) else (if acc then .asserted else .pending, [.raiseInterrupt level]) := if_neg h

end Level

/-- Without a level the channel is idle, requested or not (R194). -/
theorem primaryMove_of_no_level (acc stp : Bool) {c : Channel} (h : c = .none ∨ c = .pending) :
    primaryMove acc stp 0 c = (.none, []) := by
  obtain rfl | rfl := h <;> rfl

/-- Settles O35: the rows of the channel's move. -/
theorem primaryPollMakesOneTransition : Obligations.PrimaryPollMakesOneTransition := by
  intro acc stp s
  refine ⟨_, _, exec_pollPrimary acc stp s, fun h hl => ?_, fun h hl => ?_, fun h hl => ?_, fun h hl hp => ?_,
    fun h hl hp => ?_, fun h => ?_, fun h => ?_⟩
  · rw [hl, primaryMove_of_no_level _ _ (.inl h)]
    exact ⟨rfl, rfl⟩
  · rw [h, primaryMove_none_of_level hl]
    exact ⟨rfl, rfl⟩
  · rw [hl, primaryMove_of_no_level _ _ (.inr h)]
    exact ⟨rfl, rfl⟩
  · rw [h, primaryMove_pending_of_level hl, hp]
    exact ⟨rfl, rfl⟩
  · rw [h, primaryMove_pending_of_level hl, hp]
    exact ⟨rfl, rfl⟩
  · rw [h]
    exact ⟨rfl, rfl⟩
  · rw [h]
    exact ⟨rfl, rfl⟩

/-- A declined poll of a pending request leaves the record as it is (R193). -/
theorem exec_pollPrimary_declined {s : State} (h : s.vdp.prim = .pending) (hl : levelNow s.vdp ≠ 0) (stp : Bool) :
    ∃ t, exec (.pollPrimary false stp) s = .next t ∧ t.vdp = s.vdp := by
  refine ⟨_, exec_pollPrimary false stp s, ?_⟩
  have hmove : (primaryMove false stp (levelNow s.vdp) s.vdp.prim).1 = s.vdp.prim := by
    rw [h, primaryMove_pending_of_level hl]
    cases stp <;> rfl
  rw [State.setResult_vdp, applyPrimary, hmove]

/-- An accepted poll of a pending request asserts it (R193). -/
theorem exec_pollPrimary_accepted {s : State} (h : s.vdp.prim = .pending) (hl : levelNow s.vdp ≠ 0) :
    ∃ t, exec (.pollPrimary true false) s = .next t ∧ t.vdp = { s.vdp with prim := .asserted } := by
  refine ⟨_, exec_pollPrimary true false s, ?_⟩
  rw [State.setResult_vdp, applyPrimary, h, primaryMove_pending_of_level hl]
  rfl

/-- Settles O37: a declined poll changes nothing the next poll reads. -/
theorem maskedRequestStaysPendingUntilAccepted : Obligations.MaskedRequestStaysPendingUntilAccepted := by
  intro n stp s h hl
  induction n generalizing s with
  | zero =>
    obtain ⟨u, hu, hv⟩ := exec_pollPrimary_accepted h hl
    exact ⟨s, u, rfl, rfl, hu, hv⟩
  | succ n ih =>
    obtain ⟨w, hw, hkept⟩ := exec_pollPrimary_declined h hl stp
    obtain ⟨t, u, ht, hvt, hu, hvu⟩ := ih w (by rw [hkept, h]) (by rwa [hkept])
    exact ⟨t, u, by rw [repeatOp, hw, andThen_next, ht], hvt.trans hkept, hu, by rw [hvu, hkept]⟩

/-! ### The acknowledge -/

/-- An ASSERTED channel goes to ACKED, whatever flag was cleared (R192). -/
theorem ackChannel_eq (v : Record) :
    ackChannel v = { v with prim := if v.prim = .asserted then .acked else v.prim } := by
  unfold ackChannel
  split <;> rfl

/-- Settles O36: the level names a flag, or none. -/
theorem ackClearsTheFlagOfItsLevel : Obligations.AckClearsTheFlagOfItsLevel := by
  intro l s
  refine ⟨?_, ?_, fun h6 h4 => ?_⟩
  · rintro rfl
    exact congrArg (fun v => Host.Outcome.next ((s.setVdp v).setResult .noResult)) (ackChannel_eq _)
  · rintro rfl
    exact congrArg (fun v => Host.Outcome.next ((s.setVdp v).setResult .noResult)) (ackChannel_eq _)
  · have hack : ackPrimary l s.vdp = s.vdp.addLog .ackIgnored := (if_neg h6).trans (if_neg h4)
    rw [exec, execAckPrimary, hack]
    rfl

/-! ### The coprocessor channel -/

/-- Only a request sets the latch (R195). -/
theorem coprocessorMove_latch (acc stp en onLine latch : Bool) {c : Channel} (h : c ≠ .none) :
    (coprocessorMove acc stp en onLine latch c).2.1 = latch := by
  cases c with
  | none => exact absurd rfl h
  | pending => cases onLine <;> cases stp <;> rfl
  | asserted => cases onLine <;> rfl
  | acked => rfl

/-- Settles O38: the rows of the channel's move. -/
theorem coprocessorPollMakesOneTransition : Obligations.CoprocessorPollMakesOneTransition := by
  intro acc stp en s
  refine ⟨_, _, _, exec_pollCoprocessor acc stp en s, fun h => ⟨fun hfire => ?_, fun hidle => ?_⟩, fun h => ?_,
    fun h hl => ?_, fun h hl hp => ?_, fun h hl hp => ?_, fun h hl => ?_, fun h hl => ?_, fun h => ?_⟩
  · simp [h, hfire, onTriggerLine, coprocessorMove]
  · have hoff : ¬(onTriggerLine s.vdp && !s.vdp.frameExpired && en) = true := by
      simpa [onTriggerLine, and_assoc] using hidle
    rw [h, coprocessorMove, if_neg hoff]
    exact ⟨rfl, rfl, rfl⟩
  · exact coprocessorMove_latch _ _ _ _ _ h
  · simp [h, hl, onTriggerLine, coprocessorMove]
  · simp [h, hl, hp, onTriggerLine, coprocessorMove]
  · simp [h, hl, hp, onTriggerLine, coprocessorMove]
  · simp [h, hl, onTriggerLine, coprocessorMove]
  · simp [h, hl, onTriggerLine, coprocessorMove]
  · simp [h, coprocessorMove]

/-- Settles O40: R24 keeps `v_blank_set` below the jump trigger, so 9 bits hold it. -/
theorem newFrameClearsTheLatchAndSetsTheLine : Obligations.NewFrameClearsTheLatchAndSetsTheLine := by
  intro s p hp
  obtain ⟨-, ⟨-, hlimit, -, -⟩, -, -, -, hbelow⟩ := paramsWf_bounds (timingOf_wf hp)
  refine ⟨exec_newFrame hp, ?_⟩
  rw [BitVec.toNat_ofNat, Nat.mod_eq_of_lt (by omega)]

end Sys2Proof.Machine
end

