-- ==== Sys2Proof/Proofs/DmaControl.lean ====
section
/-! PROOFS. The DMA engine's setup and fill start (spec/42_dma.md R155 to R162), and DO_DMA without work. -/

namespace Sys2Proof.Machine

open Sys2Proof

/-! ### The setup -/

/-- The destination of a command word is its address field (spec/30_encoding.md R87, R89). -/
theorem commandDest_eq (cmd : Command) : commandDest cmd = cmd.extractLsb' 0 2 ++ cmd.extractLsb' 16 14 := by
  have and_low : ∀ x : Nat, x &&& 3 = x % 4 := fun x => Nat.and_two_pow_sub_one_eq_mod x 2
  have and_high : ∀ x : Nat, x &&& 16383 = x % 16384 := fun x => Nat.and_two_pow_sub_one_eq_mod x 14
  have hjoin : (cmd.extractLsb' 0 2 ++ cmd.extractLsb' 16 14 : Word).toNat =
      (cmd.toNat % 4) <<< 14 ||| cmd.toNat >>> 16 % 16384 := by
    refine (BitVec.toNat_append _ _).trans ?_
    simp
  apply BitVec.eq_of_toNat_eq
  rw [hjoin]
  simp only [commandDest, BitVec.toNat_setWidth, BitVec.toNat_or, BitVec.toNat_shiftLeft, BitVec.toNat_and,
    BitVec.toNat_ofNat, BitVec.toNat_ushiftRight, Nat.or_mod_two_pow, Nat.shiftLeft_eq]
  simp only [Nat.reducePow, Nat.reduceMod, and_low, and_high]
  congr 1
  · omega
  · omega

/-- The memory a new transfer writes: a fill and a copy VRAM, a transfer from memory the one its mode names (R157). -/
theorem newTransfer_eq (mode : DmaMode) (m : AccessMode) (cmd : Command) :
    newTransfer mode m cmd =
      { mode := mode
        destAddress := cmd.extractLsb' 0 2 ++ cmd.extractLsb' 16 14
        destRamType :=
          if mode = .memToVram ∧ m = 0b0011 then .cram else if mode = .memToVram ∧ m = 0b0101 then .vsram else .vram
        fillData := none
        fillStarted := false } := by
  have htarget : ∀ m : AccessMode, (writeTargetOf m).getD .vram =
      if m = 0b0011 then .cram else if m = 0b0101 then .vsram else .vram := by decide
  cases mode <;> simp [newTransfer, commandDest_eq, htarget]

section Setup

variable {m : AccessMode} {cmd : Command} {s : State}

/-- A setup while a transfer exists faults before any state is written (R155). -/
theorem dmaSetup_of_busy (hd : s.vdp.dma ≠ none) (m1 : Bool) : dmaSetup m cmd m1 s = .fault .setupWhileBusy :=
  if_pos (Option.isSome_iff_ne_none.mpr hd)

theorem dmaSetup_of_declined (hd : s.vdp.dma = none) :
    dmaSetup m cmd false s = .next ((s.setVdp (s.vdp.addLog .dmaDeclined)).setResult .absent) := by
  simp [dmaSetup, hd]

theorem dmaSetup_of_error (hd : s.vdp.dma = none) (hm : selectMode (dmaTypeCode s.vdp) m = none) :
    dmaSetup m cmd true s = .next (dmaError s) := by
  simp [dmaSetup, hd, hm]

theorem dmaSetup_of_mode (hd : s.vdp.dma = none) {mode : DmaMode}
    (hm : selectMode (dmaTypeCode s.vdp) m = some mode) : dmaSetup m cmd true s = .next (dmaStart mode m cmd s) := by
  simp [dmaSetup, hd, hm]

end Setup

/-- Settles O26: the four ends of a setup, in the order of its checks. -/
theorem dmaSetupDeclinesErrsOrStarts : Obligations.DmaSetupDeclinesErrsOrStarts := by
  intro m cmd m1 s
  refine ⟨fun hd => dmaSetup_of_busy hd m1, ?_, ?_, ?_⟩
  · rintro hd rfl
    exact dmaSetup_of_declined hd
  · rintro hd rfl hm
    exact dmaSetup_of_error hd hm
  · rintro mode hd rfl hm
    rw [← newTransfer_eq]
    exact dmaSetup_of_mode hd hm

/-- Settles O25: a row that selects answers its mode, the error row is an error behind the busy check. -/
theorem selectionRowsReturnTheirMode : Obligations.SelectionRowsReturnTheirMode := by
  refine ⟨fun s m c => ⟨?_, rfl, ?_, ?_, ?_⟩, fun code m s hm => ⟨fun hd => ?_, fun hd => ?_⟩⟩
  · rfl
  · cases c <;> rfl
  · cases c <;> rfl
  · cases c <;> rfl
  · simp only [exec, execDmaConfigError, hm, hd, Option.isSome_none, Bool.false_eq_true, if_false]
    rfl
  · simp [exec, execDmaConfigError, hm, Option.isSome_iff_ne_none.mpr hd]

/-! ### The fill start -/

/-- A fill waits for its word where its data-port write has not come (R161). -/
theorem fillArmed_some_iff (tr : Transfer) : fillArmed (some tr) = true ↔ tr.mode = .vramFill ∧ tr.fillStarted = false := by
  simp [fillArmed]

/-- The write that starts a waiting fill: the high byte at `dest ^ 1`, then the word is held (R160). -/
theorem dmaFillStart_of_armed {s : State} {tr : Transfer} (hd : s.vdp.dma = some tr) (ha : fillArmed (some tr) = true)
    (d : Word) :
    dmaFillStart d s = .next (s.setVdp { s.vdp with
      vram := s.vdp.vram.write (tr.destAddress ^^^ 1#16).toNat (d.extractLsb' 8 8)
      dma := some { tr with fillData := some d, fillStarted := true } }) := by
  simp only [dmaFillStart, hd, ha, if_true]
  rfl

theorem exec_dmaFillStart_of_next {d : Word} {s t : State} (h : dmaFillStart d s = .next t) :
    exec (.dmaFillStart d) s = .next (t.setResult .noResult) := by
  rw [exec, execDmaFillStart, h, andThen_next]

/-- Settles O27: a waiting fill, no transfer, or a transfer that does not wait. -/
theorem fillStartWritesOneByteAndHoldsTheWord : Obligations.FillStartWritesOneByteAndHoldsTheWord := by
  intro d s
  refine ⟨fun tr hd hmode hstarted => ?_, fun hd => ?_, fun tr hd hno => ?_⟩
  · have harmed := (fillArmed_some_iff tr).mpr ⟨hmode, hstarted⟩
    exact ⟨_, exec_dmaFillStart_of_next (dmaFillStart_of_armed hd harmed d), fun k => Memory.read_write _ _ _ _⟩
  · simp [exec, execDmaFillStart, dmaFillStart, hd]
  · have hidle : ¬fillArmed (some tr) = true := by
      rw [fillArmed_some_iff, not_and_or, Bool.not_eq_false]
      exact hno
    simp [exec, execDmaFillStart, dmaFillStart, hd, hidle]

/-- Settles O28: no transfer, or a fill that waits for its word. -/
theorem doDmaWithoutWorkChangesNothing : Obligations.DoDmaWithoutWorkChangesNothing := by
  intro m b s
  refine ⟨fun hd => ?_, fun tr hd hmode hstarted => ?_⟩
  · simp only [exec, execDoDma, doDma, hd]
    rfl
  · have harmed := (fillArmed_some_iff tr).mpr ⟨hmode, hstarted⟩
    constructor
    · simp only [exec, execDoDma, doDma, hd, harmed, if_true]
      rfl
    · simp [cpuStall, hd, harmed]

end Sys2Proof.Machine
end

