-- ==== Sys2Proof/Proofs/DmaUnits.lean ====
section
/-! PROOFS. The units of a DO_DMA call (spec/42_dma.md R162 to R174): the state after each unit, how many units a call
runs, and what they write. -/

namespace Sys2Proof.Machine

open Sys2Proof

/-! ### The state after each unit -/

/-- The destination of unit `j`: AUTO_INC further at each unit, 16 bits (R170). -/
def unitDest (tr : Transfer) (inc : Byte) (j : Nat) : Word := tr.destAddress + BitVec.ofNat 16 (j * inc.toNat)

/-- The transfer that unit `j` finds. -/
def transferAt (tr : Transfer) (inc : Byte) (j : Nat) : Transfer := { tr with destAddress := unitDest tr inc j }

/-- The state after `n` units of a transfer, without the completion test (R164). -/
def afterUnits (tr : Transfer) (s : State) : Nat → State
  | 0 => s
  | j + 1 => dmaUnit (transferAt tr (s.vdp.reg 15) j) (afterUnits tr s j)

theorem transferAt_zero (tr : Transfer) (inc : Byte) : transferAt tr inc 0 = tr := by
  simp [transferAt, unitDest]

theorem advanceDest_transferAt {v : Record} {inc : Byte} (h : autoInc v = inc) (tr : Transfer) (j : Nat) :
    advanceDest v (transferAt tr inc j) = transferAt tr inc (j + 1) := by
  have hinc : inc.setWidth 16 = BitVec.ofNat 16 inc.toNat := BitVec.ofNat_toNat .. |>.symm
  simp only [advanceDest, transferAt, unitDest, h, Nat.add_mul, Nat.one_mul, BitVec.ofNat_add, BitVec.add_assoc, hinc]

theorem afterUnits_frame (tr : Transfer) (s : State) (n : Nat) : DmaFrame s (afterUnits tr s n) := by
  induction n with
  | zero => exact .refl s
  | succ n ih => exact ih.trans (dmaUnit_frame _ _)

/-- The length, the low source word and the transfer after `n` units (R168, R169, R170). -/
theorem afterUnits_spec {tr : Transfer} {s : State} (hd : s.vdp.dma = some tr) (n : Nat) :
    dmaLength (afterUnits tr s n).vdp = dmaLength s.vdp - BitVec.ofNat 16 n ∧
      srcLow (afterUnits tr s n).vdp = srcLow s.vdp + BitVec.ofNat 16 n ∧
      (afterUnits tr s n).vdp.dma = some (transferAt tr (s.vdp.reg 15) n) ∧
      (afterUnits tr s n).vdp.dmaBusy = s.vdp.dmaBusy := by
  induction n with
  | zero => simp [afterUnits, transferAt_zero, hd]
  | succ n ih =>
    obtain ⟨hlen, hsrc, -, hbusy⟩ := ih
    obtain ⟨hlen', hsrc', hdma', hbusy'⟩ := dmaUnit_spec (transferAt tr (s.vdp.reg 15) n) (afterUnits tr s n)
    have hinc : autoInc (afterUnits tr s n).vdp = s.vdp.reg 15 := (afterUnits_frame tr s n).regs 15 rfl
    refine ⟨?_, ?_, ?_, hbusy'.trans hbusy⟩
    · rw [afterUnits, hlen', hlen, BitVec.ofNat_add]
      bv_omega
    · rw [afterUnits, hsrc', hsrc, BitVec.ofNat_add, BitVec.add_assoc]
    · rw [afterUnits, hdma', advanceDest_transferAt hinc]

theorem unitsAsked_le (len : Word) : unitsAsked len ≤ 0x10000 := by
  unfold unitsAsked
  split
  · exact Nat.le_refl _
  · exact len.isLt.le

/-- What is left of a length, the length 0 standing for 0x10000 (R174). -/
theorem length_sub_units {len : Word} {k : Nat} (h : k ≤ unitsAsked len) :
    len - BitVec.ofNat 16 k = BitVec.ofNat 16 (unitsAsked len - k) := by
  by_cases hz : len = 0#16
  · rw [unitsAsked, if_pos hz] at h ⊢
    rw [hz]
    bv_omega
  · rw [unitsAsked, if_neg hz] at h ⊢
    bv_omega

/-- The length reaches 0 at the last unit it asks for, and not before (R174). -/
theorem afterUnits_length_eq_zero_iff {tr : Transfer} {s : State} (hd : s.vdp.dma = some tr) {n : Nat} (hn : 0 < n)
    (hle : n ≤ unitsAsked (dmaLength s.vdp)) :
    dmaLength (afterUnits tr s n).vdp = 0#16 ↔ n = unitsAsked (dmaLength s.vdp) := by
  obtain ⟨hlen, -⟩ := afterUnits_spec hd n
  have hle' := unitsAsked_le (dmaLength s.vdp)
  rw [hlen, length_sub_units hle]
  constructor
  · intro h
    have hmod := congrArg BitVec.toNat h
    simp only [BitVec.toNat_ofNat] at hmod
    omega
  · rintro rfl
    rw [Nat.sub_self]

/-! ### How many units a call runs -/

/-- The end of a call that has units left when the length is used up, or runs out of units before. -/
theorem dmaRun_afterUnits {tr : Transfer} {s : State} (hd : s.vdp.dma = some tr) (n : Nat) {j : Nat}
    (hj : j < unitsAsked (dmaLength s.vdp)) :
    dmaRun n (afterUnits tr s j) =
      if j + n < unitsAsked (dmaLength s.vdp) then (afterUnits tr s (j + n)).setResult (.bool false)
      else (dmaComplete (afterUnits tr s (unitsAsked (dmaLength s.vdp)))).setResult (.bool true) := by
  induction n generalizing j with
  | zero => rw [Nat.add_zero, if_pos hj, dmaRun]
  | succ n ih =>
    obtain ⟨-, -, hdma, -⟩ := afterUnits_spec hd j
    have hzero := afterUnits_length_eq_zero_iff hd (Nat.succ_pos j) hj
    rw [dmaRun, hdma]
    simp only
    rw [← afterUnits.eq_2]
    by_cases hlast : j + 1 = unitsAsked (dmaLength s.vdp)
    · rw [if_pos (hzero.mpr hlast), if_neg (by omega), ← hlast]
    · rw [if_neg (mt hzero.mp hlast), ih (j := j + 1) (by omega), Nat.add_right_comm, Nat.add_assoc]

/-- A call with work runs the smaller of its budget and what the length asks for (R162, R166, R174). -/
theorem exec_doDma_of_running {s : State} {tr : Transfer} (hd : s.vdp.dma = some tr)
    (hrun : tr.mode = .vramFill → tr.fillStarted = true) (m : VideoMode) (b : Bool) :
    exec (.doDma m b) s = .next
      (if unitsPerCall s.cfg m.hRes b tr.mode < unitsAsked (dmaLength s.vdp) then
        (afterUnits tr s (unitsPerCall s.cfg m.hRes b tr.mode)).setResult (.bool false)
      else (dmaComplete (afterUnits tr s (unitsAsked (dmaLength s.vdp)))).setResult (.bool true)) := by
  have hidle : ¬fillArmed (some tr) = true := by
    rw [fillArmed_some_iff]
    rintro ⟨hmode, hstarted⟩
    simp [hrun hmode] at hstarted
  have hpos : 0 < unitsAsked (dmaLength s.vdp) := by
    unfold unitsAsked
    split
    · decide
    · bv_omega
  rw [exec, execDoDma, doDma, hd]
  simp only [if_neg hidle]
  have hrunUnits := dmaRun_afterUnits hd (unitsPerCall s.cfg m.hRes b tr.mode) hpos
  rw [Nat.zero_add] at hrunUnits
  exact congrArg _ hrunUnits

/-- The units of a call, as the statements write them (R166). -/
theorem unitsPerCall_eq (cfg : Config) (h : HRes) (b : Bool) (mode : DmaMode) :
    unitsPerCall cfg h b mode = slotBudget cfg h b mode / (if mode = .memToVram then 2 else 1) := by
  cases mode <;> rfl

/-- What a call with work leaves: the memories, the registers and the frame of its `k` units, and the transfer ended
exactly where its length is used up (R163). -/
theorem exec_doDma_units {s : State} {tr : Transfer} (hd : s.vdp.dma = some tr)
    (hrun : tr.mode = .vramFill → tr.fillStarted = true) (m : VideoMode) (b : Bool) {units k : Nat}
    (hunits : units = unitsPerCall s.cfg m.hRes b tr.mode) (hk : k = min units (unitsAsked (dmaLength s.vdp))) :
    ∃ t, exec (.doDma m b) s = .next t ∧
      (t.vdp.vram = (afterUnits tr s k).vdp.vram ∧ t.vdp.cram = (afterUnits tr s k).vdp.cram ∧
        t.vdp.vsram = (afterUnits tr s k).vdp.vsram ∧ t.vdp.regs = (afterUnits tr s k).vdp.regs) ∧
      DmaFrame s t ∧
      (unitsAsked (dmaLength s.vdp) ≤ units → t.vdp.dma = none ∧ t.vdp.dmaBusy = false ∧ t.result = .bool true) ∧
      (units < unitsAsked (dmaLength s.vdp) →
        t.vdp.dma = some (transferAt tr (s.vdp.reg 15) k) ∧ t.vdp.dmaBusy = s.vdp.dmaBusy ∧ t.result = .bool false) := by
  have hcall := exec_doDma_of_running hd hrun m b
  have frame := afterUnits_frame tr s k
  rw [← hunits] at hcall
  by_cases hless : units < unitsAsked (dmaLength s.vdp)
  · rw [if_pos hless] at hcall
    obtain rfl : k = units := by omega
    obtain ⟨-, -, hdma, hbusy⟩ := afterUnits_spec hd k
    exact ⟨_, hcall, ⟨rfl, rfl, rfl, rfl⟩, frame.trans (setResult_dmaFrame _ _), fun h => absurd hless (Nat.not_lt.mpr h),
      fun _ => ⟨hdma, hbusy, rfl⟩⟩
  · rw [if_neg hless] at hcall
    obtain rfl : k = unitsAsked (dmaLength s.vdp) := by omega
    exact ⟨_, hcall, ⟨rfl, rfl, rfl, rfl⟩, (frame.trans (dmaComplete_frame _)).trans (setResult_dmaFrame _ _),
      fun _ => ⟨rfl, rfl, rfl⟩, fun h => absurd h hless⟩

theorem dmaLength_congr {v w : Record} (h : v.regs = w.regs) : dmaLength v = dmaLength w := by
  simp only [dmaLength, reg_eq_of_regs_eq h]

theorem srcLow_congr {v w : Record} (h : v.regs = w.regs) : srcLow v = srcLow w := by
  simp only [srcLow, reg_eq_of_regs_eq h]

/-- Settles O29: the length, the source and the transfer after `k` units, and the frame of a call. -/
theorem doDmaRunsUnitsUntilTheLengthIsUsedUp : Obligations.DoDmaRunsUnitsUntilTheLengthIsUsedUp := by
  intro m b s tr hd hrun units asked k
  obtain ⟨t, ht, ⟨-, -, -, hregs⟩, frame, hended, hleft⟩ :=
    exec_doDma_units hd hrun m b (units := units) (k := k) (unitsPerCall_eq _ _ _ _).symm rfl
  obtain ⟨hlen, hsrc, -⟩ := afterUnits_spec hd k
  refine ⟨t, ht, ?_, ?_, hended, hleft, ?_, frame.cs, frame.curMode, frame.fifo, frame.prim, frame.cop,
    frame.frameExpired, frame.copTriggerLine, frame.log, frame.cpuCalls⟩
  · exact (dmaLength_congr hregs).trans (hlen.trans (length_sub_units (Nat.min_le_right _ _)))
  · exact (srcLow_congr hregs).trans hsrc
  · exact fun r hr => frame.regs r (by simpa [outsideDmaRegs, and_assoc] using hr)

/-! ### What the units write -/

/-- The memories after one more unit are those its data movement leaves. -/
theorem afterUnits_succ_memories (tr : Transfer) (s : State) (j : Nat) :
    (afterUnits tr s (j + 1)).vdp.vram = (dmaMove (transferAt tr (s.vdp.reg 15) j) (afterUnits tr s j)).vdp.vram ∧
      (afterUnits tr s (j + 1)).vdp.cram = (dmaMove (transferAt tr (s.vdp.reg 15) j) (afterUnits tr s j)).vdp.cram ∧
      (afterUnits tr s (j + 1)).vdp.vsram = (dmaMove (transferAt tr (s.vdp.reg 15) j) (afterUnits tr s j)).vdp.vsram ∧
      (afterUnits tr s (j + 1)).draws = (dmaMove (transferAt tr (s.vdp.reg 15) j) (afterUnits tr s j)).draws :=
  dmaUnit_memories _ _

/-- What each of `n` units leaves alone, all of them do. -/
theorem afterUnits_keeps {α : Type} (f : State → α) {tr : Transfer} {s : State} {n : Nat}
    (h : ∀ j, j < n → f (afterUnits tr s (j + 1)) = f (afterUnits tr s j)) : f (afterUnits tr s n) = f s := by
  induction n with
  | zero => rfl
  | succ n ih => exact (h n (Nat.lt_succ_self n)).trans (ih fun j hj => h j (Nat.lt_succ_of_lt hj))

/-- Register 23 is the source's bank, which no unit writes (spec/10_state.md R29). -/
theorem DmaFrame.reg23 {s t : State} (h : DmaFrame s t) : t.vdp.reg 23 = s.vdp.reg 23 := h.regs 23 rfl

/-! #### A copy -/

/-- A copy's unit writes the byte it reads in the VRAM the units before it left (R172). -/
theorem afterUnits_succ_vram_of_copy {tr : Transfer} {s : State} (hd : s.vdp.dma = some tr) (hmode : tr.mode = .vramCopy)
    (j : Nat) :
    (afterUnits tr s (j + 1)).vdp.vram =
      (afterUnits tr s j).vdp.vram.write (unitDest tr (s.vdp.reg 15) j).toNat
        ((afterUnits tr s j).vdp.vram.read (srcLow s.vdp + BitVec.ofNat 16 j).toNat) := by
  obtain ⟨-, hsrc, -⟩ := afterUnits_spec hd j
  rw [(afterUnits_succ_memories tr s j).1, dmaMove, transferAt, hmode, ← hsrc]
  rfl

/-- Settles O31: `v j` is the VRAM after `j` units. -/
theorem copyUnitsMoveOneByteEach : Obligations.CopyUnitsMoveOneByteEach := by
  intro m b s tr hd hmode k
  obtain ⟨t, ht, ⟨hvram, -, -, hregs⟩, frame, -⟩ := exec_doDma_units hd (fun h => by simp [hmode] at h) m b
    (units := slotBudget s.cfg m.hRes b .vramCopy) (k := k) (by simp [unitsPerCall_eq, hmode]) rfl
  obtain ⟨-, hsrc, -⟩ := afterUnits_spec hd k
  refine ⟨t, fun j => (afterUnits tr s j).vdp.vram, ht, rfl, hvram, fun j a _ => ?_, (srcLow_congr hregs).trans hsrc,
    frame.reg23⟩
  exact (congrArg (Memory.read · a) (afterUnits_succ_vram_of_copy hd hmode j)).trans (Memory.read_write _ _ _ _)

/-! #### A transfer from memory -/

/-- Two records hold the same memories. -/
def SameMemories (v w : Record) : Prop := v.vram = w.vram ∧ v.cram = w.cram ∧ v.vsram = w.vsram

/-- What a word write leaves in the memories is fixed by the memories (R67). -/
theorem SameMemories.writeTarget {v w : Record} (h : SameMemories v w) (cfg : Config) (g : Target) (a d : Word) :
    SameMemories (writeTarget cfg g a d v) (writeTarget cfg g a d w) := by
  obtain ⟨hv, hc, hs⟩ := h
  cases g with
  | vram => exact ⟨by simp only [Machine.writeTarget, vramWriteWord_eq, hv], hc, hs⟩
  | cram => exact ⟨hv, by simp only [Machine.writeTarget, cramWriteWord, hc], hs⟩
  | vsram =>
    simp only [Machine.writeTarget, vsramWriteWord]
    split
    · exact ⟨hv, hc, hs⟩
    · exact ⟨hv, hc, by rw [hs]⟩

/-- The word the bus returns to unit `j` of a transfer from memory (R173; log 5). -/
def busWord (s : State) (j : Nat) : Word :=
  Config.busRead16 (s.draws + j) ((s.vdp.reg 23).extractLsb' 0 7 ++ (srcLow s.vdp + BitVec.ofNat 16 j) ++ 0#1)

/-- The record that unit `j` of a transfer from memory finds, as far as the memories go: the words before it written one
after the other (R173). -/
def busRecord (tr : Transfer) (s : State) : Nat → Record
  | 0 => s.vdp
  | j + 1 => writeTarget s.cfg tr.destRamType (unitDest tr (s.vdp.reg 15) j) (busWord s j) (busRecord tr s j)

/-- The units of a transfer from memory write one bus word after the other, each a fresh draw (R173; log 5). -/
theorem afterUnits_busRecord {tr : Transfer} {s : State} (hd : s.vdp.dma = some tr) (hmode : tr.mode = .memToVram)
    (j : Nat) : SameMemories (afterUnits tr s j).vdp (busRecord tr s j) ∧ (afterUnits tr s j).draws = s.draws + j := by
  induction j with
  | zero => exact ⟨⟨rfl, rfl, rfl⟩, rfl⟩
  | succ j ih =>
    obtain ⟨hsame, hdraws⟩ := ih
    obtain ⟨-, hsrc, -⟩ := afterUnits_spec hd j
    have frame := afterUnits_frame tr s j
    obtain ⟨hvram, hcram, hvsram, hdraws'⟩ := afterUnits_succ_memories tr s j
    have hmove : dmaMove (transferAt tr (s.vdp.reg 15) j) (afterUnits tr s j) =
        memUnit (transferAt tr (s.vdp.reg 15) j) (afterUnits tr s j) := by
      simp only [dmaMove, transferAt, hmode]
    have hword : Config.busRead16 (afterUnits tr s j).draws (busAddress (afterUnits tr s j).vdp) = busWord s j := by
      rw [hdraws, busAddress, srcFull, hsrc, frame.reg23, busWord]
    have hunit : (memUnit (transferAt tr (s.vdp.reg 15) j) (afterUnits tr s j)).vdp =
        writeTarget s.cfg tr.destRamType (unitDest tr (s.vdp.reg 15) j) (busWord s j) (afterUnits tr s j).vdp := by
      rw [memUnit, hword, frame.cfg]
      rfl
    obtain ⟨hv, hc, hs⟩ := hsame.writeTarget s.cfg tr.destRamType (unitDest tr (s.vdp.reg 15) j) (busWord s j)
    rw [hmove, hunit] at hvram hcram hvsram
    rw [hmove] at hdraws'
    exact ⟨⟨hvram.trans hv, hcram.trans hc, hvsram.trans hs⟩, hdraws'.trans (congrArg (· + 1) hdraws)⟩

/-- Settles O32: `w j` is the record with the first `j` words written. -/
theorem memUnitsWriteTheBusWords : Obligations.MemUnitsWriteTheBusWords := by
  intro m b s tr hd hmode k dest word
  obtain ⟨t, ht, ⟨hvram, hcram, hvsram, hregs⟩, frame, -⟩ := exec_doDma_units hd (fun h => by simp [hmode] at h) m b
    (units := slotBudget s.cfg m.hRes b .memToVram / 2) (k := k) (by simp [unitsPerCall_eq, hmode]) rfl
  obtain ⟨-, hsrc, -⟩ := afterUnits_spec hd k
  obtain ⟨⟨hvram', hcram', hvsram'⟩, -⟩ := afterUnits_busRecord hd hmode k
  exact ⟨t, busRecord tr s, ht, rfl, hvram.trans hvram', hcram.trans hcram', hvsram.trans hvsram', fun j _ => rfl,
    (srcLow_congr hregs).trans hsrc, frame.reg23⟩

/-! #### Where the units write -/

/-- A unit's data movement leaves a VRAM byte alone that is not at its destination (R171 to R173). -/
theorem dmaMove_vram_read {tr : Transfer} {s : State} {a : Nat}
    (hword : tr.mode = .memToVram → tr.destRamType = .vram →
      a ≠ tr.destAddress.toNat ∧ a ≠ (tr.destAddress ^^^ 1#16).toNat)
    (hbyte : tr.mode ≠ .memToVram → a ≠ tr.destAddress.toNat) :
    (dmaMove tr s).vdp.vram.read a = s.vdp.vram.read a := by
  cases hmode : tr.mode <;> simp only [dmaMove, hmode]
  case vramFill => exact (Memory.read_write _ _ _ _).trans (if_neg (hbyte (by simp [hmode])))
  case vramCopy => exact (Memory.read_write _ _ _ _).trans (if_neg (hbyte (by simp [hmode])))
  case memToVram =>
    cases htarget : tr.destRamType <;> simp only [memUnit, htarget, State.setDraws_vdp, State.setVdp_vdp, writeTarget]
    case vram =>
      obtain ⟨hhigh, hlow⟩ := hword hmode htarget
      rw [read_vramWriteWord, if_neg hhigh, if_neg hlow]
    case cram => rfl
    case vsram => rw [(vsramWriteWord_others _ _ _ _).1]

/-- A unit's data movement leaves a CRAM byte alone that is not of the word it writes there (R173). -/
theorem dmaMove_cram_read {tr : Transfer} {s : State} {a : Nat}
    (h : tr.mode = .memToVram → tr.destRamType = .cram →
      a ≠ cramOffset s.cfg tr.destAddress ∧ a ≠ cramOffset s.cfg tr.destAddress + 1) :
    (dmaMove tr s).vdp.cram.read a = s.vdp.cram.read a := by
  cases hmode : tr.mode <;> simp only [dmaMove, hmode]
  case vramFill => rfl
  case vramCopy => rfl
  case memToVram =>
    cases htarget : tr.destRamType <;> simp only [memUnit, htarget, State.setDraws_vdp, State.setVdp_vdp, writeTarget]
    case vram => rfl
    case cram =>
      obtain ⟨hhigh, hlow⟩ := h hmode htarget
      rw [cramWriteWord, read_writePair, if_neg hlow, if_neg hhigh]
    case vsram => rw [(vsramWriteWord_others _ _ _ _).2]

/-- A unit's data movement leaves a VSRAM byte alone that is not of the word it writes there, inside the memory
(R173). -/
theorem dmaMove_vsram_read {tr : Transfer} {s : State} {a : Nat}
    (h : tr.mode = .memToVram → tr.destRamType = .vsram → vsramOffset tr.destAddress < s.cfg.vsramSize →
      a ≠ vsramOffset tr.destAddress ∧ a ≠ vsramOffset tr.destAddress + 1) :
    (dmaMove tr s).vdp.vsram.read a = s.vdp.vsram.read a := by
  cases hmode : tr.mode <;> simp only [dmaMove, hmode]
  case vramFill => rfl
  case vramCopy => rfl
  case memToVram =>
    cases htarget : tr.destRamType <;> simp only [memUnit, htarget, State.setDraws_vdp, State.setVdp_vdp, writeTarget]
    case vram => rfl
    case cram => rfl
    case vsram =>
      by_cases hsize : vsramOffset tr.destAddress < s.cfg.vsramSize
      · obtain ⟨hhigh, hlow⟩ := h hmode htarget hsize
        rw [vsramWriteWord_of_lt hsize, read_writePair, if_neg hlow, if_neg hhigh]
      · rw [vsramWriteWord_of_le (Nat.not_lt.mp hsize)]

/-- Every unit of a fill writes the low byte of the fill word, so no later one undoes an earlier (R171). -/
theorem afterUnits_fill {tr : Transfer} {s : State} {d : Word} (hmode : tr.mode = .vramFill) (hfill : tr.fillData = some d)
    {n j : Nat} (hj : j < n) :
    (afterUnits tr s n).vdp.vram.read (unitDest tr (s.vdp.reg 15) j).toNat = d.extractLsb' 0 8 := by
  induction n with
  | zero => exact absurd hj (Nat.not_lt_zero j)
  | succ n ih =>
    have hwrite : (afterUnits tr s (n + 1)).vdp.vram =
        (afterUnits tr s n).vdp.vram.write (unitDest tr (s.vdp.reg 15) n).toNat (d.extractLsb' 0 8) := by
      rw [(afterUnits_succ_memories tr s n).1]
      simp only [dmaMove, transferAt, hmode, fillUnit, fillByte, hfill]
      rfl
    rw [hwrite, Memory.read_write]
    split
    · rfl
    · rename_i hne
      exact ih (Nat.lt_of_le_of_ne (Nat.le_of_lt_succ hj) fun h => hne (by rw [h]))

/-- Settles O30: what one unit writes is at its own destination, so `k` units write at theirs only. -/
theorem dmaUnitsWriteTheirDestinationsOnly : Obligations.DmaUnitsWriteTheirDestinationsOnly := by
  intro m b s tr hd hrun units k dest
  obtain ⟨t, ht, ⟨hvram, hcram, hvsram, -⟩, -, -⟩ :=
    exec_doDma_units hd hrun m b (units := units) (k := k) (unitsPerCall_eq _ _ _ _).symm rfl
  refine ⟨t, ht, fun d hmode hfill j hj => ?_, fun a hword hbyte => ?_, fun a h => ?_, fun a h => ?_⟩
  · rw [hvram]
    exact afterUnits_fill hmode hfill hj
  · rw [hvram]
    refine afterUnits_keeps (fun u => u.vdp.vram.read a) fun j hj => ?_
    exact (congrArg (Memory.read · a) (afterUnits_succ_memories tr s j).1).trans
      (dmaMove_vram_read (hword j hj) (hbyte j hj))
  · rw [hcram]
    refine afterUnits_keeps (fun u => u.vdp.cram.read a) fun j hj => ?_
    refine (congrArg (Memory.read · a) (afterUnits_succ_memories tr s j).2.1).trans (dmaMove_cram_read ?_)
    rw [(afterUnits_frame tr s j).cfg]
    exact h j hj
  · rw [hvsram]
    refine afterUnits_keeps (fun u => u.vdp.vsram.read a) fun j hj => ?_
    refine (congrArg (Memory.read · a) (afterUnits_succ_memories tr s j).2.2.1).trans (dmaMove_vsram_read ?_)
    rw [(afterUnits_frame tr s j).cfg]
    exact h j hj

end Sys2Proof.Machine
end

