-- ==== Sys2Proof/Proofs/Ports.lean ====
section
/-! PROOFS. The register bank and the ports (spec/44_tick_and_ports.md R223 to R230), and the command words as rows of
their own. -/

namespace Sys2Proof.Machine

open Sys2Proof

/-! ### The stall -/

theorem busCall_of_stall {s : State} (h : cpuStall s.vdp = true) (k : Out) : busCall s k = .fault .stalledAccess :=
  if_pos h

theorem busCall_of_free {s : State} (h : cpuStall s.vdp = false) (k : Out) : busCall s k = k := by
  rw [busCall, h]
  rfl

/-- The stall output: busy, and no fill that waits for its word (spec/10_state.md R37). -/
theorem cpuStall_iff (v : Record) :
    cpuStall v = true ↔ v.dmaBusy = true ∧ ∀ tr, v.dma = some tr → ¬(tr.mode = .vramFill ∧ tr.fillStarted = false) := by
  rw [cpuStall, Bool.and_eq_true, Bool.not_eq_true', ← Bool.not_eq_true]
  cases v.dma with
  | none => simp [fillArmed]
  | some tr => simp only [fillArmed_some_iff, Option.some.injEq, forall_eq']

/-! ### The registers -/

theorem exec_regRead_of_lt {i : Byte} (h : i.toNat < 24) (s : State) :
    exec (.regRead i) s = .next (s.setResult (.register (s.vdp.reg ⟨i.toNat, h⟩))) :=
  dif_pos h

/-- Settles O44: an index of the bank, or none. -/
theorem registerReadReturnsTheRegister : Obligations.RegisterReadReturnsTheRegister := by
  intro i s
  exact ⟨fun h => exec_regRead_of_lt h s, fun h => dif_neg (Nat.not_lt.mpr h)⟩

/-- A byte index names register `k` where it is `k`. -/
theorem regIndex_eq_iff {i : Byte} (h : i.toNat < numRegs) (k : Byte) (hk : k.toNat < numRegs) :
    (⟨i.toNat, h⟩ : Fin numRegs) = ⟨k.toNat, hk⟩ ↔ i = k := by
  rw [Fin.mk.injEq, BitVec.toNat_inj]

theorem exec_regWrite_of_free {i : Byte} (h : i.toNat < numRegs) (b : Byte) {s : State} (hfree : cpuStall s.vdp = false) :
    exec (.regWrite i b) s = andThen (regWriteAt ⟨i.toNat, h⟩ b s) fun t => .next (t.setResult .noResult) :=
  (busCall_of_free hfree _).trans (dif_pos h)

/-- Settles O45: the stall, the index, and the mode the registers select against the current one. -/
theorem registerWriteStoresAndMaySetTheMode : Obligations.RegisterWriteStoresAndMaySetTheMode := by
  intro i b s
  refine ⟨fun h => busCall_of_stall h _, fun hfree h => ?_, fun h hfree => ?_⟩
  · exact (busCall_of_free hfree _).trans (dif_neg (Nat.not_lt.mpr h))
  · intro regs m
    have hindex : (⟨i.toNat, h⟩ : Fin numRegs) = 1 ∨ (⟨i.toNat, h⟩ : Fin numRegs) = 12 ↔ i = 1 ∨ i = 12 :=
      or_congr (regIndex_eq_iff h 1 (by decide)) (regIndex_eq_iff h 12 (by decide))
    have hmode : regWriteAt ⟨i.toNat, h⟩ b s =
        if (i = 1 ∨ i = 12) ∧ m ≠ s.vdp.curMode then setMode m (s.setVdp (s.vdp.setReg ⟨i.toNat, h⟩ b))
        else .next (s.setVdp (s.vdp.setReg ⟨i.toNat, h⟩ b)) := by
      simp only [← hindex]
      rfl
    rw [exec_regWrite_of_free h b hfree, hmode]
    refine ⟨fun hno => ?_, fun hyes => ⟨fun p hp => ?_, fun hnone => ?_⟩⟩
    · rw [if_neg hno]
      rfl
    · rw [if_pos hyes, (setMode_eq_next (s := s.setVdp (s.vdp.setReg _ b))).mpr ⟨p, hp, rfl⟩]
      rfl
    · rw [if_pos hyes, setMode, State.setVdp_cfg, hnone]
      rfl

/-! ### The control port -/

/-- A command word that requests no DMA sets the address register outside the core (R225). -/
theorem controlCommand_of_address {cmd : Command} (h : commandRequestsDma cmd = false) (s : State) :
    controlCommand cmd s = .next (s.setResult .noResult) := by
  rw [controlCommand, h]
  rfl

theorem controlCommand_of_request {cmd : Command} (h : commandRequestsDma cmd = true) (s : State) :
    controlCommand cmd s =
      andThen (dmaSetup (commandMode cmd) cmd (m1Enabled s.vdp) s) fun t => .next (t.setResult .noResult) :=
  if_pos h

/-- A request that selects a mode starts its transfer at the address field (R155, R157, R225). -/
theorem controlCommand_starts {cmd : Command} {s : State} {mode : DmaMode} (h : commandRequestsDma cmd = true)
    (hd : s.vdp.dma = none) (hm1 : m1Enabled s.vdp = true)
    (hm : selectMode (dmaTypeCode s.vdp) (commandMode cmd) = some mode) {a : Word}
    (ha : cmd.extractLsb' 0 2 ++ cmd.extractLsb' 16 14 = a) :
    ∃ target, controlCommand cmd s = .next { s with
      vdp := { s.vdp with dma := some ⟨mode, a, target, none, false⟩, dmaBusy := true }
      result := .noResult } := by
  refine ⟨(newTransfer mode (commandMode cmd) cmd).destRamType, ?_⟩
  rw [controlCommand_of_request h, hm1, dmaSetup_of_mode hd hm, andThen_next, dmaStart, ← ha, ← commandDest_eq]
  rfl

section Pair

variable (w1 w2 : Word)

theorem commandOf_requestsDma : commandRequestsDma (commandOf w1 w2) = w2.getLsbD 7 := by
  have h : (w1 ++ w2).getLsbD 7 = w2.getLsbD 7 := BitVec.getLsbD_append
  exact (commandRequestsDma_eq _).trans h

/-- `CD[3:0]` of a command word (R87). -/
theorem commandMode_eq (cmd : Command) : commandMode cmd = cmd.extractLsb' 4 2 ++ cmd.extractLsb' 30 2 := by
  have high : (commandCd cmd).extractLsb' 2 2 = cmd.extractLsb' 4 2 := by
    refine (BitVec.extractLsb'_append_eq_of_le (by decide)).trans ?_
    ext i hi
    simp
    omega
  have low : (commandCd cmd).extractLsb' 0 2 = cmd.extractLsb' 30 2 := BitVec.extractLsb'_append_eq_right
  rw [commandMode, ← high, ← low, BitVec.extractLsb'_append_extractLsb'_eq_extractLsb' (show 2 = 0 + 2 from rfl)]

/-- `CD[3:0]` of a pair (R86, R87). -/
theorem commandMode_commandOf : commandMode (commandOf w1 w2) = w2.extractLsb' 4 2 ++ w1.extractLsb' 14 2 := by
  have low : (commandOf w1 w2).extractLsb' 4 2 = w2.extractLsb' 4 2 := BitVec.extractLsb'_append_eq_of_add_le (by decide)
  have high : (commandOf w1 w2).extractLsb' 30 2 = w1.extractLsb' 14 2 := BitVec.extractLsb'_append_eq_of_le (by decide)
  rw [commandMode_eq, low, high]

/-- `A` of a pair (R86, R87). -/
theorem commandOf_address :
    (commandOf w1 w2).extractLsb' 0 2 ++ (commandOf w1 w2).extractLsb' 16 14 =
      w2.extractLsb' 0 2 ++ w1.extractLsb' 0 14 := by
  have low : (commandOf w1 w2).extractLsb' 0 2 = w2.extractLsb' 0 2 := BitVec.extractLsb'_append_eq_of_add_le (by decide)
  have high : (commandOf w1 w2).extractLsb' 16 14 = w1.extractLsb' 0 14 := BitVec.extractLsb'_append_eq_of_le (by decide)
  rw [low, high]

end Pair

/-- Settles O46: the fields of the pair, and the setup it requests. -/
theorem controlPairRequestsADmaSetup : Obligations.ControlPairRequestsADmaSetup := by
  intro w1 w2 s
  have hfields := commandOf_requestsDma w1 w2
  refine ⟨fun h => busCall_of_stall h _, fun hfree h => ?_, fun hfree h => ?_⟩
  · exact (busCall_of_free hfree _).trans (controlCommand_of_address (hfields.trans h) s)
  · intro setup
    have hreq := hfields.trans h
    have hpair : exec (.controlWritePair w1 w2) s = andThen (exec setup s) fun t => .next (t.setResult .noResult) := by
      refine (busCall_of_free hfree _).trans ?_
      rw [controlCommand_of_request hreq, commandMode_commandOf]
      rfl
    refine ⟨fun t ht => ?_, fun f hf => ?_, fun mode hd hm1 hm => ?_⟩
    · rw [hpair, ht]
      rfl
    · rw [hpair, hf]
      rfl
    · rw [← commandMode_commandOf] at hm
      obtain ⟨target, hstart⟩ := controlCommand_starts hreq hd hm1 hm (commandOf_address w1 w2)
      exact ⟨target, (busCall_of_free hfree _).trans hstart⟩

section Form

variable (a : Word) (hi : Byte) (lo : BitVec 2)

theorem commandWord_requestsDma (c : BitVec 6) : commandRequestsDma (commandWord c a hi lo) = c.getLsbD 5 := by
  rw [commandRequestsDma, commandCd_commandWord]

theorem commandWord_mode (c : BitVec 6) : commandMode (commandWord c a hi lo) = c.extractLsb' 0 4 := by
  rw [commandMode, commandCd_commandWord]

end Form

/-- Settles O47: a form runs the pair's own command, on the word joined of its fields. -/
theorem commandFormsActAsTheirControlPair : Obligations.CommandFormsActAsTheirControlPair := by
  intro cd a hi lo s
  refine ⟨fun w1 w2 h => ?_, fun w1 w2 h => ?_, fun hfree => ?_, fun mode hfree hd hm1 hm => ?_⟩
  · exact congrArg (fun cmd => busCall s (controlCommand cmd s)) (Option.some.inj h)
  · exact congrArg (fun cmd => busCall s (controlCommand cmd s)) (Option.some.inj h)
  · have hbit : ∀ cd : BitVec 5, (0#1 ++ cd : BitVec 6).getLsbD 5 = false := by decide
    exact (busCall_of_free hfree _).trans
      (controlCommand_of_address ((commandWord_requestsDma a hi lo _).trans (hbit cd)) s)
  · have hbits : ∀ cd : BitVec 5, (1#1 ++ cd : BitVec 6).getLsbD 5 = true ∧
        (1#1 ++ cd : BitVec 6).extractLsb' 0 4 = cd.extractLsb' 0 4 := by decide
    have hmode := (commandWord_mode a hi lo (1#1 ++ cd)).trans (hbits cd).2
    rw [← hmode] at hm
    obtain ⟨target, hstart⟩ := controlCommand_starts ((commandWord_requestsDma a hi lo _).trans (hbits cd).1) hd hm1 hm
      (commandWord_address _ a hi lo)
    exact ⟨target, (busCall_of_free hfree _).trans hstart⟩

/-! ### The data port -/

theorem exec_dataWrite_of_no_transfer {s : State} (hfree : cpuStall s.vdp = false) (hd : s.vdp.dma = none)
    (m : AccessMode) (a d : Word) : exec (.dataWrite m a d) s = exec (.fifoPush m a d) s := by
  refine (busCall_of_free hfree _).trans ?_
  rw [hd]
  rfl

/-- Settles O48: a waiting fill takes the word, otherwise the FIFO does. -/
theorem dataWriteStartsTheFillOrQueues : Obligations.DataWriteStartsTheFillOrQueues := by
  intro m a d s
  refine ⟨fun h => busCall_of_stall h _, fun hfree hd => exec_dataWrite_of_no_transfer hfree hd m a d,
    fun hfree tr hd hmode hstarted => ?_, fun hfree hd hm hroom => ?_⟩
  · have harmed := (fillArmed_some_iff tr).mpr ⟨hmode, hstarted⟩
    refine ⟨_, (busCall_of_free hfree _).trans ?_, fun k => Memory.read_write _ _ _ _⟩
    rw [hd, Option.isSome_some, if_pos rfl, dmaFillStart_of_armed hd harmed]
    rfl
  · exact ⟨_, (exec_dataWrite_of_no_transfer hfree hd m a d).trans (exec_fifoPush_of_room hm hroom a d), rfl, rfl⟩

/-- Settles O49: the three bus calls test the stall first, the other two do not. -/
theorem stalledBusCallsFault : Obligations.StalledBusCallsFault := by
  intro s
  refine ⟨cpuStall_iff s.vdp, fun h i b l m w1 w2 => ⟨busCall_of_stall h _, busCall_of_stall h _, busCall_of_stall h _,
    fun hi => ⟨_, exec_regRead_of_lt hi s⟩, ⟨_, rfl⟩⟩⟩

end Sys2Proof.Machine
end

