-- ==== Sys2Proof/Proofs/System.lean ====
section
/-! PROOFS. The observers, the snapshot, the restore (spec/44_tick_and_ports.md R232 to R234) and the system reset
(spec/70_reset_and_hazards.md R275, R276). -/

namespace Sys2Proof.Machine

open Sys2Proof

/-- Settles O50: each observer sets the result only. -/
theorem observersChangeNothing : Obligations.ObserversChangeNothing := fun s =>
  ⟨rfl, rfl, rfl, rfl, ⟨_, rfl⟩, fun _ hi => ⟨_, exec_regRead_of_lt hi s⟩⟩

/-! ### The restore -/

/-- A counter is 9 bits, so its set has no upper bound to check (spec/10_state.md R22, R23). -/
theorem counter_inCounterSet_iff (trigger total : Nat) (c : Counter) :
    inCounterSet trigger total c.toNat = true ↔ c.toNat < trigger ∨ 1 + 0x1FF + trigger - total ≤ c.toNat := by
  have hlt : c.toNat ≤ 0x1FF := Nat.le_of_lt_succ c.isLt
  simp only [inCounterSet_iff, hlt, and_true]

theorem countersValid_iff_spelled (cfg : Config) (v : Record) :
    countersValid cfg v = true ↔ ∃ p, timingOf cfg v.curMode = some p ∧
      (v.cs.hCounter.toNat < p.hJumpTrigger ∨ 1 + 0x1FF + p.hJumpTrigger - p.hTotal ≤ v.cs.hCounter.toNat) ∧
      (v.cs.vCounter.toNat < p.vJumpTrigger ∨ 1 + 0x1FF + p.vJumpTrigger - p.vTotal ≤ v.cs.vCounter.toNat) := by
  simp only [countersValid_iff, counter_inCounterSet_iff]

theorem countdownValid_iff (v : Record) :
    countdownValid v = true ↔ -1 ≤ v.cs.hLinePassed.toInt ∧ v.cs.hLinePassed.toInt ≤ 255 := by
  simp [countdownValid]

/-- With `FIFO_CAPACITY` slots every queued entry stands in a slot (spec/10_state.md R35). -/
theorem fifoValid_iff_spelled (cfg : Config) (f : Fifo) :
    fifoValid cfg f = true ↔ (f.head < cfg.fifoCapacity ∧ f.count ≤ cfg.fifoThreshold) ∧
      (∀ k, k < f.count → ∃ e, f.slots[(f.head + k) % cfg.fifoCapacity]? = some e ∧
        e.ramMode ∈ [0b0001#4, 0b0011#4, 0b0101#4]) ∧ f.slots.length = cfg.fifoCapacity := by
  have codes : ∀ m : AccessMode, m ∈ [0b0001#4, 0b0011#4, 0b0101#4] ↔ isWriteCode m = true := by
    simp [isWriteCode_iff]
  simp only [codes, fifoValid_iff, queuedEntries, List.mem_map, List.mem_range, forall_exists_index, and_imp,
    forall_apply_eq_imp_iff₂]
  constructor
  · rintro ⟨hlen, hhead, hcount, hentries⟩
    refine ⟨⟨hhead, hcount⟩, fun k hk => ?_, hlen⟩
    have hslot : (f.head + k) % cfg.fifoCapacity < f.slots.length := by
      rw [hlen]
      exact Nat.mod_lt _ (Nat.zero_lt_of_lt hhead)
    have hget := List.getElem?_eq_getElem hslot
    have hentry := hentries k hk
    rw [fifoIndex, Fifo.slotAt_of_getElem? hget] at hentry
    exact ⟨_, hget, hentry⟩
  · rintro ⟨⟨hhead, hcount⟩, hentries, hlen⟩
    refine ⟨hlen, hhead, hcount, fun k hk => ?_⟩
    obtain ⟨e, hget, he⟩ := hentries k hk
    rw [fifoIndex, Fifo.slotAt_of_getElem? hget]
    exact he

theorem dmaValid_iff_spelled (v : Record) :
    dmaValid v = true ↔ (v.dmaBusy = true ↔ v.dma ≠ none) ∧
      ∀ tr, v.dma = some tr → (tr.fillStarted = true → tr.mode = .vramFill) ∧
        (tr.mode ≠ .memToVram → tr.destRamType = .vram) ∧ (tr.fillData ≠ none → tr.mode = .vramFill) := by
  rw [dmaValid_iff, Bool.eq_iff_iff, Option.isSome_iff_ne_none]
  simp only [transferValid_iff]

/-- Settles O51: the checks of RESTORE, each in the words of its rule. -/
theorem restoreReplacesValidRecordsOnly : Obligations.RestoreReplacesValidRecordsOnly := by
  intro r s jump rises valid
  have hvalid : restoreValid s.cfg r = true ↔ valid := by
    simp only [restoreValid, recordValid, Bool.and_eq_true, countersValid_iff_spelled, countdownValid_iff,
      fifoValid_iff_spelled, dmaValid_iff_spelled, memoriesValid_iff, Memory.wf_iff]
    constructor
    · rintro ⟨⟨⟨⟨hcounters, hends, hentries, hlen⟩, hbusy, htr⟩, hmem⟩, hcountdown⟩
      exact ⟨hcounters, hcountdown, hends, hentries, hbusy, htr, hlen, hmem⟩
    · rintro ⟨hcounters, hcountdown, hends, hentries, hbusy, htr, hlen, hmem⟩
      exact ⟨⟨⟨⟨hcounters, hends, hentries, hlen⟩, hbusy, htr⟩, hmem⟩, hcountdown⟩
  rw [← hvalid]
  refine ⟨fun h => ⟨_, execRestore_eq_next.mpr ⟨h, rfl⟩⟩, fun h => if_neg h, fun hs hlow hhigh => ?_⟩
  have hself : restoreValid s.cfg s.vdp = true := by
    rw [restoreValid, Bool.and_eq_true]
    exact ⟨hs.2, (countdownValid_iff _).mpr ⟨hlow, hhigh⟩⟩
  exact ⟨_, execRestore_eq_next.mpr ⟨hself, rfl⟩⟩

/-! ### The reset -/

/-- Settles O52: the reset record's fields are the reset values, and R24 keeps the trigger line in 9 bits. -/
theorem systemResetLeavesTheResetValues : Obligations.SystemResetLeavesTheResetValues := by
  intro s m
  refine ⟨fun hnone => ?_, fun p hp => ?_⟩
  · have hmode : timingOf s.cfg (resetMode s.cfg) = none := hnone
    rw [exec, execResetSystem, hmode]
  · have hmode : timingOf s.cfg (resetMode s.cfg) = some p := hp
    obtain ⟨-, ⟨-, hlimit, -, -⟩, -, -, -, hbelow⟩ := paramsWf_bounds (timingOf_wf hp)
    refine ⟨((s.setVdp (resetRecord s.cfg p s.draws)).setDraws (s.draws + 3)).setResult .noResult, ?_, rfl, rfl, rfl, rfl,
      rfl, rfl, rfl, rfl, rfl, rfl, ?_, rfl, rfl, rfl, rfl⟩
    · rw [exec, execResetSystem, hmode]
    · exact (BitVec.toNat_ofNat _ _).trans (Nat.mod_eq_of_lt (by omega))

/-- Settles O53: by evaluation of the reset state. -/
theorem resetStateHoldsTheResetValues : Obligations.ResetStateHoldsTheResetValues := by
  unfold Obligations.ResetStateHoldsTheResetValues
  decide

end Sys2Proof.Machine
end
